-- ==== Sys2Proof/Word.lean ====
section
/-! DEFINITION. The words of the PHM CORE: the 32-bit register word (00_scope R8), the 16-bit half (R72) and the byte of buffer memory (R36). -/
namespace Sys2Proof

/-- A 32-bit word: an X register, a CSR, a command word, a float32 bit pattern (R8, R12, R14, R73). -/
abbrev Word := BitVec 32

/-- A 16-bit half-precision bit pattern (R72). -/
abbrev Half := BitVec 16

/-- A byte of buffer memory (R36). -/
abbrev Byte := BitVec 8

end Sys2Proof
end

