-- ==== Sys2Proof/Syntax.lean ====
section
/-! DEFINITION. The command set as syntax: one constructor for each row of spec/opcode_table.json (30_encoding R66, R70). -/
namespace Sys2Proof

/-- The index of a data register X0 .. X7 (R12, R65). -/
abbrev XReg := Fin 8

/-- The sample-size selector S of format A: 0 for half samples, 1 for float32 samples (R63). -/
inductive SampleSize where
  | half
  | float
  deriving DecidableEq, Repr

/-- The commands. Operand names are those of R66's "used fields" column; a CSR number is the 4-bit field as it is
(R65), and `Instr.wf` says which numbers a legal command may hold. -/
inductive Instr where
  | cvtH2f (rd rs1 : XReg)
  | cvtF2h (rd rs1 : XReg)
  | cvtH2fBuf (dst src count : XReg)
  | cvtF2hBuf (dst src count : XReg)
  | bswap16 (rd rs1 : XReg)
  | bswap16Buf (addr count : XReg)
  | payloadIn (dst count : XReg)
  | hdrParse (base len : XReg)
  | alloc (rd width height channels : XReg) (size : SampleSize)
  | free (base : XReg)
  | csrr (rd : XReg) (csr : Fin 16)
  deriving DecidableEq, Repr

end Sys2Proof
end

