-- ==== Sys2Proof/WellFormed.lean ====
section
/-! DEFINITION. Which instructions are legal commands. Register indexes and the selector S cannot be out of range by their types; the one check left is the CSR number. -/
namespace Sys2Proof

/-- The CSR numbers a CSRR may name: 0 to 13 (R66, R122). -/
def csrLegal (csr : Fin 16) : Bool := csr.val ≤ 13

/-- A well-formed instruction: "CSRR … and CSR ≤ 13" (R66); every other constructor is legal with any operands. -/
def Instr.wf : Instr → Bool
  | .cvtH2f _ _ => true
  | .cvtF2h _ _ => true
  | .cvtH2fBuf _ _ _ => true
  | .cvtF2hBuf _ _ _ => true
  | .bswap16 _ _ => true
  | .bswap16Buf _ _ => true
  | .payloadIn _ _ => true
  | .hdrParse _ _ => true
  | .alloc _ _ _ _ _ => true
  | .free _ => true
  | .csrr _ csr => csrLegal csr

end Sys2Proof
end

