-- ==== Sys2Proof/Decode.lean ====
section
/-! DEFINITION. The decoder of 30_encoding R67, total on every 32-bit word and rejecting by name, and the encoder of R70, both written from the opcode map of R66. -/
namespace Sys2Proof

/-- The mnemonics of the opcode map (R66). -/
inductive Op where
  | cvtH2f | cvtF2h | cvtH2fBuf | cvtF2hBuf | bswap16 | bswap16Buf | payloadIn | hdrParse | alloc | free | csrr
  deriving DecidableEq, Repr

/-- Why a word is illegal, one name for each clause of R68. -/
inductive Illegal where
  /-- "its OPC is not in rule R66" -/
  | reservedOpcode
  /-- "a field that must be 0 is not 0" -/
  | reservedField
  /-- "it is a CSRR with CSR 14 or 15" -/
  | reservedCsr
  deriving DecidableEq, Repr

/-- What the decoder answers (R67): an instruction, or ILLEGAL with the reason. -/
inductive Decoded where
  | legal (i : Instr)
  | illegal (why : Illegal)
  deriving DecidableEq, Repr

/-- A row of the bit patterns of R66: a word is the row's command when its bits under `mask` are `pattern`. -/
structure Row where
  op      : Op
  pattern : Word
  mask    : Word
  deriving DecidableEq, Repr

/-- The table "match = OPC << 26 and mask = every bit that must take a fixed value" of R66. -/
def opcodeMap : List Row :=
  [⟨.cvtH2f,     0x04000000, 0xFC0FFFFF⟩,
   ⟨.cvtF2h,     0x08000000, 0xFC0FFFFF⟩,
   ⟨.cvtH2fBuf,  0x0C000000, 0xFF803FFF⟩,
   ⟨.cvtF2hBuf,  0x10000000, 0xFF803FFF⟩,
   ⟨.bswap16,    0x20000000, 0xFC0FFFFF⟩,
   ⟨.bswap16Buf, 0x24000000, 0xFF81FFFF⟩,
   ⟨.payloadIn,  0x28000000, 0xFF81FFFF⟩,
   ⟨.hdrParse,   0x40000000, 0xFF81FFFF⟩,
   ⟨.alloc,      0x60000000, 0xFC001FFF⟩,
   ⟨.free,       0x64000000, 0xFF8FFFFF⟩,
   ⟨.csrr,       0x80000000, 0xFC7FC3FF⟩]

/-- `(w & mask) == match` (R67). -/
def Row.covers (r : Row) (w : Word) : Bool := w &&& r.mask == r.pattern

/-- OPC, bits [31:26] (R61). -/
def opcField (w : Word) : BitVec 6 := w.extractLsb' 26 6

/-- RD, bits [25:23] (R61). -/
def rdField (w : Word) : XReg := (w.extractLsb' 23 3).toFin

/-- RS1, bits [22:20] (R61). -/
def rs1Field (w : Word) : XReg := (w.extractLsb' 20 3).toFin

/-- RS2, bits [19:17] (R61). -/
def rs2Field (w : Word) : XReg := (w.extractLsb' 17 3).toFin

/-- RS3, bits [16:14] (R61). -/
def rs3Field (w : Word) : XReg := (w.extractLsb' 14 3).toFin

/-- S, bit [13] (R63). -/
def sField (w : Word) : SampleSize := if w.getLsbD 13 then .float else .half

/-- CSR, bits [13:10] (R64). -/
def csrField (w : Word) : Fin 16 := (w.extractLsb' 10 4).toFin

/-- The instruction of a row's mnemonic with the fields that R66 lists as used. -/
def Op.build (w : Word) : Op → Instr
  | .cvtH2f => .cvtH2f (rdField w) (rs1Field w)
  | .cvtF2h => .cvtF2h (rdField w) (rs1Field w)
  | .cvtH2fBuf => .cvtH2fBuf (rs1Field w) (rs2Field w) (rs3Field w)
  | .cvtF2hBuf => .cvtF2hBuf (rs1Field w) (rs2Field w) (rs3Field w)
  | .bswap16 => .bswap16 (rdField w) (rs1Field w)
  | .bswap16Buf => .bswap16Buf (rs1Field w) (rs2Field w)
  | .payloadIn => .payloadIn (rs1Field w) (rs2Field w)
  | .hdrParse => .hdrParse (rs1Field w) (rs2Field w)
  | .alloc => .alloc (rdField w) (rs1Field w) (rs2Field w) (rs3Field w) (sField w)
  | .free => .free (rs1Field w)
  | .csrr => .csrr (rdField w) (csrField w)

/-- The reason a word that no row covers is illegal (R68): its OPC is assigned, so some must-be-0 field is not 0,
or its OPC is reserved (R69). -/
def uncovered (w : Word) : Illegal :=
  if opcodeMap.any (fun r => opcField r.pattern == opcField w) then .reservedField else .reservedOpcode

/-- The decoder (R67): the row that covers the word, but for a CSRR of a number above 13. -/
def decode (w : Word) : Decoded :=
  match opcodeMap.find? (·.covers w) with
  | none => .illegal (uncovered w)
  | some r =>
    if r.op = .csrr ∧ csrLegal (csrField w) = false then .illegal .reservedCsr
    else .legal (r.op.build w)

/-- The encoding of an assembled command (R70): each field not named by the operands is 0. -/
def command (opc rd rs1 rs2 rs3 s csr : Nat) : Word :=
  BitVec.ofNat 32 ((opc <<< 26) ||| (rd <<< 23) ||| (rs1 <<< 20) ||| (rs2 <<< 17) ||| (rs3 <<< 14) ||| (s <<< 13) |||
    (csr <<< 10))

/-- The bit S of a sample size (R63). -/
def SampleSize.bit : SampleSize → Nat
  | .half => 0
  | .float => 1

/-- The one word of an instruction, from the opcodes of R66 and the operand order of R70. -/
def encode : Instr → Word
  | .cvtH2f rd rs1 => command 0x01 rd rs1 0 0 0 0
  | .cvtF2h rd rs1 => command 0x02 rd rs1 0 0 0 0
  | .cvtH2fBuf dst src count => command 0x03 0 dst src count 0 0
  | .cvtF2hBuf dst src count => command 0x04 0 dst src count 0 0
  | .bswap16 rd rs1 => command 0x08 rd rs1 0 0 0 0
  | .bswap16Buf addr count => command 0x09 0 addr count 0 0 0
  | .payloadIn dst count => command 0x0A 0 dst count 0 0 0
  | .hdrParse base len => command 0x10 0 base len 0 0 0
  | .alloc rd width height channels size => command 0x18 rd width height channels size.bit 0
  | .free base => command 0x19 0 base 0 0 0 0
  | .csrr rd csr => command 0x20 rd 0 0 0 0 csr

/-- The command word whose `nbits` bits are `w`, every bit above `nbits` zero (R60: a command is one 32-bit word;
log entry 18). -/
def tableWord (nbits w : Nat) : Word := BitVec.ofNat 32 (w % 2 ^ nbits)

/-- What the decoder reads from a word given as the opcode table numbers its bits. -/
def decodeTableWord (nbits w : Nat) : Option Instr :=
  match decode (tableWord nbits w) with
  | .legal i => some i
  | .illegal _ => none

end Sys2Proof
end

