-- ==== Sys2Proof/Config.lean ====
section
/-! DEFINITION. What is fixed for the machine but left open by the spec: the parameters of 00_scope R8, the constants of the platform, and the free values, each an opaque constant with no body, so that nothing can be proved of its value. -/
namespace Sys2Proof

/-- The bytes from `base` to `base + len - 1` (the glossary's "region"). -/
structure Region where
  base : Nat
  len  : Nat
  deriving DecidableEq, Repr, Inhabited

/-- The allocator's answer to a request: failure, or the base address it grants (R50). -/
inductive AllocAnswer where
  | fail
  | ok (base : Word)
  deriving DecidableEq, Repr, Inhabited

/-- The implementation parameters that a model takes as arguments (R8). MEM_BYTES is held as the address of the
last byte, MEM_BYTES - 1, so that 1 ≤ MEM_BYTES ≤ 2^32 holds by construction (log entry 1). -/
structure Params where
  memLast     : Word
  hostBeReset : Bool
  deriving DecidableEq, Repr, Inhabited

namespace Config

/-- ID holds the constant 0x50484D01 (R22). -/
def idWord : Word := 0x50484D01

/-- OPEN: the last existing address, MEM_BYTES - 1 (R8, D2; log entry 1). -/
opaque memLast : Word

/-- OPEN: HOST_BE_RESET (R8, D4; log entry 1). -/
opaque hostBeReset : Bool

/-- The parameters of this machine. -/
def params : Params := { memLast := memLast, hostBeReset := hostBeReset }

/-- Free value: the content of a byte of buffer memory that nothing has written since power-up (R38, U7). It is a
function of the address, since reading twice gives the same byte (R45). -/
opaque powerUpByte : Nat → Byte

/-- Free value: what a host read of a register other than ID and STATUS returns while BUSY = 1 (R16, R123, U2);
the argument is the state's `reads`. -/
opaque busyReadWord : Nat → Word

/-- Free value: what a host read of a raced byte returns (R56, U3); `reads` and the address. -/
opaque hostRaceByte : Nat → Nat → Byte

/-- Free value: what a command reads from a byte the host wrote while the command ran (R56, U4); `tick` and the
address. -/
opaque coreRaceByte : Nat → Nat → Byte

/-- Free value: what a raced byte holds after the command completes (R56, U5); `tick` and the address. -/
opaque raceLeftByte : Nat → Nat → Byte

/-- Free value: what a byte that a command cut short by reset would have written holds (R144, U8); `tick` and the
address. -/
opaque resetLeftByte : Nat → Nat → Byte

/-- Free value: HDR_PBASE where base + HDR_LEN is 2^32, which the 32-bit register cannot hold and no rule states
(log entry 10). It is a function of base and HDR_LEN, since parsing twice gives the same result (R107). -/
opaque pbaseWord : Nat → Nat → Word

/-- Free value: the allocator's answer to a request that no queued answer states (R50, U10); `tick` and the number
of bytes asked for. -/
opaque allocOracle : Nat → Nat → AllocAnswer

end Config
end Sys2Proof
end

