-- ==== Sys2Proof/Machine/State.lean ====
section
/-! DEFINITION. Everything the spec gives the machine to hold, as plain data: the CORE's registers (10_state), the buffer memory (20_memory), the allocator and the host as agents (00_scope R7), and the model's own bookkeeping of the behaviours the spec leaves open. -/
namespace Sys2Proof.Machine

/-- STATUS (R15): its fields; every bit not listed reads 0, so it has no storage. BUSY is stored beside PENDING as
R125 and R126 write the two, and that they agree (R34) is an invariant. -/
structure Status where
  busy     : Bool
  err      : Bool
  cmdovr   : Bool
  lastcode : BitVec 4
  deriving DecidableEq, Repr

/-- HDR_INFO (R26): bits 0 and 1; the others read 0. -/
structure HdrInfo where
  valid    : Bool
  storedBe : Bool
  deriving DecidableEq, Repr

/-- Buffer memory: the bytes written since power-up, by strictly rising address (log entries 2, 3). -/
abbrev Memory := List Host.Cell

/-- A host access to a byte of buffer memory made while a command is pending (R56). -/
structure Touch where
  addr  : Nat
  wrote : Bool
  deriving DecidableEq, Repr

/-- The width of a host MMIO access: only the 32-bit one has a meaning (R127). -/
inductive AccessWidth where
  | byte
  | halfword
  | word
  deriving DecidableEq, Repr

/-- A move of one of the agents of R7. `core` is the CORE's own step (R126); the others are what the outside world
does to the machine between two such steps. The order of moves is data: `State.schedule` (log entry 4). -/
inductive Event where
  /-- The CORE completes the pending command (R126). -/
  | core
  /-- The host reads the MMIO window at an offset (R123, R127). -/
  | mmioRead (off : BitVec 8) (width : AccessWidth)
  /-- The host writes the MMIO window at an offset (R124, R127). -/
  | mmioWrite (off : BitVec 8) (width : AccessWidth) (v : Word)
  /-- The host reads a byte of buffer memory (R55, R56). -/
  | memRead (addr : Word)
  /-- The host writes a byte of buffer memory (R47, R55, R56). -/
  | memWrite (addr : Word) (b : Byte)
  /-- The host reserves a region for its own data (R51). -/
  | reserve (r : Region)
  /-- The host gives up its reservation of a region (R51). -/
  | unreserve (r : Region)
  /-- The allocator's draw for a coming request is stated (R50, R71). -/
  | answer (a : AllocAnswer)
  /-- The host releases an allocation directly through the allocator (R53). -/
  | release (addr : Word)
  /-- Reset is asserted (R142); `took` is the draw of R144, whether an ALLOC or FREE that it cuts short took effect. -/
  | reset (took : Bool)
  deriving DecidableEq, Repr

/-- The reasons the machine stops with a fault. -/
inductive Fault where
  /-- A release of an address that is not the base of a live allocation (R52, R120, U1): by FREE, by the host's own
  release, or by a FREE that a reset cut short after its release. The spec has a model record a fault. Safe. -/
  | badRelease
  /-- An access to buffer memory at MEM_BYTES or beyond, which does not exist (R36): by a host access, or by
  PAYLOAD.IN in a state whose HDR_PBASE lies outside memory, which no run reaches. Safe. -/
  | noSuchAddress
  deriving DecidableEq, Repr

/-- The reasons the model refuses to go on. -/
inductive Refusal where
  /-- An instruction that has no meaning yet; `exec` names it. Safe. -/
  | notModelled (mnemonic : String)
  /-- A host MMIO access that is not an aligned 32-bit word: "A model refuses a program that makes one" (R127, U12).
  Safe. -/
  | mmioAccess
  /-- A stated allocator answer that breaks the contract of R51: "a model does not admit such an answer" (U11); by
  ALLOC, or by a reset that cuts one short. Safe. -/
  | allocContract
  deriving DecidableEq, Repr

/-- The machine and the agents around it. -/
structure State where
  /-- MEM_BYTES and HOST_BE_RESET, the parameters a model takes as arguments (R8); no step changes them. -/
  params      : Params
  /-- X0 .. X7 (R12). -/
  x           : Vector Word 8
  /-- STATUS (R15). -/
  status      : Status
  /-- CONFIG.HOST_BE (R20): true is big-endian. -/
  hostBe      : Bool
  /-- HDR_WIDTH (R23). -/
  hdrWidth    : Word
  /-- HDR_HEIGHT (R24). -/
  hdrHeight   : Word
  /-- HDR_CHANNELS (R25). -/
  hdrChannels : Word
  /-- HDR_INFO (R26). -/
  hdrInfo     : HdrInfo
  /-- HDR_LEN (R27). -/
  hdrLen      : Word
  /-- HDR_PBASE (R28). -/
  hdrPbase    : Word
  /-- HDR_PAVAIL (R29). -/
  hdrPavail   : Word
  /-- ALLOC_BASE (R30). -/
  allocBase   : Word
  /-- ALLOC_COUNT (R31). -/
  allocCount  : Word
  /-- ALLOC_BYTES (R32). -/
  allocBytes  : Word
  /-- PENDING: the command word accepted and not yet completed (R34). -/
  pending     : Option Word
  /-- Buffer memory (R36). -/
  mem         : Memory
  /-- The allocator's live allocations (R51). -/
  live        : List Region
  /-- The regions the host has reserved for itself (R51). -/
  hostRegions : List Region
  /-- The allocator's stated answers to the requests to come, the next one first (R50, R71; log entry 6). -/
  answers     : List AllocAnswer
  /-- The agents' moves to come, the next one first (log entry 4). -/
  schedule    : List Event
  /-- What the host's last read returned to it (R123; log entry 13). -/
  hostRx      : Word
  /-- The host's accesses to buffer memory since the pending command was accepted (R56; log entry 8). -/
  touched     : List Touch
  /-- The index of the free values of the pending command (log entry 13). -/
  tick        : Nat
  /-- The index of the free value that the host's next inexact read returns (log entry 13). -/
  reads       : Nat
  deriving DecidableEq, Repr

/-- The machine right after power-up and reset (R142, R143): every register at the value R142 states, memory with
nothing written, the parameters those of `Config`. The agents' fields start empty (log entries 4, 6, 7, 8, 13). -/
def State.reset : State where
  params      := Config.params
  x           := Vector.replicate 8 0
  status      := { busy := false, err := false, cmdovr := false, lastcode := 0 }
  hostBe      := Config.params.hostBeReset
  hdrWidth    := 0
  hdrHeight   := 0
  hdrChannels := 0
  hdrInfo     := { valid := false, storedBe := false }
  hdrLen      := 0
  hdrPbase    := 0
  hdrPavail   := 0
  allocBase   := 0
  allocCount  := 0
  allocBytes  := 0
  pending     := none
  mem         := []
  live        := []
  hostRegions := []
  answers     := []
  schedule    := []
  hostRx      := 0
  touched     := []
  tick        := 0
  reads       := 0

end Sys2Proof.Machine
end

