-- ==== Sys2Proof/Machine/Flags.lean ====
section
/-! DEFINITION. Every computation on STATUS the spec gives: the result codes (R128), what a completing command writes (R130), the sticky bits (R17, R18) and their clearing (R124), and the word a read of STATUS returns (R15). -/
namespace Sys2Proof.Machine

/-- The result codes of R128. OPEN_FAILURE and WRITE_FAILURE are set aside and never reported (R132). -/
inductive ResultCode where
  | ok | invalidArgument | openFailure | formatError | validationError | truncationError | writeFailure
  | allocFailure | illegalCommand
  deriving DecidableEq, Repr

/-- The number of a result code (R128). -/
def ResultCode.bits : ResultCode → BitVec 4
  | .ok => 0
  | .invalidArgument => 1
  | .openFailure => 2
  | .formatError => 3
  | .validationError => 4
  | .truncationError => 5
  | .writeFailure => 6
  | .allocFailure => 7
  | .illegalCommand => 8

/-- STATUS after a command completes with a code: LASTCODE <- code, ERR <- 1 if code ≠ OK and unchanged otherwise,
BUSY <- 0, no other flag (R130). -/
def Status.complete (st : Status) (code : ResultCode) : Status :=
  { st with busy := false, err := st.err || code != .ok, lastcode := code.bits }

/-- STATUS when a command is accepted: BUSY <- 1 (R125). -/
def Status.accept (st : Status) : Status := { st with busy := true }

/-- STATUS after a dropped host write: CMDOVR <- 1, LASTCODE and ERR unchanged (R18). -/
def Status.overrun (st : Status) : Status := { st with cmdovr := true }

/-- STATUS after the host writes v to it: ERR and CMDOVR are W1C, the other bits ignore the write (R15, R124). -/
def Status.hostWrite (st : Status) (v : Word) : Status :=
  { st with err := st.err && !v.getLsbD 1, cmdovr := st.cmdovr && !v.getLsbD 2 }

/-- The word a read of STATUS returns: LASTCODE in [11:8], CMDOVR in [2], ERR in [1], BUSY in [0], 0 elsewhere
(R15). -/
def Status.word (st : Status) : Word :=
  0#20 ++ st.lastcode ++ 0#5 ++ BitVec.ofBool st.cmdovr ++ BitVec.ofBool st.err ++ BitVec.ofBool st.busy

/-- The word a read of HDR_INFO returns: STORED_BE in [1], VALID in [0], 0 elsewhere (R26). -/
def HdrInfo.word (h : HdrInfo) : Word := 0#30 ++ BitVec.ofBool h.storedBe ++ BitVec.ofBool h.valid

/-- The word a read of CONFIG returns: HOST_BE in [0], 0 elsewhere (R20). -/
def configWord (hostBe : Bool) : Word := 0#31 ++ BitVec.ofBool hostBe

end Sys2Proof.Machine
end

