-- ==== Sys2Proof/Machine/Operands.lean ====
section
/-! DEFINITION. The operand forms of 30_encoding R65: a source register as 32 bits, as a half, as a signed integer, as an address or a count; the destination register; the sample size. -/
namespace Sys2Proof.Machine

/-- x[i], the full 32 bits (R65). -/
def State.getX (s : State) (i : XReg) : Word := s.x[i]

/-- `x[i] <- v` (R9): no register is hardwired (R12). -/
def State.setX (s : State) (i : XReg) (v : Word) : State := { s with x := s.x.set i v }

/-- x[i][15:0], the half operand of CVT.H2F and BSWAP16; bits [31:16] are ignored (D20). -/
def State.halfX (s : State) (i : XReg) : Half := (s.getX i).extractLsb' 0 16

/-- x[i] as an unsigned integer: an address or a count (R65). -/
def State.natX (s : State) (i : XReg) : Nat := (s.getX i).toNat

/-- `sint32(x[i])` (R9): the operands of ALLOC's geometry (R117, D32). -/
def State.intX (s : State) (i : XReg) : Int := (s.getX i).toInt

/-- The sample size in bytes, 2 + 2·S (R65, R118). -/
def sampleBytes : SampleSize → Nat
  | .half => 2
  | .float => 4

end Sys2Proof.Machine
end

