-- ==== Sys2Proof/Machine/Ops.lean ====
section
/-! DEFINITION. The named operations every meaning is written over: buffer memory byte by byte and in host order (R36, R43), the region check (R44), the ascending element loop (D18), the settling of races (R56), the completion of a command and the raising of an error (R126, R129), and the read of a CSR (R14). -/
namespace Sys2Proof

/-! ## Regions -/

/-- The address lies in the region: base ≤ a < base + len. -/
def Region.contains (r : Region) (a : Nat) : Bool := decide (r.base ≤ a) && decide (a < r.base + r.len)

/-- Two regions have no byte in common (R51). -/
def Region.disjoint (r q : Region) : Bool :=
  decide (r.len = 0) || decide (q.len = 0) || decide (r.base + r.len ≤ q.base) || decide (q.base + q.len ≤ r.base)

end Sys2Proof

namespace Sys2Proof.Machine

/-- Some region of the list holds the address. -/
def inRegions (rs : List Region) (a : Nat) : Bool := rs.any (·.contains a)

/-- The buffer memory a command reads and writes. -/
structure Footprint where
  reads  : List Region
  writes : List Region
  deriving DecidableEq, Repr

/-- Every region of a footprint. -/
def Footprint.all (f : Footprint) : List Region := f.reads ++ f.writes

/-- The footprint of a command that accesses no memory (R39). -/
def Footprint.empty : Footprint := { reads := [], writes := [] }

/-! ## Buffer memory as data -/

/-- The byte written at an address since power-up, if any. -/
def Memory.find? : Memory → Nat → Option Byte
  | [], _ => none
  | (a', b) :: m, a => if a' = a then some b else Memory.find? m a

/-- Write a byte, keeping the addresses strictly rising (log entry 3). -/
def Memory.put : Memory → Nat → Byte → Memory
  | [], a, b => [(a, b)]
  | (a', b') :: m, a, b =>
    if a < a' then (a, b) :: (a', b') :: m
    else if a = a' then (a, b) :: m
    else (a', b') :: Memory.put m a b

/-- The canonical form: strictly rising addresses (log entry 3). -/
def Memory.wf : Memory → Bool
  | [] => true
  | (a, _) :: m => m.all (fun c => decide (a < c.1)) && Memory.wf m

/-- MEM_BYTES (R8): addresses 0 to MEM_BYTES - 1 exist. -/
def State.memBytes (s : State) : Nat := s.params.memLast.toNat + 1

/-- `Mem[a]` (R9): the byte written last, or the free power-up value (R38; log entry 2). -/
def State.byteAt (s : State) (a : Nat) : Byte := (Memory.find? s.mem a).getD (Config.powerUpByte a)

/-- `Mem[a] <- b`. -/
def State.writeByte (s : State) (a : Nat) (b : Byte) : State := { s with mem := Memory.put s.mem a b }

/-- The host wrote the byte while the pending command ran (R56). -/
def State.hostWrote (s : State) (a : Nat) : Bool := s.touched.any (fun t => t.wrote && decide (t.addr = a))

/-- A command's read of `Mem[a]`: any value where the host wrote the byte while the command ran (R56, U4). -/
def State.coreByte (s : State) (a : Nat) : Byte :=
  if s.hostWrote a then Config.coreRaceByte s.tick a else s.byteAt a

/-! ## Accesses in host order -/

/-- Which byte of an n-byte value stands at the k-th address: k on a little-endian host, n-1-k on a big-endian one
(R43). -/
def lane (be : Bool) (n k : Nat) : Nat := if be then n - 1 - k else k

/-- `MemRead(a, n)` (R43). -/
def State.memRead (s : State) (a n : Nat) : Nat :=
  ((List.range n).map (fun k => (s.coreByte (a + k)).toNat <<< (8 * lane s.hostBe n k))).sum

/-- `MemWrite(a, n, v)` (R43), bytes in ascending address order. -/
def State.memWrite (s : State) (a n v : Nat) : State :=
  (List.range n).foldl (fun t k => t.writeByte (a + k) (BitVec.ofNat 8 (v >>> (8 * lane s.hostBe n k)))) s

/-- `RegionOK(a, n)` (R44): exact integers, no wrap. -/
def State.regionOk (s : State) (a n : Nat) : Bool := a != 0 && decide (a + n ≤ s.memBytes)

/-- `for i in 0 .. n-1 (ascending)`: element i is done before element i+1 (D18). -/
def ascending (body : Nat → State → State) : Nat → State → State
  | 0, s => s
  | n + 1, s => body n (ascending body n s)

/-! ## Races -/

/-- After a command that accessed the regions completes, every byte of them that the host touched meanwhile holds
any value (R56, U5). -/
def State.settle (s : State) (rs : List Region) : State :=
  s.touched.foldl
    (fun t u => if inRegions rs u.addr then t.writeByte u.addr (Config.raceLeftByte s.tick u.addr) else t) s

/-- Every byte of the region holds any value (R144, U8). -/
def State.scramble (s : State) (r : Region) : State :=
  ascending (fun k t => t.writeByte (r.base + k) (Config.resetLeftByte s.tick (r.base + k))) r.len s

/-! ## Completion -/

/-- The end of a command (R126): STATUS as R130 says, PENDING <- none; with the command its race record ends and
the next free values are fresh. -/
def State.finish (s : State) (code : ResultCode) : State :=
  { s with status := s.status.complete code, pending := none, touched := [], tick := s.tick + 1 }

/-- `raise E` (R129): the command ends at once with code E and no other effect. This is the CORE's whole form of
taking an exception: it has no trap, saves no state and transfers no control (R134), and so has no return from one
(R135). -/
def raise (code : ResultCode) (s : State) : Host.Outcome State Fault Refusal := .next (s.finish code)

/-- The command ends with OK. -/
def done (s : State) : Host.Outcome State Fault Refusal := .next (s.finish .ok)

/-! ## Control and status registers -/

/-- The value of CSR n (R14); CMD reads 0 (R21), as do the reserved numbers 14 and 15. -/
def State.csr (s : State) : Nat → Word
  | 0 => Config.idWord
  | 1 => s.status.word
  | 2 => configWord s.hostBe
  | 3 => 0
  | 4 => s.hdrWidth
  | 5 => s.hdrHeight
  | 6 => s.hdrChannels
  | 7 => s.hdrInfo.word
  | 8 => s.hdrLen
  | 9 => s.hdrPbase
  | 10 => s.hdrPavail
  | 11 => s.allocBase
  | 12 => s.allocCount
  | 13 => s.allocBytes
  | _ => 0

end Sys2Proof.Machine
end

