-- ==== Sys2Proof/Machine/EndianSwap.lean ====
section
/-! DEFINITION. endianness_swap_16bit (43_endian_swap): the byte swap, BSWAP16, BSWAP16.BUF and PAYLOAD.IN. -/
namespace Sys2Proof.Machine

/-- `swap16(v) := v[7:0] ++ v[15:8]` (R111). -/
def swap16 (v : Half) : Half := v.extractLsb' 0 8 ++ v.extractLsb' 8 8

/-- BSWAP16 (R112): the result's bits [31:16] are 0. -/
def execBswap16 (rd rs1 : XReg) (s : State) : Host.Outcome State Fault Refusal :=
  done (s.setX rd ((swap16 (s.halfX rs1)).zeroExtend 32))

/-- Copy the byte pair at src to dst, exchanged when `swap`: both bytes are read before either is written
(R113, R114). -/
def copyPair (swap : Bool) (dst src : Nat) (s : State) : State :=
  let b0 := s.coreByte src
  let b1 := s.coreByte (src + 1)
  if swap then (s.writeByte dst b1).writeByte (dst + 1) b0
  else (s.writeByte dst b0).writeByte (dst + 1) b1

/-- The bytes BSWAP16.BUF reads and writes (R113). -/
def bswapBufFootprint (addr count : XReg) (s : State) : Footprint :=
  { reads := [⟨s.natX addr, 2 * s.natX count⟩], writes := [⟨s.natX addr, 2 * s.natX count⟩] }

/-- BSWAP16.BUF's region check (R113). -/
def bswapBufOk (addr count : XReg) (s : State) : Bool := s.regionOk (s.natX addr) (2 * s.natX count)

/-- Element i of BSWAP16.BUF (R113): the pair at a + 2i, exchanged in place, whatever the host order. -/
def bswapSample (a i : Nat) (s : State) : State := copyPair true (a + 2 * i) (a + 2 * i) s

/-- BSWAP16.BUF (R113). -/
def execBswap16Buf (addr count : XReg) (s : State) : Host.Outcome State Fault Refusal :=
  if bswapBufOk addr count s then
    done ((ascending (bswapSample (s.natX addr)) (s.natX count) s).settle (bswapBufFootprint addr count s).all)
  else raise .invalidArgument s

/-- `swap_needed` (R110): the stored order differs from the host order. -/
def State.swapNeeded (s : State) : Bool := s.hdrInfo.storedBe != s.hostBe

/-- The payload region PAYLOAD.IN reads (R114). -/
def State.payloadRegion (s : State) (n : Nat) : Region := ⟨s.hdrPbase.toNat, 2 * n⟩

/-- The bytes PAYLOAD.IN reads and writes (R114). -/
def payloadInFootprint (dst count : XReg) (s : State) : Footprint :=
  { reads := [s.payloadRegion (s.natX count)], writes := [⟨s.natX dst, 2 * s.natX count⟩] }

/-- PAYLOAD.IN's checks in the order of R114 and R131: the code it raises, if any. -/
def payloadInCheck (dst count : XReg) (s : State) : Option ResultCode :=
  if s.hdrInfo.valid = false then some .invalidArgument
  else if s.regionOk (s.natX dst) (2 * s.natX count) = false then some .invalidArgument
  else if s.hdrPavail.toNat < 2 * s.natX count then some .truncationError
  else none

/-- The payload of n samples lies in existing memory. HDR.PARSE has checked it (R114), so only a state that no run
reaches fails this (log entry 11). -/
def State.payloadExists (s : State) (n : Nat) : Bool :=
  decide (n = 0) || decide (s.hdrPbase.toNat + 2 * n ≤ s.memBytes)

/-- Element i of PAYLOAD.IN (R114). -/
def payloadSample (swap : Bool) (dst src i : Nat) (s : State) : State := copyPair swap (dst + 2 * i) (src + 2 * i) s

/-- PAYLOAD.IN (R114). -/
def execPayloadIn (dst count : XReg) (s : State) : Host.Outcome State Fault Refusal :=
  match payloadInCheck dst count s with
  | some code => raise code s
  | none =>
    if s.payloadExists (s.natX count) then
      done ((ascending (payloadSample s.swapNeeded (s.natX dst) s.hdrPbase.toNat) (s.natX count) s).settle
        (payloadInFootprint dst count s).all)
    else .fault .noSuchAddress

end Sys2Proof.Machine
end

