-- ==== Sys2Proof/Machine/Fp16ToFp32.lean ====
section
/-! DEFINITION. The fp16_to_fp32_converter (40_fp16_to_fp32): the function h2f, CVT.H2F and CVT.H2F.BUF. -/
namespace Sys2Proof.Machine

/-- `h2f` (R76): the float32 word of a half word, every case of R77 to R80 in the rule's order; total (R81). -/
def h2f (h : Half) : Word :=
  let e := (h.extractLsb' 10 5).toNat
  let m := (h.extractLsb' 0 10).toNat
  let r :=
    if e = 0 ∧ m = 0 then 0
    else if e = 0 then ((m.log2 + 103) <<< 23) ||| ((m <<< (23 - m.log2)) &&& 0x7FFFFF)
    else if e = 31 then (0xFF <<< 23) ||| (m <<< 13)
    else ((e + 112) <<< 23) ||| (m <<< 13)
  BitVec.ofNat 32 ((h.msb.toNat <<< 31) ||| r)

/-- CVT.H2F (R84). -/
def execCvtH2f (rd rs1 : XReg) (s : State) : Host.Outcome State Fault Refusal :=
  done (s.setX rd (h2f (s.halfX rs1)))

/-- Element i of CVT.H2F.BUF (R85): read the half at src + 2i, write the float32 at dst + 4i. -/
def h2fSample (dst src i : Nat) (s : State) : State :=
  s.memWrite (dst + 4 * i) 4 (h2f (BitVec.ofNat 16 (s.memRead (src + 2 * i) 2))).toNat

/-- The bytes CVT.H2F.BUF reads and writes (R85). -/
def h2fBufFootprint (dst src count : XReg) (s : State) : Footprint :=
  { reads := [⟨s.natX src, 2 * s.natX count⟩], writes := [⟨s.natX dst, 4 * s.natX count⟩] }

/-- CVT.H2F.BUF's two region checks (R85). -/
def h2fBufOk (dst src count : XReg) (s : State) : Bool :=
  s.regionOk (s.natX src) (2 * s.natX count) && s.regionOk (s.natX dst) (4 * s.natX count)

/-- CVT.H2F.BUF (R85). -/
def execCvtH2fBuf (dst src count : XReg) (s : State) : Host.Outcome State Fault Refusal :=
  if h2fBufOk dst src count s then
    done ((ascending (h2fSample (s.natX dst) (s.natX src)) (s.natX count) s).settle
      (h2fBufFootprint dst src count s).all)
  else raise .invalidArgument s

end Sys2Proof.Machine
end

