-- ==== Sys2Proof/Machine/Fp32ToFp16.lean ====
section
/-! DEFINITION. The fp32_to_fp16_converter (41_fp32_to_fp16): the function f2h, CVT.F2H and CVT.F2H.BUF. -/
namespace Sys2Proof.Machine

/-- The packed exponent and mantissa of a half that underflows to the denormal range (R91), from newexp ≤ 0 and the
float32 mantissa field. -/
def f2hDenormal (newexp : Int) (m : Nat) : Nat :=
  if 14 - newexp ≤ 24 then
    let mant := m ||| 0x800000
    let o := mant >>> (14 - newexp).toNat
    if (mant >>> (13 - newexp).toNat) &&& 1 = 1 then o + 1 else o
  else 0

/-- The packed exponent and mantissa of a half in the normal range (R92), from newexp in 1..30. -/
def f2hNormal (newexp : Int) (m : Nat) : Nat :=
  let o := (newexp.toNat <<< 10) ||| (m >>> 13)
  if m.testBit 12 then o + 1 else o

/-- `f2h` (R86): the half word of a float32 word, every case of R87 to R92 in the rule's order; total (R94). -/
def f2h (f : Word) : Half :=
  let e := (f.extractLsb' 23 8).toNat
  let m := (f.extractLsb' 0 23).toNat
  let newexp : Int := (e : Int) - 127 + 15
  let o :=
    if e = 0 then 0
    else if e = 255 then (31 <<< 10) ||| (if m ≠ 0 then 0x200 else 0)
    else if 31 ≤ newexp then 31 <<< 10
    else if newexp ≤ 0 then f2hDenormal newexp m
    else f2hNormal newexp m
  BitVec.ofNat 16 ((f.msb.toNat <<< 15) ||| o)

/-- CVT.F2H (R96): the result's bits [31:16] are 0. -/
def execCvtF2h (rd rs1 : XReg) (s : State) : Host.Outcome State Fault Refusal :=
  done (s.setX rd ((f2h (s.getX rs1)).zeroExtend 32))

/-- Element i of CVT.F2H.BUF (R97): read the float32 at src + 4i, write the half at dst + 2i. -/
def f2hSample (dst src i : Nat) (s : State) : State :=
  s.memWrite (dst + 2 * i) 2 (f2h (BitVec.ofNat 32 (s.memRead (src + 4 * i) 4))).toNat

/-- The bytes CVT.F2H.BUF reads and writes (R97). -/
def f2hBufFootprint (dst src count : XReg) (s : State) : Footprint :=
  { reads := [⟨s.natX src, 4 * s.natX count⟩], writes := [⟨s.natX dst, 2 * s.natX count⟩] }

/-- CVT.F2H.BUF's two region checks (R97). -/
def f2hBufOk (dst src count : XReg) (s : State) : Bool :=
  s.regionOk (s.natX src) (4 * s.natX count) && s.regionOk (s.natX dst) (2 * s.natX count)

/-- CVT.F2H.BUF (R97). -/
def execCvtF2hBuf (dst src count : XReg) (s : State) : Host.Outcome State Fault Refusal :=
  if f2hBufOk dst src count s then
    done ((ascending (f2hSample (s.natX dst) (s.natX src)) (s.natX count) s).settle
      (f2hBufFootprint dst src count s).all)
  else raise .invalidArgument s

end Sys2Proof.Machine
end

