-- ==== Sys2Proof/Machine/HeaderParser.lean ====
section
/-! DEFINITION. The header_parser (42_header_parser): the grammar of the three lines and HDR.PARSE.

The parser works on the list of the file image's bytes from the current one on: its head is the byte the rule's
pseudocode holds in `b` (the last byte `next()` returned), the empty list is END. A failing piece answers the list it
stood at, so that the number of bytes read is known; a succeeding one its value and the list from the next byte on. -/
namespace Sys2Proof.Machine

/-! ## Characters (R11) -/

/-- LF, the only newline (D10). -/
def chLF : Byte := 0x0A
/-- 'P' -/
def chP : Byte := 0x50
/-- 'H' -/
def chUpperH : Byte := 0x48
/-- 'h' -/
def chLowerH : Byte := 0x68
/-- '+' -/
def chPlus : Byte := 0x2B
/-- '-' -/
def chMinus : Byte := 0x2D
/-- '.' -/
def chPoint : Byte := 0x2E

/-- '0' .. '9' are 0x30 .. 0x39. -/
def isDigit (b : Byte) : Bool := decide (0x30 ≤ b.toNat) && decide (b.toNat ≤ 0x39)

/-- A separator is SP or HT (R101). -/
def isSeparator (b : Byte) : Bool := b == 0x20 || b == 0x09

/-- A sign is '+' or '-' (R103). -/
def isSign (b : Byte) : Bool := b == chPlus || b == chMinus

/-- 'e' or 'E' (R103). -/
def isExponent (b : Byte) : Bool := b == 0x65 || b == 0x45

/-! ## Pieces of the grammar -/

/-- Take one byte that must satisfy the test; any other byte and END fail. -/
def expect (ok : Byte → Bool) : List Byte → Except (List Byte) (Byte × List Byte)
  | [] => .error []
  | b :: l => if ok b then .ok (b, l) else .error (b :: l)

/-- Line 1, the magic token (R100): 'P', then 'h' for one channel or 'H' for three, then LF. -/
def magic (l : List Byte) : Except (List Byte) (Nat × List Byte) := do
  let (_, l) ← expect (· == chP) l
  let (t, l) ← expect (fun b => b == chLowerH || b == chUpperH) l
  let (_, l) ← expect (· == chLF) l
  return (if t == chLowerH then 1 else 3, l)

/-- The largest width or height, 2^31 - 1 (R102). -/
def maxDimension : Nat := 2 ^ 31 - 1

/-- The loop of `uint` (R107) from the running value v: it fails at the digit that takes the value past 2^31 - 1. -/
def uintFrom (v : Nat) : List Byte → Except (List Byte) (Nat × List Byte)
  | [] => .ok (v, [])
  | b :: l =>
    if isDigit b then
      if maxDimension < 10 * v + (b.toNat - 0x30) then .error (b :: l)
      else uintFrom (10 * v + (b.toNat - 0x30)) l
    else .ok (v, b :: l)

/-- `uint` (R107): one or more digits, whose value is not 0 (R101, R102). -/
def uint (l : List Byte) : Except (List Byte) (Nat × List Byte) := do
  let _ ← expect isDigit l
  let (v, l) ← uintFrom 0 l
  if v = 0 then .error l else .ok (v, l)

/-- Line 2, the resolution (R101): WIDTH, one or more separators, HEIGHT, LF. -/
def resolution (l : List Byte) : Except (List Byte) ((Nat × Nat) × List Byte) := do
  let (w, l) ← uint l
  let (_, l) ← expect isSeparator l
  let (h, l) ← uint (l.dropWhile isSeparator)
  let (_, l) ← expect (· == chLF) l
  return ((w, h), l)

/-- An optional byte that satisfies the test. -/
def optional (ok : Byte → Bool) : List Byte → Option Byte × List Byte
  | [] => (none, [])
  | b :: l => if ok b then (some b, l) else (none, b :: l)

/-- The significand of the marker (R103): the digits before and after the point, at least one in all. -/
def significand (l : List Byte) : Except (List Byte) ((List Byte) × List Byte) :=
  let whole := l.takeWhile isDigit
  let l := l.dropWhile isDigit
  let (point, l) := optional (· == chPoint) l
  let fraction := if point.isSome then l.takeWhile isDigit else []
  let l := if point.isSome then l.dropWhile isDigit else l
  if whole ++ fraction = [] then .error l else .ok (whole ++ fraction, l)

/-- The optional exponent of the marker (R103): 'e' or 'E', an optional sign, one or more digits. -/
def exponent (l : List Byte) : Except (List Byte) (Unit × List Byte) :=
  match optional isExponent l with
  | (none, l) => .ok ((), l)
  | (some _, l) => do
    let (_, l) ← expect isDigit (optional isSign l).2
    return ((), l.dropWhile isDigit)

/-- Line 3, the byte-order marker (R103): answers whether it is negative, that is, its sign is '-' and at least one
significand digit is not '0' (R104). -/
def marker (l : List Byte) : Except (List Byte) (Bool × List Byte) := do
  let (sign, l) := optional isSign l
  let (digits, l) ← significand l
  let (_, l) ← exponent l
  let (_, l) ← expect (· == chLF) l
  return (sign == some chMinus && digits.any (· != 0x30), l)

/-- The fields of a parsed header (R100 to R104). -/
structure Header where
  channels : Nat
  width    : Nat
  height   : Nat
  storedBe : Bool
  deriving DecidableEq, Repr

/-- The three lines (R107): the header and the bytes after it, or the list at which the grammar broke. A negative
marker means the stored order is little-endian (R104). -/
def header (l : List Byte) : Except (List Byte) (Header × List Byte) := do
  let (c, l) ← magic l
  let ((w, h), l) ← resolution l
  let (negative, l) ← marker l
  return ({ channels := c, width := w, height := h, storedBe := !negative }, l)

/-- How many bytes of an image of `len` bytes the parser has read when it fails with the list l (R99): all those
before l and, unless l is END, its head. -/
def readAtFailure (len : Nat) (l : List Byte) : Nat := len - l.tail.length

/-! ## The instruction -/

/-- The bytes a command reads from [a, a + n), in ascending order (R98). -/
def State.image (s : State) (a : Nat) : Nat → List Byte
  | 0 => []
  | n + 1 => s.coreByte a :: s.image (a + 1) n

/-- HDR_INFO.VALID <- 0 (R108). -/
def State.invalidate (s : State) : State := { s with hdrInfo := { s.hdrInfo with valid := false } }

/-- HDR_PBASE after a header of k bytes at base (R28, R107): base + k, or the free value of base and k where that is
2^32 and does not fit the register (log entry 10). -/
def pbaseOf (base k : Nat) : Word :=
  if base + k < 2 ^ 32 then BitVec.ofNat 32 (base + k) else Config.pbaseWord base k

/-- The HDR_* registers of a successful parse of `len` bytes at `base` whose header is k bytes long (R107, R108). -/
def State.setHeader (s : State) (h : Header) (base len k : Nat) : State :=
  { s with
    hdrWidth := BitVec.ofNat 32 h.width
    hdrHeight := BitVec.ofNat 32 h.height
    hdrChannels := BitVec.ofNat 32 h.channels
    hdrInfo := { valid := true, storedBe := h.storedBe }
    hdrLen := BitVec.ofNat 32 k
    hdrPbase := pbaseOf base k
    hdrPavail := BitVec.ofNat 32 (len - k) }

/-- HDR.PARSE's region check (R107). -/
def hdrParseOk (base len : XReg) (s : State) : Bool := s.regionOk (s.natX base) (s.natX len)

/-- How many bytes of an image the parser reads: the header and no byte of the payload, or, where it fails, those up to
the one that breaks the grammar (R98, R99). -/
def bytesRead (l : List Byte) : Nat :=
  match header l with
  | .error r => readAtFailure l.length r
  | .ok (_, payload) => l.length - payload.length

/-- The bytes HDR.PARSE reads in this state: from `base` on, as many as the parser reads of the image (R98). -/
def hdrParseFootprint (base len : XReg) (s : State) : Footprint :=
  { reads := [⟨s.natX base, bytesRead (s.image (s.natX base) (s.natX len))⟩], writes := [] }

/-- HDR.PARSE (R107): a failing one clears VALID before it raises (R108). -/
def execHdrParse (base len : XReg) (s : State) : Host.Outcome State Fault Refusal :=
  if hdrParseOk base len s then
    match header (s.image (s.natX base) (s.natX len)) with
    | .error _ => raise .formatError (s.invalidate.settle (hdrParseFootprint base len s).all)
    | .ok (h, payload) =>
      done ((s.setHeader h (s.natX base) (s.natX len) (s.natX len - payload.length)).settle
        (hdrParseFootprint base len s).all)
  else raise .invalidArgument s.invalidate

end Sys2Proof.Machine
end

