-- ==== Sys2Proof/Machine/Allocator.lean ====
section
/-! DEFINITION. The allocator agent behind its port (20_memory R50 to R52): the contract of an answer, AllocRequest and AllocRelease. -/
namespace Sys2Proof.Machine

/-- The contract of an answer Ok(b) to a request for n bytes (R51): b ≠ 0, b mod 4 = 0, b + n ≤ MEM_BYTES, and
[b, b+n) is disjoint from every live allocation and every region the host has reserved. -/
def State.contractOk (s : State) (b : Word) (n : Nat) : Bool :=
  b.toNat != 0 && b.toNat % 4 == 0 && decide (b.toNat + n ≤ s.memBytes) &&
    (s.live ++ s.hostRegions).all (fun r => Region.disjoint ⟨b.toNat, n⟩ r)

/-- The draw for a request for n bytes (R50): the next stated answer, else the free answer of an allocator that keeps
its contract, for which Fail is always open (log entry 6). -/
def State.drawnAnswer (s : State) (n : Nat) : AllocAnswer :=
  match s.answers with
  | a :: _ => a
  | [] =>
    match Config.allocOracle s.tick n with
    | .fail => .fail
    | .ok b => if s.contractOk b n then .ok b else .fail

/-- The outcome of a request: the state goes with it, since the draw is used up and a granted region is live. -/
inductive AllocResult where
  | failed (s : State)
  | granted (b : Word) (s : State)
  /-- The stated answer breaks the contract (U11). -/
  | inadmissible
  deriving DecidableEq, Repr

/-- `AllocRequest(n)` (R50): after Ok(b), [b, b+n) is live (R51). -/
def State.allocRequest (s : State) (n : Nat) : AllocResult :=
  match s.drawnAnswer n with
  | .fail => .failed { s with answers := s.answers.tail }
  | .ok b =>
    if s.contractOk b n then
      .granted b { s with answers := s.answers.tail, live := ⟨b.toNat, n⟩ :: s.live }
    else .inadmissible

/-- The address is the base of a live allocation (R52). -/
def State.isLive (s : State) (a : Nat) : Bool := s.live.any (fun r => decide (r.base = a))

/-- `AllocRelease(a)` (R52): the allocation whose base is a is no longer live; none where a is no live base, for
which the allocator's behaviour is not defined. -/
def State.allocRelease (s : State) (a : Nat) : Option State :=
  if s.isLive a then some { s with live := s.live.filter (fun r => decide (r.base ≠ a)) } else none

end Sys2Proof.Machine
end

