-- ==== Sys2Proof/Machine/PixelBufferAllocator.lean ====
section
/-! DEFINITION. The pixel_buffer_allocator (44_pixel_buffer_allocator): geometry and size, ALLOC and FREE. -/
namespace Sys2Proof.Machine

/-- The geometry is valid exactly when w > 0, h > 0 and c ∈ {1, 3} (R117). -/
def geometryOk (w h c : Int) : Bool := decide (0 < w) && decide (0 < h) && (decide (c = 1) || decide (c = 3))

/-- ALLOC's checks before the request, in the order of R119: the code it raises, or the exact count and bytes
(R118). -/
def allocSize (width height channels : XReg) (size : SampleSize) (s : State) : Except ResultCode (Nat × Nat) :=
  let w := s.intX width
  let h := s.intX height
  let c := s.intX channels
  if geometryOk w h c = false then .error .validationError
  else
    let count := (w * h * c).toNat
    let bytes := count * sampleBytes size
    if 2 ^ 32 - 1 < bytes then .error .allocFailure else .ok (count, bytes)

/-- ALLOC_BASE <- b; ALLOC_COUNT <- count; ALLOC_BYTES <- bytes (R119), both of which fit in 32 bits (R118). -/
def State.setAlloc (s : State) (b : Word) (count bytes : Nat) : State :=
  { s with allocBase := b, allocCount := BitVec.ofNat 32 count, allocBytes := BitVec.ofNat 32 bytes }

/-- ALLOC (R119). An answer that breaks the allocator's contract is refused by name (U11). -/
def execAlloc (rd width height channels : XReg) (size : SampleSize) (s : State) : Host.Outcome State Fault Refusal :=
  match allocSize width height channels size s with
  | .error code => raise code s
  | .ok (count, bytes) =>
    match s.allocRequest bytes with
    | .failed t => raise .allocFailure t
    | .granted b t => done ((t.setX rd b).setAlloc b count bytes)
    | .inadmissible => .refused .allocContract

/-- FREE (R120). For an address that is not a live base the allocator's behaviour is not defined and the model
records a fault (R52, U1). -/
def execFree (base : XReg) (s : State) : Host.Outcome State Fault Refusal :=
  if s.natX base = 0 then raise .invalidArgument s
  else
    match s.allocRelease (s.natX base) with
    | some t => done t
    | none => .fault .badRelease

end Sys2Proof.Machine
end

