-- ==== Sys2Proof/Machine/RegisterAccess.lean ====
section
/-! DEFINITION. The register-access command CSRR (45_register_access R122). -/
namespace Sys2Proof.Machine

/-- CSRR (R122): the value a host read at offset 4·csr returns while idle, but STATUS reads BUSY as it is while the
CSRR runs. Number 14 or 15 is ILLEGAL_COMMAND (R68); the decoder gives no such instruction (log entry 16). -/
def execCsrr (rd : XReg) (csr : Fin 16) (s : State) : Host.Outcome State Fault Refusal :=
  if csrLegal csr then done (s.setX rd (s.csr csr.val)) else raise .illegalCommand s

end Sys2Proof.Machine
end

