-- ==== Sys2Proof/Machine/Dispatch.lean ====
section
/-! DEFINITION. One arm per command: `exec` runs a decoded command to its completion (45_register_access R126). -/
namespace Sys2Proof.Machine

def exec (i : Instr) (s : State) : Host.Outcome State Fault Refusal :=
  match i with
  | .cvtH2f rd rs1 => Sys2Proof.Machine.execCvtH2f rd rs1 s
  | .cvtF2h rd rs1 => Sys2Proof.Machine.execCvtF2h rd rs1 s
  | .cvtH2fBuf dst src count => Sys2Proof.Machine.execCvtH2fBuf dst src count s
  | .cvtF2hBuf dst src count => Sys2Proof.Machine.execCvtF2hBuf dst src count s
  | .bswap16 rd rs1 => Sys2Proof.Machine.execBswap16 rd rs1 s
  | .bswap16Buf addr count => Sys2Proof.Machine.execBswap16Buf addr count s
  | .payloadIn dst count => Sys2Proof.Machine.execPayloadIn dst count s
  | .hdrParse base len => Sys2Proof.Machine.execHdrParse base len s
  | .alloc rd width height channels size => Sys2Proof.Machine.execAlloc rd width height channels size s
  | .free base => Sys2Proof.Machine.execFree base s
  | .csrr rd csr => Sys2Proof.Machine.execCsrr rd csr s

end Sys2Proof.Machine
end

