-- ==== Sys2Proof/Machine/CoreStep.lean ====
section
/-! DEFINITION. The CORE agent's only step (45_register_access R126), and the footprint of the pending command, by which the host's accesses are told to be races (20_memory R56). -/
namespace Sys2Proof.Machine

/-- CoreStep (R126): decode and every check happen at completion; an illegal word completes with ILLEGAL_COMMAND and
no other effect (R68). With nothing pending it is not enabled, and nothing changes (log entry 5). -/
def coreStep (s : State) : Host.Outcome State Fault Refusal :=
  match s.pending with
  | none => .next s
  | some w =>
    match decode w with
    | .illegal _ => raise .illegalCommand s
    | .legal i => exec i s

/-- The buffer memory an instruction accesses when it runs in this state (R39): nothing where its checks fail (R129), the
bytes that the parser reads for HDR.PARSE (R98). -/
def footprint (i : Instr) (s : State) : Footprint :=
  match i with
  | .cvtH2f _ _ => .empty
  | .cvtF2h _ _ => .empty
  | .cvtH2fBuf dst src count => if h2fBufOk dst src count s then h2fBufFootprint dst src count s else .empty
  | .cvtF2hBuf dst src count => if f2hBufOk dst src count s then f2hBufFootprint dst src count s else .empty
  | .bswap16 _ _ => .empty
  | .bswap16Buf addr count => if bswapBufOk addr count s then bswapBufFootprint addr count s else .empty
  | .payloadIn dst count => if payloadInCheck dst count s = none then payloadInFootprint dst count s else .empty
  | .hdrParse base len => if hdrParseOk base len s then hdrParseFootprint base len s else .empty
  | .alloc _ _ _ _ _ => .empty
  | .free _ => .empty
  | .csrr _ _ => .empty

/-- The instruction of the pending command word, if there is one and it is legal. -/
def State.pendingInstr (s : State) : Option Instr :=
  match s.pending with
  | none => none
  | some w =>
    match decode w with
    | .illegal _ => none
    | .legal i => some i

/-- The host's writes that a schedule puts before the CORE's move or the reset that ends the pending command (R126,
R144). -/
def writesAhead : List Event → List Touch
  | [] => []
  | .core :: _ => []
  | .reset _ :: _ => []
  | .memWrite addr _ :: rest => ⟨addr.toNat, true⟩ :: writesAhead rest
  | .mmioRead _ _ :: rest => writesAhead rest
  | .mmioWrite _ _ _ :: rest => writesAhead rest
  | .memRead _ :: rest => writesAhead rest
  | .reserve _ :: rest => writesAhead rest
  | .unreserve _ :: rest => writesAhead rest
  | .answer _ :: rest => writesAhead rest
  | .release _ :: rest => writesAhead rest

/-- The state with every byte marked that the host writes while the pending command runs, before now or after: what the
command reads of such a byte is the same free value wherever in the command's run the write falls (R56, U4). -/
def State.foreseen (s : State) : State := { s with touched := writesAhead s.schedule ++ s.touched }

/-- The running command reads or writes the byte, so that a host access to it is a race (R56). Which bytes HDR.PARSE
reads depends on the free values it reads, so the host's writes to come count (log entry 8). -/
def State.races (s : State) (a : Nat) : Bool :=
  match s.pendingInstr with
  | none => false
  | some i => inRegions (footprint i s.foreseen).all a

end Sys2Proof.Machine
end

