-- ==== Sys2Proof/Machine/HostPort.lean ====
section
/-! DEFINITION. What the host does to the machine: MMIO reads and writes (45_register_access R123, R124, R127), command issue (R125), and reads and writes of buffer memory with the races of 20_memory R56. -/
namespace Sys2Proof.Machine

/-- An MMIO access has a meaning only if it is a 32-bit access at a multiple of 4 (R127). -/
def mmioLegal (off : BitVec 8) (width : AccessWidth) : Bool := width == .word && off.toNat % 4 == 0

/-- The register at a word-aligned offset while idle (R14, R33, R123): CSR n at 4n, Xi at 0x40 + 4i, 0 at the
reserved offsets. -/
def State.mmioReg (s : State) (off : Nat) : Word :=
  if off < 0x40 then s.csr (off / 4)
  else if h : (off - 0x40) / 4 < 8 then s.getX ⟨(off - 0x40) / 4, h⟩
  else 0

/-- Only reads of ID and STATUS are exact while BUSY = 1 (R16, R123). -/
def exactWhileBusy (off : Nat) : Bool := off == 0x00 || off == 0x04

/-- A host MMIO read (R123): no side effect on the CORE; the value goes to `hostRx`. -/
def hostMmioRead (off : BitVec 8) (width : AccessWidth) (s : State) : Host.Outcome State Fault Refusal :=
  if mmioLegal off width = false then .refused .mmioAccess
  else if s.status.busy && !exactWhileBusy off.toNat then
    .next { s with hostRx := Config.busyReadWord s.reads, reads := s.reads + 1 }
  else .next { s with hostRx := s.mmioReg off.toNat }

/-- A command word is accepted (R125): PENDING <- w, STATUS.BUSY <- 1, nothing else. -/
def State.accept (s : State) (w : Word) : State := { s with pending := some w, status := s.status.accept }

/-- The write is dropped and CMDOVR <- 1 (R18). -/
def State.overrun (s : State) : State := { s with status := s.status.overrun }

/-- A write to CMD, CONFIG or an X register (R124): it acts while BUSY = 0 and is dropped while BUSY = 1. -/
def State.guarded (s : State) (effect : State → State) : State := if s.status.busy then s.overrun else effect s

/-- The effect of a host write of v at a word-aligned offset, the table of R124. -/
def State.mmioWrite (s : State) (off : Nat) (v : Word) : State :=
  if off = 0x04 then { s with status := s.status.hostWrite v }
  else if off = 0x08 then s.guarded (fun t => { t with hostBe := v.getLsbD 0 })
  else if off = 0x0C then s.guarded (fun t => t.accept v)
  else if h : 0x40 ≤ off ∧ (off - 0x40) / 4 < 8 then s.guarded (fun t => t.setX ⟨(off - 0x40) / 4, h.2⟩ v)
  else s

/-- A host MMIO write (R124). -/
def hostMmioWrite (off : BitVec 8) (width : AccessWidth) (v : Word) (s : State) : Host.Outcome State Fault Refusal :=
  if mmioLegal off width = false then .refused .mmioAccess else .next (s.mmioWrite off.toNat v)

/-- A host read of a byte of buffer memory: any value where it races with the running command (R56, U3), else the
byte; an address that does not exist faults (R36; log entry 12). -/
def hostMemRead (addr : Word) (s : State) : Host.Outcome State Fault Refusal :=
  if s.memBytes ≤ addr.toNat then .fault .noSuchAddress
  else if s.races addr.toNat then
    .next { s with
      hostRx := (Config.hostRaceByte s.reads addr.toNat).zeroExtend 32
      touched := ⟨addr.toNat, false⟩ :: s.touched
      reads := s.reads + 1 }
  else .next { s with hostRx := (s.byteAt addr.toNat).zeroExtend 32 }

/-- A host write of a byte of buffer memory; a race is recorded, and settled when the command completes (R56). -/
def hostMemWrite (addr : Word) (b : Byte) (s : State) : Host.Outcome State Fault Refusal :=
  if s.memBytes ≤ addr.toNat then .fault .noSuchAddress
  else if s.races addr.toNat then
    .next { s.writeByte addr.toNat b with touched := ⟨addr.toNat, true⟩ :: s.touched }
  else .next (s.writeByte addr.toNat b)

/-- The host's own release through the allocator (R53, R52). -/
def hostRelease (addr : Word) (s : State) : Host.Outcome State Fault Refusal :=
  match s.allocRelease addr.toNat with
  | some t => .next t
  | none => .fault .badRelease

end Sys2Proof.Machine
end

