-- ==== Sys2Proof/Machine/ResetLine.lean ====
section
/-! DEFINITION. Reset at any time (70_reset_and_hazards R142 to R144). -/
namespace Sys2Proof.Machine

/-- What a command cut short by reset leaves behind (R144): every byte it would have written holds any value; an
ALLOC or FREE may or may not have taken effect in the allocator (`took`, U9). -/
def abandon (i : Instr) (took : Bool) (s : State) : Host.Outcome State Fault Refusal :=
  match i with
  | .cvtH2f _ _ => .next s
  | .cvtF2h _ _ => .next s
  | .cvtH2fBuf dst src count => .next ((footprint (.cvtH2fBuf dst src count) s).writes.foldl State.scramble s)
  | .cvtF2hBuf dst src count => .next ((footprint (.cvtF2hBuf dst src count) s).writes.foldl State.scramble s)
  | .bswap16 _ _ => .next s
  | .bswap16Buf addr count => .next ((footprint (.bswap16Buf addr count) s).writes.foldl State.scramble s)
  | .payloadIn dst count => .next ((footprint (.payloadIn dst count) s).writes.foldl State.scramble s)
  | .hdrParse _ _ => .next s
  | .alloc _ width height channels size =>
    match took, allocSize width height channels size s with
    | true, .ok (_, bytes) =>
      match s.allocRequest bytes with
      | .failed t => .next t
      | .granted _ t => .next t
      | .inadmissible => .refused .allocContract
    | _, _ => .next s
  | .free base =>
    if took && s.natX base != 0 then
      match s.allocRelease (s.natX base) with
      | some t => .next t
      | none => .fault .badRelease
    else .next s
  | .csrr _ _ => .next s

/-- Every piece of CORE state at its reset value (R142); buffer memory, the allocator and the host are not changed
by reset. -/
def State.resetRegisters (s : State) : State :=
  { s with
    x := Vector.replicate 8 0
    status := { busy := false, err := false, cmdovr := false, lastcode := 0 }
    hostBe := s.params.hostBeReset
    hdrWidth := 0
    hdrHeight := 0
    hdrChannels := 0
    hdrInfo := { valid := false, storedBe := false }
    hdrLen := 0
    hdrPbase := 0
    hdrPavail := 0
    allocBase := 0
    allocCount := 0
    allocBytes := 0
    pending := none
    touched := []
    tick := s.tick + 1 }

/-- Reset (R142): a pending command is abandoned and never completes (R144). -/
def hostReset (took : Bool) (s : State) : Host.Outcome State Fault Refusal :=
  match s.pendingInstr with
  | none => .next s.resetRegisters
  | some i =>
    match abandon i took s with
    | .next t => .next t.resetRegisters
    | .fault f => .fault f
    | .refused r => .refused r

end Sys2Proof.Machine
end

