-- ==== Sys2Proof/Machine/Agents.lean ====
section
/-! DEFINITION. One move of one agent (00_scope R7): the CORE's step, or one thing the outside world does to the machine. -/
namespace Sys2Proof.Machine

/-- The move an event stands for. -/
def act (e : Event) (s : State) : Host.Outcome State Fault Refusal :=
  match e with
  | .core => coreStep s
  | .mmioRead off width => hostMmioRead off width s
  | .mmioWrite off width v => hostMmioWrite off width v s
  | .memRead addr => hostMemRead addr s
  | .memWrite addr b => hostMemWrite addr b s
  | .reserve r => .next { s with hostRegions := r :: s.hostRegions }
  | .unreserve r => .next { s with hostRegions := s.hostRegions.filter (fun q => decide (q ≠ r)) }
  | .answer a => .next { s with answers := s.answers ++ [a] }
  | .release addr => hostRelease addr s
  | .reset took => hostReset took s

/-- The next move (log entry 4): the head of the schedule; with an empty schedule the CORE moves, so that a pending
command completes after finitely many moves (R126, R149). -/
def moveNext (s : State) : Host.Outcome State Fault Refusal :=
  match s.schedule with
  | [] => coreStep s
  | e :: rest => act e { s with schedule := rest }

/-- The command word w is accepted (R125) and the CORE moves next (log entry 18). -/
def issueNext (s : State) (w : Word) : State := { s.accept w with schedule := .core :: s.schedule }

end Sys2Proof.Machine
end

