-- ==== Sys2Proof/Machine/Step.lean ====
section
/-! DEFINITION. One step of the machine, and the state in which a given command is the next to run. -/
namespace Sys2Proof.Machine

/-- One step: the next move of the agents (00_scope R7, 45_register_access R126). -/
def step (s : State) : Host.Outcome State Fault Refusal := moveNext s

/-- s after the host has issued the command word whose `nbits` bits are `w`, the CORE moving next (R125; log entry
18): the CORE fetches no instruction (R13), so PENDING is where the next step finds it. -/
def State.withFetchWord (s : State) (nbits w : Nat) : State := issueNext s (tableWord nbits w)

end Sys2Proof.Machine
end

