-- ==== Sys2Proof/Safety.lean ====
section
/-! DEFINITION. What counts as a safe state and a safe step, and the spec's own terms that claims are stated in: the value a float word stands for (R74), a sample in host order (R43, R48), the text of a header (R100 to R104). -/
namespace Sys2Proof.Machine

/-! ## Invariants -/

/-- PENDING is not none exactly when STATUS.BUSY = 1 (R34). -/
abbrev State.BusyInv (s : State) : Prop := s.status.busy = s.pending.isSome

/-- The result codes that a command may report: all of R128 but OPEN_FAILURE, WRITE_FAILURE and the reserved 9 to 15
(R132). -/
def reportedCode (c : BitVec 4) : Bool := c == 0 || c == 1 || c == 3 || c == 4 || c == 5 || c == 7 || c == 8

/-- LASTCODE holds a code that a command may report (R132). -/
abbrev State.CodeInv (s : State) : Prop := reportedCode s.status.lastcode = true

/-- Buffer memory is in canonical form and lists existing addresses only (R36; log entry 3). -/
abbrev State.MemInv (s : State) : Prop := Memory.wf s.mem = true ∧ ∀ c ∈ s.mem, c.1 < s.memBytes

/-- While a header is valid, its registers are those of a parsed header (R109) and its payload lies in memory
(R114). -/
structure State.HdrInv (s : State) : Prop where
  channels : s.hdrInfo.valid = true → s.hdrChannels = 1 ∨ s.hdrChannels = 3
  width    : s.hdrInfo.valid = true → 1 ≤ s.hdrWidth.toNat ∧ s.hdrWidth.toNat ≤ 2 ^ 31 - 1
  height   : s.hdrInfo.valid = true → 1 ≤ s.hdrHeight.toNat ∧ s.hdrHeight.toNat ≤ 2 ^ 31 - 1
  length   : s.hdrInfo.valid = true → 9 ≤ s.hdrLen.toNat
  payload  : s.hdrInfo.valid = true → s.hdrPbase.toNat + s.hdrPavail.toNat ≤ s.memBytes

/-- Two regions have no address in common. -/
def Apart (r q : Region) : Prop := ∀ a, ¬ (r.contains a = true ∧ q.contains a = true)

/-- Every live allocation meets the allocator's contract (R51), and no two overlap. -/
structure State.LiveInv (s : State) : Prop where
  base   : ∀ r ∈ s.live, r.base ≠ 0 ∧ r.base % 4 = 0
  size   : ∀ r ∈ s.live, 0 < r.len ∧ r.base + r.len ≤ s.memBytes
  apart  : s.live.Pairwise Apart

/-- The race record holds accesses to the running command's bytes only, so it is empty while the CORE is idle
(R56). -/
abbrev State.RaceInv (s : State) : Prop := ∀ u ∈ s.touched, s.races u.addr = true

/-- The host has touched none of the regions while the command ran (R146 item 1). -/
abbrev State.Quiet (s : State) (rs : List Region) : Prop := ∀ u ∈ s.touched, inRegions rs u.addr = false

/-- A safe next step: it does not fault. -/
def State.StepSafe (s : State) : Prop := ∀ f, step s ≠ .fault f

/-! ## Whose move is next -/

/-- The CORE moves next in s, and s₀ is s with that move taken off the schedule: the schedule is empty, or the CORE's
move is its head (R7; log entry 4). -/
def CoreMoves (s s₀ : State) : Prop :=
  (s.schedule = [] ∧ s₀ = s) ∨ ∃ rest, s.schedule = .core :: rest ∧ s₀ = { s with schedule := rest }

/-! ## The bytes a command accesses (R39) -/

/-- The byte c is one of the n bytes from a on. -/
abbrev Within (a n c : Nat) : Prop := a ≤ c ∧ c < a + n

/-- The checks of a command that accesses buffer memory pass, by its operands (R85, R97, R107, R113, R114); the other
commands access none. -/
def AccessChecked (i : Instr) (s : State) : Prop :=
  match i with
  | .cvtH2fBuf dst src count =>
    s.x[src].toNat ≠ 0 ∧ s.x[src].toNat + 2 * s.x[count].toNat ≤ s.memBytes ∧
      s.x[dst].toNat ≠ 0 ∧ s.x[dst].toNat + 4 * s.x[count].toNat ≤ s.memBytes
  | .cvtF2hBuf dst src count =>
    s.x[src].toNat ≠ 0 ∧ s.x[src].toNat + 4 * s.x[count].toNat ≤ s.memBytes ∧
      s.x[dst].toNat ≠ 0 ∧ s.x[dst].toNat + 2 * s.x[count].toNat ≤ s.memBytes
  | .bswap16Buf addr count => s.x[addr].toNat ≠ 0 ∧ s.x[addr].toNat + 2 * s.x[count].toNat ≤ s.memBytes
  | .payloadIn dst count =>
    s.hdrInfo.valid = true ∧ s.x[dst].toNat ≠ 0 ∧ s.x[dst].toNat + 2 * s.x[count].toNat ≤ s.memBytes ∧
      2 * s.x[count].toNat ≤ s.hdrPavail.toNat
  | .hdrParse base len => s.x[base].toNat ≠ 0 ∧ s.x[base].toNat + s.x[len].toNat ≤ s.memBytes
  | .cvtH2f _ _ | .cvtF2h _ _ | .bswap16 _ _ | .alloc _ _ _ _ _ | .free _ | .csrr _ _ => False

/-- The byte c is one that a command whose checks pass may read, by its operands (R39, R85, R97, R113, R114): every one of
its source's for a buffer command; for HDR.PARSE the file image, of which it reads a first part (R98, R99). -/
def SourceByte (i : Instr) (s : State) (c : Nat) : Prop :=
  match i with
  | .cvtH2fBuf _ src count => Within s.x[src].toNat (2 * s.x[count].toNat) c
  | .cvtF2hBuf _ src count => Within s.x[src].toNat (4 * s.x[count].toNat) c
  | .bswap16Buf addr count => Within s.x[addr].toNat (2 * s.x[count].toNat) c
  | .payloadIn _ count => Within s.hdrPbase.toNat (2 * s.x[count].toNat) c
  | .hdrParse base len => Within s.x[base].toNat s.x[len].toNat c
  | .cvtH2f _ _ | .cvtF2h _ _ | .bswap16 _ _ | .alloc _ _ _ _ _ | .free _ | .csrr _ _ => False

/-- The byte c is one that a command whose checks pass writes, by its operands (R39, R85, R97, R113, R114). -/
def DestinationByte (i : Instr) (s : State) (c : Nat) : Prop :=
  match i with
  | .cvtH2fBuf dst _ count => Within s.x[dst].toNat (4 * s.x[count].toNat) c
  | .cvtF2hBuf dst _ count => Within s.x[dst].toNat (2 * s.x[count].toNat) c
  | .bswap16Buf addr count => Within s.x[addr].toNat (2 * s.x[count].toNat) c
  | .payloadIn dst count => Within s.x[dst].toNat (2 * s.x[count].toNat) c
  | .hdrParse _ _ | .cvtH2f _ _ | .cvtF2h _ _ | .bswap16 _ _ | .alloc _ _ _ _ _ | .free _ | .csrr _ _ => False

/-! ## The ends of a command (R126, R129, R130) -/

/-- The state after a command that completes with OK, apart from what the command itself wrote: LASTCODE <- 0, BUSY <- 0,
ERR and CMDOVR unchanged (R130), PENDING <- none (R126), the race record emptied and the counter moved on. -/
def finishedOk (s : State) : State :=
  { s with
    status := { busy := false, err := s.status.err, cmdovr := s.status.cmdovr, lastcode := 0 }
    pending := none, touched := [], tick := s.tick + 1 }

/-- The state after a command that raises a code other than OK and writes nothing (R129, R130). -/
def failedWith (code : BitVec 4) (s : State) : State :=
  { s with
    status := { busy := false, err := true, cmdovr := s.status.cmdovr, lastcode := code }
    pending := none, touched := [], tick := s.tick + 1 }

/-- t is s after a command that completed with OK and wrote buffer memory only. -/
def WroteMemoryOnly (s t : State) : Prop := t = { finishedOk s with mem := t.mem }

/-- A run of an element loop, memory by memory: element i takes memory i to memory i+1. -/
def ElementByElement (n : Nat) (element : Nat → (Nat → Byte) → (Nat → Byte) → Prop) (m m' : Nat → Byte) : Prop :=
  ∃ trace : Nat → Nat → Byte, trace 0 = m ∧ trace n = m' ∧ ∀ i < n, element i (trace i) (trace (i + 1))

/-! ## Illegal words (R68) -/

/-- The OPC values that R66 assigns. -/
def assignedOpcodes : List Nat := [0x01, 0x02, 0x03, 0x04, 0x08, 0x09, 0x0A, 0x10, 0x18, 0x19, 0x20]

/-- Some field that the "must be 0" column of R66 lists for the word's OPC is not 0. -/
def mustBeZeroBroken (w : Word) : Prop :=
  let rd := w.extractLsb' 23 3
  let rs1 := w.extractLsb' 20 3
  let rs2 := w.extractLsb' 17 3
  let rs3 := w.extractLsb' 14 3
  let low := w.extractLsb' 0 14
  match (w.extractLsb' 26 6).toNat with
  | 0x01 | 0x02 | 0x08 => rs2 ≠ 0 ∨ rs3 ≠ 0 ∨ low ≠ 0
  | 0x03 | 0x04 => rd ≠ 0 ∨ low ≠ 0
  | 0x09 | 0x0A | 0x10 => rd ≠ 0 ∨ rs3 ≠ 0 ∨ low ≠ 0
  | 0x18 => w.extractLsb' 0 13 ≠ 0
  | 0x19 => rd ≠ 0 ∨ rs2 ≠ 0 ∨ rs3 ≠ 0 ∨ low ≠ 0
  | 0x20 => rs1 ≠ 0 ∨ rs2 ≠ 0 ∨ rs3 ≠ 0 ∨ w.extractLsb' 0 10 ≠ 0
  | _ => False

/-! ## Samples in host order (R43, R48) -/

/-- The half at address a of a memory m: the byte at a holds bits [7:0] on a little-endian host, [15:8] on a
big-endian one. -/
def halfAt (be : Bool) (m : Nat → Byte) (a : Nat) : Half := if be then m a ++ m (a + 1) else m (a + 1) ++ m a

/-- The float32 at address a of a memory m, in host order. -/
def floatAt (be : Bool) (m : Nat → Byte) (a : Nat) : Word :=
  if be then m a ++ m (a + 1) ++ m (a + 2) ++ m (a + 3) else m (a + 3) ++ m (a + 2) ++ m (a + 1) ++ m a

/-- The bytes of memory m' are those of m but for the half v at address a. -/
def StoresHalf (be : Bool) (m m' : Nat → Byte) (a : Nat) (v : Half) : Prop :=
  halfAt be m' a = v ∧ ∀ c, c < a ∨ a + 2 ≤ c → m' c = m c

/-- The bytes of memory m' are those of m but for the float32 v at address a. -/
def StoresFloat (be : Bool) (m m' : Nat → Byte) (a : Nat) (v : Word) : Prop :=
  floatAt be m' a = v ∧ ∀ c, c < a ∨ a + 4 ≤ c → m' c = m c

/-! ## The value a word stands for (R72 to R75) -/

/-- A half NaN: exponent field 31 and a mantissa that is not 0 (R74). -/
def halfIsNan (h : Half) : Bool := h.extractLsb' 10 5 == 31 && h.extractLsb' 0 10 != 0

/-- A half infinity (R74). -/
def halfIsInf (h : Half) : Bool := h.extractLsb' 10 5 == 31 && h.extractLsb' 0 10 == 0

/-- The magnitude of a finite half in units of 2^-24 (R74): m for e = 0, 2^(e-1) × (2^10 + m) for e in 1..30. For
the infinity's pattern the same formula gives 2^16, the first magnitude past the largest half. -/
def halfUnits (h : Half) : Nat :=
  let e := (h.extractLsb' 10 5).toNat
  let m := (h.extractLsb' 0 10).toNat
  if e = 0 then m else (1024 + m) * 2 ^ (e - 1)

/-- The magnitude of a finite float32 in units of 2^-149 (R74): M for E = 0, 2^(E-1) × (2^23 + M) for E in 1..254. -/
def floatUnits (f : Word) : Nat :=
  let e := (f.extractLsb' 23 8).toNat
  let m := (f.extractLsb' 0 23).toNat
  if e = 0 then m else (2 ^ 23 + m) * 2 ^ (e - 1)

/-- The unit of a half, 2^-24, in units of a float32, 2^-149. -/
def unitsPerHalfUnit : Nat := 2 ^ 125

/-- The distance of two magnitudes. -/
def apartBy (a b : Nat) : Nat := (a - b) + (b - a)

/-! ## The text of a header (R100 to R104) -/

/-- The decimal value of a string of digits, leading zeros allowed (R102). -/
def decimal (ds : List Byte) : Nat := ds.foldl (fun v b => 10 * v + (b.toNat - 0x30)) 0

/-- A string of one or more digits. -/
def isNumeral (ds : List Byte) : Bool := ds.all isDigit && !ds.isEmpty

/-- The parts of a marker (R103): the optional sign, the digits before the point, the point with the digits after it
if there is one, the exponent with its letter, optional sign and digits if there is one. -/
structure MarkerText where
  sign     : Option Byte
  whole    : List Byte
  fraction : Option (List Byte)
  exponent : Option (Byte × Option Byte × List Byte)
  deriving DecidableEq, Repr

/-- The bytes of a marker. -/
def MarkerText.bytes (m : MarkerText) : List Byte :=
  m.sign.toList ++ m.whole ++ (match m.fraction with | none => [] | some f => chPoint :: f) ++
    (match m.exponent with | none => [] | some (e, s, ds) => e :: (s.toList ++ ds))

/-- The significand digits of a marker. -/
def MarkerText.digits (m : MarkerText) : List Byte := m.whole ++ m.fraction.getD []

/-- The grammar of the marker (R103). -/
def MarkerText.ok (m : MarkerText) : Bool :=
  m.sign.toList.all isSign && m.digits.all isDigit && !m.digits.isEmpty &&
    (match m.exponent with
     | none => true
     | some (e, s, ds) => isExponent e && s.toList.all isSign && isNumeral ds)

/-- Negative (R104): the sign is '-' and some significand digit is '1' .. '9'. -/
def MarkerText.negative (m : MarkerText) : Bool := m.sign == some chMinus && m.digits.any (· != 0x30)

/-- The parts of a header: whether the magic token is "PH", the digits of WIDTH, the separators, the digits of
HEIGHT, the marker. -/
structure HeaderText where
  rgb    : Bool
  width  : List Byte
  seps   : List Byte
  height : List Byte
  marker : MarkerText
  deriving DecidableEq, Repr

/-- The bytes of a header, its three lines (R46, R100, R101, R103). -/
def HeaderText.bytes (t : HeaderText) : List Byte :=
  [chP, if t.rgb then chUpperH else chLowerH, chLF] ++ (t.width ++ t.seps ++ t.height ++ [chLF]) ++
    (t.marker.bytes ++ [chLF])

/-- A dimension is one or more digits of a value in 1 .. 2^31-1 (R101, R102). -/
def dimensionOk (ds : List Byte) : Bool := isNumeral ds && decide (1 ≤ decimal ds) && decide (decimal ds ≤ 2 ^ 31 - 1)

/-- The grammar of a header (R100 to R103). -/
def HeaderText.ok (t : HeaderText) : Bool :=
  dimensionOk t.width && t.seps.all isSeparator && !t.seps.isEmpty && dimensionOk t.height && t.marker.ok

/-- What a header says (R100, R102, R104). -/
def HeaderText.meaning (t : HeaderText) : Header :=
  { channels := if t.rgb then 3 else 1, width := decimal t.width, height := decimal t.height,
    storedBe := !t.marker.negative }

end Sys2Proof.Machine
end

