-- ==== Sys2Proof/Certificates/Slice0/Obligations.lean ====
section
/-! DEFINITION. The statements for the provers, from the numbered rules of spec/. A statement that rests on a choice of the model says so and names the log entry. -/
open Sys2Proof Sys2Proof.Machine

/-! ## Encoding -/

/-- Decoding the word of any legal command gives the command back, every operand at every value (R66, R67, R70). -/
def Obligations.DecodeOfEncodeIsTheCommand : Prop :=
  ∀ i : Instr, i.wf = true → decode (encode i) = .legal i

/-- Every legal word is the word of the command it decodes to, and that command is well-formed: no bit of a word is
dropped (R66, R67, R70). -/
def Obligations.EncodeOfDecodeIsTheWord : Prop :=
  ∀ (w : Word) (i : Instr), decode w = .legal i → i.wf = true ∧ encode i = w

/-- R67: the decoder answers the one row whose bits match, with its fields; a word no row matches, or a CSRR of a
number above 13, is ILLEGAL; at most one row matches. -/
def Obligations.DecoderFollowsTheOpcodeMap : Prop :=
  (∀ (w : Word) (r q : Row), r ∈ opcodeMap → q ∈ opcodeMap → w &&& r.mask = r.pattern → w &&& q.mask = q.pattern →
    r = q) ∧
  (∀ (w : Word) (i : Instr), decode w = .legal i ↔
    ∃ r ∈ opcodeMap, w &&& r.mask = r.pattern ∧ ¬ (r.op = .csrr ∧ 13 < (w.extractLsb' 10 4).toNat) ∧
      i = r.op.build w) ∧
  (∀ w : Word, (∃ why, decode w = .illegal why) ↔ ∀ i, decode w ≠ .legal i)

/-- The example words of the rules R84, R85, R96, R97, R107, R112, R113, R114, R119, R120, R122 decode to the
instructions they stand for. -/
def Obligations.ExampleWordsDecode : Prop :=
  decode 0x05100000 = .legal (.cvtH2f 2 1) ∧
  decode 0x0C14C000 = .legal (.cvtH2fBuf 1 2 3) ∧
  decode 0x09A00000 = .legal (.cvtF2h 3 2) ∧
  decode 0x1014C000 = .legal (.cvtF2hBuf 1 2 3) ∧
  decode 0x40140000 = .legal (.hdrParse 1 2) ∧
  decode 0x22300000 = .legal (.bswap16 4 3) ∧
  decode 0x24140000 = .legal (.bswap16Buf 1 2) ∧
  decode 0x28380000 = .legal (.payloadIn 3 4) ∧
  decode 0x6294C000 = .legal (.alloc 5 1 2 3 .half) ∧
  decode 0x64500000 = .legal (.free 5) ∧
  decode 0x83001000 = .legal (.csrr 6 4)

/-- R68: a word is illegal exactly when its OPC is not assigned, a must-be-0 field is not 0, or it is a CSRR of CSR 14
or 15, the all-zero word among them; an accepted illegal command completes with LASTCODE = 8, ERR = 1, BUSY = 0 and
nothing else of the machine changed, whatever is scheduled after the CORE's move (log entry 4). (PENDING is emptied and the model's own race record and counter move on, as at
every completion.) -/
def Obligations.IllegalCommandsOnlyWriteStatus : Prop :=
  (∀ w : Word, (∃ why, decode w = .illegal why) ↔
    ((w.extractLsb' 26 6).toNat ∉ assignedOpcodes ∨ mustBeZeroBroken w ∨
      ((w.extractLsb' 26 6).toNat = 0x20 ∧ 14 ≤ (w.extractLsb' 10 4).toNat))) ∧
  (∃ why, decode 0x00000000 = .illegal why) ∧
  (∀ (s s₀ : State) (w : Word) (why : Illegal), CoreMoves s s₀ → s.pending = some w → decode w = .illegal why →
    step s = .next { s₀ with
      status := { busy := false, err := true, cmdovr := s.status.cmdovr, lastcode := 8 }
      pending := none, touched := [], tick := s.tick + 1 })

/-! ## The step -/

/-- When the CORE moves next and the pending word decodes to an instruction, the step is exec of it, with only the
move taken off the schedule (log entry 4); with nothing pending the CORE's move changes nothing (log entry 5); any
other move of the schedule is that agent's. After an accepted CMD write the command is the very next step. -/
def Obligations.StepRunsThePendingCommand : Prop :=
  (∀ (s : State) (w : Word) (i : Instr), s.schedule = [] → s.pending = some w → decode w = .legal i →
    step s = exec i s) ∧
  (∀ (s : State) (rest : List Event) (w : Word) (i : Instr), s.schedule = .core :: rest → s.pending = some w →
    decode w = .legal i → step s = exec i { s with schedule := rest }) ∧
  (∀ s : State, s.schedule = [] → s.pending = none → step s = .next s) ∧
  (∀ (s : State) (e : Event) (rest : List Event), s.schedule = e :: rest → step s = act e { s with schedule := rest }) ∧
  (∀ (s : State) (nbits w : Nat) (i : Instr), decodeTableWord nbits w = some i →
    step (s.withFetchWord nbits w) = exec i (s.accept (tableWord nbits w)))

/-- R126, R149: no command hangs. Whatever the host does meanwhile, after at most one step more than there are
scheduled moves a pending command has completed (or a reset has abandoned it), unless the machine stops by a named
fault or refusal. -/
def Obligations.PendingCommandCompletes : Prop :=
  ∀ (s : State) (w : Word), s.pending = some w →
    ∃ k ≤ s.schedule.length + 1,
      (∃ t, Sys2Proof.core.run k s = .next t ∧ t.pending = none) ∨
      (∃ f, Sys2Proof.core.run k s = .fault f) ∨ (∃ r, Sys2Proof.core.run k s = .refused r)

/-! ## Register commands -/

/-- CVT.H2F, CVT.F2H and BSWAP16 complete in every state, for all register numbers, rd = rs1 among them: x[rd] is
h2f of the low half of x[rs1], f2h of x[rs1] zero-extended, or the swapped low half zero-extended, and no other state
changes (R84, R96, R112). -/
def Obligations.RegisterConversionsComplete : Prop :=
  ∀ (rd rs1 : XReg) (s : State),
    exec (.cvtH2f rd rs1) s =
      .next { finishedOk s with x := s.x.set rd (h2f (BitVec.ofNat 16 (s.x[rs1].toNat % 2 ^ 16))) } ∧
    exec (.cvtF2h rd rs1) s =
      .next { finishedOk s with x := s.x.set rd (BitVec.ofNat 32 (f2h s.x[rs1]).toNat) } ∧
    exec (.bswap16 rd rs1) s =
      .next { finishedOk s with
        x := s.x.set rd (BitVec.ofNat 32 (s.x[rs1].toNat % 2 ^ 8 * 2 ^ 8 + s.x[rs1].toNat / 2 ^ 8 % 2 ^ 8)) }

/-- CSRR completes for every CSR number 0 to 13 and changes only x[rd] and STATUS: x[rd] is the CSR's value (R122),
with the fields of STATUS, CONFIG and HDR_INFO at their bits and 0 in every reserved bit (R15, R20, R26). -/
def Obligations.CsrrCopiesTheRegister : Prop :=
  ∀ (rd : XReg) (csr : Fin 16) (s : State), csr.val ≤ 13 →
    ∃ v : Word, exec (.csrr rd csr) s = .next { finishedOk s with x := s.x.set rd v } ∧
      (csr = 0 → v = 0x50484D01) ∧
      (csr = 1 → v.toNat = s.status.lastcode.toNat * 2 ^ 8 + s.status.cmdovr.toNat * 2 ^ 2 + s.status.err.toNat * 2 +
        s.status.busy.toNat) ∧
      (csr = 2 → v.toNat = s.hostBe.toNat) ∧ (csr = 3 → v = 0) ∧
      (csr = 4 → v = s.hdrWidth) ∧ (csr = 5 → v = s.hdrHeight) ∧ (csr = 6 → v = s.hdrChannels) ∧
      (csr = 7 → v.toNat = s.hdrInfo.storedBe.toNat * 2 + s.hdrInfo.valid.toNat) ∧
      (csr = 8 → v = s.hdrLen) ∧ (csr = 9 → v = s.hdrPbase) ∧ (csr = 10 → v = s.hdrPavail) ∧
      (csr = 11 → v = s.allocBase) ∧ (csr = 12 → v = s.allocCount) ∧ (csr = 13 → v = s.allocBytes)

/-- A CSRR of STATUS reads BUSY = 1, since it is itself running, and LASTCODE, ERR and CMDOVR as they were before it
(R122). -/
def Obligations.CsrrOfStatusSeesItselfBusy : Prop :=
  ∀ (s s₀ : State) (w : Word) (rd : XReg), s.BusyInv → CoreMoves s s₀ → s.pending = some w →
    decode w = .legal (.csrr rd 1) →
    ∃ t, step s = .next t ∧ t.x[rd].getLsbD 0 = true ∧ t.x[rd].getLsbD 1 = s.status.err ∧
      t.x[rd].getLsbD 2 = s.status.cmdovr ∧ t.x[rd].extractLsb' 8 4 = s.status.lastcode

/-! ## The conversion functions -/

/-- R77: the sign bit is copied unchanged. -/
def Obligations.H2fCopiesTheSign : Prop :=
  ∀ h : Half, (h2f h).getLsbD 31 = h.getLsbD 15

/-- R79: exponent field 31 gives E = 255 and M = m << 13; m = 0 gives ±Inf; a quiet NaN stays quiet and a signaling
NaN stays a signaling NaN: the quiet bit is never set. -/
def Obligations.H2fOfInfAndNan : Prop :=
  ∀ h : Half, h.extractLsb' 10 5 = 31 →
    (h2f h).extractLsb' 23 8 = 255 ∧ (h2f h).extractLsb' 13 10 = h.extractLsb' 0 10 ∧
    (h2f h).extractLsb' 0 13 = 0 ∧
    (h.extractLsb' 0 10 = 0 → h2f h = if h.getLsbD 15 then 0xFF800000 else 0x7F800000) ∧
    (h2f h).getLsbD 22 = h.getLsbD 9 ∧ (h.extractLsb' 0 10 ≠ 0 → (h2f h).extractLsb' 0 23 ≠ 0)

/-- R80: exponent field e in 1..30 gives E = e + 112 and M = m << 13. -/
def Obligations.H2fOfNormals : Prop :=
  ∀ h : Half, 1 ≤ (h.extractLsb' 10 5).toNat → (h.extractLsb' 10 5).toNat ≤ 30 →
    ((h2f h).extractLsb' 23 8).toNat = (h.extractLsb' 10 5).toNat + 112 ∧
    ((h2f h).extractLsb' 0 23).toNat = (h.extractLsb' 0 10).toNat * 2 ^ 13

/-- R82: h2f is exact (same sign and same real value, or the same infinity, for every half that is not a NaN),
injective, never gives a float32 denormal, and leaves the low 13 bits 0 but for half denormals, whose results have
the low 14 bits 0. -/
def Obligations.H2fIsExactAndInjective : Prop :=
  (∀ h : Half, halfIsNan h = false → (h2f h).getLsbD 31 = h.getLsbD 15 ∧
    (halfIsInf h = true → (h2f h).extractLsb' 0 31 = 0x7F800000) ∧
    (halfIsInf h = false → (h2f h).extractLsb' 23 8 ≠ 255 ∧ floatUnits (h2f h) = halfUnits h * unitsPerHalfUnit)) ∧
  (∀ h k : Half, h2f h = h2f k → h = k) ∧
  (∀ h : Half, (h2f h).extractLsb' 23 8 = 0 → (h2f h).extractLsb' 0 23 = 0) ∧
  (∀ h : Half, (h2f h).extractLsb' 0 13 = 0) ∧
  (∀ h : Half, h.extractLsb' 10 5 = 0 → (h2f h).extractLsb' 0 14 = 0)

/-- R87: the sign bit is copied unchanged and the packed exponent and mantissa are at most 0x7E00. -/
def Obligations.F2hCopiesTheSign : Prop :=
  ∀ f : Word, (f2h f).getLsbD 15 = f.getLsbD 31 ∧ ((f2h f).extractLsb' 0 15).toNat ≤ 0x7E00

/-- R88, R89: exponent field 0 gives signed zero, a float32 denormal too; Inf gives Inf; every NaN gives the canonical
NaN with the input's sign. -/
def Obligations.F2hOfZeroInfAndNan : Prop :=
  ∀ f : Word,
    (f.extractLsb' 23 8 = 0 → f2h f = if f.getLsbD 31 then 0x8000 else 0x0000) ∧
    (f.extractLsb' 23 8 = 255 → f.extractLsb' 0 23 = 0 → f2h f = if f.getLsbD 31 then 0xFC00 else 0x7C00) ∧
    (f.extractLsb' 23 8 = 255 → f.extractLsb' 0 23 ≠ 0 → f2h f = if f.getLsbD 31 then 0xFE00 else 0x7E00)

/-- R93: f2h rounds the magnitude of every finite float32 to the nearest half value, and an exact tie goes away from
zero: no half magnitude, the infinity counted as 2^16, is nearer than the result, and one as near is not larger. With
it the tie 0x3F801000, the overflow from 65520 (R90) and the underflow below 2^-25 (R91). -/
def Obligations.F2hRoundsToNearestTiesAway : Prop :=
  (∀ (f : Word) (o : Half), f.extractLsb' 23 8 ≠ 255 → o.toNat ≤ 0x7C00 →
    ∀ r : Half, r = f2h f &&& 0x7FFF →
      apartBy (halfUnits r * unitsPerHalfUnit) (floatUnits f) ≤ apartBy (halfUnits o * unitsPerHalfUnit) (floatUnits f) ∧
      (apartBy (halfUnits r * unitsPerHalfUnit) (floatUnits f) = apartBy (halfUnits o * unitsPerHalfUnit) (floatUnits f) →
        halfUnits o ≤ halfUnits r)) ∧
  f2h 0x3F801000 = 0x3C01 ∧ f2h 0x477FF000 = 0x7C00 ∧ f2h 0x33000000 = 0x0001 ∧ f2h 0x32FFFFFF = 0x0000

/-- R95: a half that is not a NaN comes back from float32 unchanged, and a NaN comes back as the canonical NaN of its
sign. -/
def Obligations.HalfSurvivesTheRoundTrip : Prop :=
  ∀ h : Half, (halfIsNan h = false → f2h (h2f h) = h) ∧
    (halfIsNan h = true → f2h (h2f h) = if h.getLsbD 15 then 0xFE00 else 0x7E00)

/-- R111: swap16 exchanges the two bytes, and applied twice gives the value back. -/
def Obligations.SwapExchangesTheBytes : Prop :=
  ∀ v : Half, swap16 (swap16 v) = v ∧ (swap16 v).extractLsb' 8 8 = v.extractLsb' 0 8 ∧
    (swap16 v).extractLsb' 0 8 = v.extractLsb' 8 8

/-! ## Memory -/

/-- R43: MemRead and MemWrite of 1, 2 and 4 bytes use the host byte order, and what is written is read back. The
command reads bytes the host has not touched meanwhile. -/
def Obligations.AccessesUseTheHostOrder : Prop :=
  ∀ (s : State) (a : Nat), s.touched = [] →
    s.memRead a 1 = (s.byteAt a).toNat ∧
    s.memRead a 2 = (halfAt s.hostBe s.byteAt a).toNat ∧
    s.memRead a 4 = (floatAt s.hostBe s.byteAt a).toNat ∧
    (∀ b : Byte, (s.memWrite a 1 b.toNat).byteAt a = b ∧ ∀ c, c ≠ a → (s.memWrite a 1 b.toNat).byteAt c = s.byteAt c) ∧
    (∀ h : Half, StoresHalf s.hostBe s.byteAt (s.memWrite a 2 h.toNat).byteAt a h) ∧
    (∀ f : Word, StoresFloat s.hostBe s.byteAt (s.memWrite a 4 f.toNat).byteAt a f)

/-- R44: RegionOK(a, n) is a ≠ 0 and a + n ≤ MEM_BYTES in exact integers, for n = 0 too, and a command whose region
fails it raises INVALID_ARGUMENT before any access: only STATUS changes, and HDR_INFO.VALID for HDR.PARSE. -/
def Obligations.BadRegionsAreInvalidArguments : Prop :=
  (∀ (s : State) (a n : Nat), s.regionOk a n = true ↔ (a ≠ 0 ∧ a + n ≤ s.memBytes)) ∧
  (∀ (dst src count : XReg) (s : State),
    (¬ (s.x[src].toNat ≠ 0 ∧ s.x[src].toNat + 2 * s.x[count].toNat ≤ s.memBytes) ∨
      ¬ (s.x[dst].toNat ≠ 0 ∧ s.x[dst].toNat + 4 * s.x[count].toNat ≤ s.memBytes)) →
    exec (.cvtH2fBuf dst src count) s = .next (failedWith 1 s)) ∧
  (∀ (dst src count : XReg) (s : State),
    (¬ (s.x[src].toNat ≠ 0 ∧ s.x[src].toNat + 4 * s.x[count].toNat ≤ s.memBytes) ∨
      ¬ (s.x[dst].toNat ≠ 0 ∧ s.x[dst].toNat + 2 * s.x[count].toNat ≤ s.memBytes)) →
    exec (.cvtF2hBuf dst src count) s = .next (failedWith 1 s)) ∧
  (∀ (addr count : XReg) (s : State),
    ¬ (s.x[addr].toNat ≠ 0 ∧ s.x[addr].toNat + 2 * s.x[count].toNat ≤ s.memBytes) →
    exec (.bswap16Buf addr count) s = .next (failedWith 1 s) ∧
    exec (.payloadIn addr count) s = .next (failedWith 1 s)) ∧
  (∀ (base len : XReg) (s : State),
    ¬ (s.x[base].toNat ≠ 0 ∧ s.x[base].toNat + s.x[len].toNat ≤ s.memBytes) →
    exec (.hdrParse base len) s =
      .next { failedWith 1 s with hdrInfo := { valid := false, storedBe := s.hdrInfo.storedBe } })

/-! ## Buffer commands -/

/-- CVT.H2F.BUF (R85): where both regions are in memory and apart, or dst lies at or past the end of src, the command
completes, every sample is converted independently in host order, every other byte and register is unchanged. -/
def Obligations.CvtH2fBufConvertsEverySample : Prop :=
  ∀ (dst src count : XReg) (s : State) (d a n : Nat), d = s.x[dst].toNat → a = s.x[src].toNat → n = s.x[count].toNat →
    a ≠ 0 → a + 2 * n ≤ s.memBytes → d ≠ 0 → d + 4 * n ≤ s.memBytes → (a + 2 * n ≤ d ∨ d + 4 * n ≤ a) →
    s.Quiet [⟨a, 2 * n⟩, ⟨d, 4 * n⟩] →
    ∃ t, exec (.cvtH2fBuf dst src count) s = .next t ∧ WroteMemoryOnly s t ∧
      (∀ i < n, floatAt s.hostBe t.byteAt (d + 4 * i) = h2f (halfAt s.hostBe s.byteAt (a + 2 * i))) ∧
      (∀ c, c < d ∨ d + 4 * n ≤ c → t.byteAt c = s.byteAt c)

/-- CVT.F2H.BUF (R97): in place (dst = src), more generally with dst at or before src or past its end, every float is
read before it is overwritten, so the command gives the packed half buffer; every other byte and register is
unchanged. -/
def Obligations.CvtF2hBufPacksInPlace : Prop :=
  ∀ (dst src count : XReg) (s : State) (d a n : Nat), d = s.x[dst].toNat → a = s.x[src].toNat → n = s.x[count].toNat →
    a ≠ 0 → a + 4 * n ≤ s.memBytes → d ≠ 0 → d + 2 * n ≤ s.memBytes → (d ≤ a ∨ a + 4 * n ≤ d) →
    s.Quiet [⟨a, 4 * n⟩, ⟨d, 2 * n⟩] →
    ∃ t, exec (.cvtF2hBuf dst src count) s = .next t ∧ WroteMemoryOnly s t ∧
      (∀ i < n, halfAt s.hostBe t.byteAt (d + 2 * i) = f2h (floatAt s.hostBe s.byteAt (a + 4 * i))) ∧
      (∀ c, c < d ∨ d + 2 * n ≤ c → t.byteAt c = s.byteAt c)

/-- BSWAP16.BUF (R113): completes, exchanges the bytes of every sample, whatever CONFIG.HOST_BE, and changes no other
byte or register; a second run on the same region restores it. -/
def Obligations.Bswap16BufSwapsEveryPair : Prop :=
  ∀ (addr count : XReg) (s : State) (a n : Nat), a = s.x[addr].toNat → n = s.x[count].toNat →
    a ≠ 0 → a + 2 * n ≤ s.memBytes → s.Quiet [⟨a, 2 * n⟩] →
    ∃ t, exec (.bswap16Buf addr count) s = .next t ∧ WroteMemoryOnly s t ∧
      (∀ i < n, t.byteAt (a + 2 * i) = s.byteAt (a + 2 * i + 1) ∧ t.byteAt (a + 2 * i + 1) = s.byteAt (a + 2 * i)) ∧
      (∀ c, c < a ∨ a + 2 * n ≤ c → t.byteAt c = s.byteAt c) ∧
      ∃ u, exec (.bswap16Buf addr count) t = .next u ∧ ∀ c, u.byteAt c = s.byteAt c

/-- PAYLOAD.IN (R114, R115): with a valid header, the payload long enough and the destination not overwriting payload
still to be read, the command completes and each sample read in host order is the sample's logical value, which
depends on the file's bytes and STORED_BE and never on HOST_BE; every other byte and register is unchanged. -/
def Obligations.PayloadInGivesLogicalSamples : Prop :=
  ∀ (dst count : XReg) (s : State) (d a n : Nat), d = s.x[dst].toNat → a = s.hdrPbase.toNat → n = s.x[count].toNat →
    s.HdrInv → s.hdrInfo.valid = true → d ≠ 0 → d + 2 * n ≤ s.memBytes → 2 * n ≤ s.hdrPavail.toNat →
    (d ≤ a ∨ a + 2 * n ≤ d) → s.Quiet [⟨a, 2 * n⟩, ⟨d, 2 * n⟩] →
    ∃ t, exec (.payloadIn dst count) s = .next t ∧ WroteMemoryOnly s t ∧
      (∀ i < n, halfAt s.hostBe t.byteAt (d + 2 * i) = halfAt s.hdrInfo.storedBe s.byteAt (a + 2 * i)) ∧
      (∀ c, c < d ∨ d + 2 * n ≤ c → t.byteAt c = s.byteAt c)

/-- R85, R97, R113, R114: however source and destination overlap, a buffer command whose checks pass completes, and
memory ends as the ascending element loop leaves it: element i reads memory as the elements before it left it, and
writes its sample; nothing but memory and STATUS changes. -/
def Obligations.BufferCommandsRunElementByElement : Prop :=
  ∀ (dst src count : XReg) (s : State) (d a n : Nat), d = s.x[dst].toNat → a = s.x[src].toNat → n = s.x[count].toNat →
    d ≠ 0 →
    (a ≠ 0 → a + 2 * n ≤ s.memBytes → d + 4 * n ≤ s.memBytes → s.Quiet [⟨a, 2 * n⟩, ⟨d, 4 * n⟩] →
      ∃ t, exec (.cvtH2fBuf dst src count) s = .next t ∧ WroteMemoryOnly s t ∧
        ElementByElement n (fun i m m' => StoresFloat s.hostBe m m' (d + 4 * i) (h2f (halfAt s.hostBe m (a + 2 * i))))
          s.byteAt t.byteAt) ∧
    (a ≠ 0 → a + 4 * n ≤ s.memBytes → d + 2 * n ≤ s.memBytes → s.Quiet [⟨a, 4 * n⟩, ⟨d, 2 * n⟩] →
      ∃ t, exec (.cvtF2hBuf dst src count) s = .next t ∧ WroteMemoryOnly s t ∧
        ElementByElement n (fun i m m' => StoresHalf s.hostBe m m' (d + 2 * i) (f2h (floatAt s.hostBe m (a + 4 * i))))
          s.byteAt t.byteAt) ∧
    (∀ p : Nat, p = s.hdrPbase.toNat → s.HdrInv → s.hdrInfo.valid = true → 2 * n ≤ s.hdrPavail.toNat →
      d + 2 * n ≤ s.memBytes → s.Quiet [⟨p, 2 * n⟩, ⟨d, 2 * n⟩] →
      ∃ t, exec (.payloadIn dst count) s = .next t ∧ WroteMemoryOnly s t ∧
        ElementByElement n
          (fun i m m' => StoresHalf s.hostBe m m' (d + 2 * i) (halfAt s.hdrInfo.storedBe m (p + 2 * i)))
          s.byteAt t.byteAt)

/-- R56, U5: when a command that accessed memory completes, HDR.PARSE among them, every byte of its footprint that the
host touched meanwhile holds a free value, the one of U5: whatever is proved of the state after holds for any value of it.
The footprint of HDR.PARSE is the bytes that it has read (R98). The record of the host's accesses is the model's own (log
entry 8). -/
def Obligations.RacedBytesHoldAnyValue : Prop :=
  ∀ (i : Instr) (s t : State) (c : Nat), exec i s = .next t →
    inRegions (footprint i s).all c = true → (∃ u ∈ s.touched, u.addr = c) →
    t.byteAt c = Config.raceLeftByte s.tick c

/-- R56, U4: a command's read of a byte that the host wrote while it ran returns a free value; of any other byte, what
memory holds. `read` is what the command reads: each command's result is computed from it. The record of the host's
accesses is the model's own (log entry 8). -/
def Obligations.CommandsReadRacedBytesFreely : Prop :=
  ∀ (s : State) (read : Nat → Byte),
    (∀ c, (∃ u ∈ s.touched, u.wrote = true ∧ u.addr = c) → read c = Config.coreRaceByte s.tick c) →
    (∀ c, (∀ u ∈ s.touched, u.addr = c → u.wrote = false) → read c = s.byteAt c) →
    (∀ (dst src count : XReg) (d a n : Nat), d = s.x[dst].toNat → a = s.x[src].toNat → n = s.x[count].toNat →
      a ≠ 0 → d ≠ 0 →
      (a + 2 * n ≤ s.memBytes → d + 4 * n ≤ s.memBytes → (a + 2 * n ≤ d ∨ d + 4 * n ≤ a) → s.Quiet [⟨d, 4 * n⟩] →
        ∃ t, exec (.cvtH2fBuf dst src count) s = .next t ∧ WroteMemoryOnly s t ∧
          ∀ i < n, floatAt s.hostBe t.byteAt (d + 4 * i) = h2f (halfAt s.hostBe read (a + 2 * i))) ∧
      (a + 4 * n ≤ s.memBytes → d + 2 * n ≤ s.memBytes → (a + 4 * n ≤ d ∨ d + 2 * n ≤ a) → s.Quiet [⟨d, 2 * n⟩] →
        ∃ t, exec (.cvtF2hBuf dst src count) s = .next t ∧ WroteMemoryOnly s t ∧
          ∀ i < n, halfAt s.hostBe t.byteAt (d + 2 * i) = f2h (floatAt s.hostBe read (a + 4 * i)))) ∧
    (∀ (dst count : XReg) (d a n : Nat), d = s.x[dst].toNat → a = s.hdrPbase.toNat → n = s.x[count].toNat →
      s.HdrInv → s.hdrInfo.valid = true → d ≠ 0 → d + 2 * n ≤ s.memBytes → 2 * n ≤ s.hdrPavail.toNat →
      (a + 2 * n ≤ d ∨ d + 2 * n ≤ a) → s.Quiet [⟨d, 2 * n⟩] →
      ∃ t, exec (.payloadIn dst count) s = .next t ∧ WroteMemoryOnly s t ∧
        ∀ i < n, halfAt s.hostBe t.byteAt (d + 2 * i) = halfAt s.hdrInfo.storedBe read (a + 2 * i)) ∧
    (∀ (addr count : XReg) (a n : Nat), a = s.x[addr].toNat → n = s.x[count].toNat → a ≠ 0 → a + 2 * n ≤ s.memBytes →
      ∃ t, exec (.bswap16Buf addr count) s = .next t ∧ WroteMemoryOnly s t ∧
        ∀ i < n, ((∀ u ∈ s.touched, u.addr ≠ a + 2 * i + 1) → t.byteAt (a + 2 * i + 1) = read (a + 2 * i)) ∧
          ((∀ u ∈ s.touched, u.addr ≠ a + 2 * i) → t.byteAt (a + 2 * i) = read (a + 2 * i + 1))) ∧
    (∀ (base len : XReg) (a n : Nat), a = s.x[base].toNat → n = s.x[len].toNat → a ≠ 0 → a + n ≤ s.memBytes →
      (∀ (text : HeaderText) (payload : List Byte), text.ok = true →
        (List.range n).map (fun k => read (a + k)) = text.bytes ++ payload →
        ∃ t, exec (.hdrParse base len) s = .next t ∧ t.status.lastcode = 0 ∧
          t.hdrWidth.toNat = decimal text.width ∧ t.hdrHeight.toNat = decimal text.height ∧
          t.hdrChannels = (if text.rgb then 3 else 1) ∧
          t.hdrInfo = { valid := true, storedBe := !text.marker.negative } ∧
          t.hdrLen.toNat = text.bytes.length ∧ t.hdrPavail.toNat = payload.length) ∧
      ((¬ ∃ (text : HeaderText) (payload : List Byte), text.ok = true ∧
        (List.range n).map (fun k => read (a + k)) = text.bytes ++ payload) →
        ∃ t, exec (.hdrParse base len) s = .next t ∧ t.status.lastcode = 3 ∧ t.hdrInfo.valid = false))

/-! ## The header parser -/

/-- R100 to R105, R107: in every state whose file image begins with a header that the grammar admits, HDR.PARSE
completes and the HDR_* registers hold what the header says; bytes after it are not read, X registers, memory and every
other CSR are unchanged. Where base + HDR_LEN is 2^32 the value of HDR_PBASE is free (log entry 10). -/
def Obligations.HdrParseAcceptsTheGrammar : Prop :=
  ∀ (base len : XReg) (s : State) (a n : Nat) (text : HeaderText) (payload : List Byte),
    a = s.x[base].toNat → n = s.x[len].toNat → a ≠ 0 → a + n ≤ s.memBytes → s.Quiet [⟨a, n⟩] → text.ok = true →
    (List.range n).map (fun k => s.byteAt (a + k)) = text.bytes ++ payload →
    ∃ pbase : Word, (a + text.bytes.length < 2 ^ 32 → pbase.toNat = a + text.bytes.length) ∧
      exec (.hdrParse base len) s = .next { finishedOk s with
        hdrWidth := BitVec.ofNat 32 (decimal text.width)
        hdrHeight := BitVec.ofNat 32 (decimal text.height)
        hdrChannels := if text.rgb then 3 else 1
        hdrInfo := { valid := true, storedBe := !text.marker.negative }
        hdrLen := BitVec.ofNat 32 text.bytes.length
        hdrPbase := pbase
        hdrPavail := BitVec.ofNat 32 payload.length }

/-- R99 to R103, R107, R108: in every state whose file image does not begin with a header that the grammar admits,
HDR.PARSE completes with FORMAT_ERROR, clears VALID and changes nothing else. -/
def Obligations.HdrParseRejectsAllElse : Prop :=
  ∀ (base len : XReg) (s : State) (a n : Nat),
    a = s.x[base].toNat → n = s.x[len].toNat → a ≠ 0 → a + n ≤ s.memBytes → s.Quiet [⟨a, n⟩] →
    (¬ ∃ (text : HeaderText) (payload : List Byte), text.ok = true ∧
      (List.range n).map (fun k => s.byteAt (a + k)) = text.bytes ++ payload) →
    exec (.hdrParse base len) s =
      .next { failedWith 3 s with hdrInfo := { valid := false, storedBe := s.hdrInfo.storedBe } }

/-- R109: a successful HDR.PARSE leaves HDR_CHANNELS in 1 or 3, both dimensions in 1 .. 2^31-1, 9 ≤ HDR_LEN ≤ len and
HDR_PBASE + HDR_PAVAIL = base + len; the last where base + HDR_LEN fits in the register (log entry 10). -/
def Obligations.SuccessfulParseInvariants : Prop :=
  ∀ (base len : XReg) (s t : State), exec (.hdrParse base len) s = .next t → t.status.lastcode = 0 →
    (t.hdrChannels = 1 ∨ t.hdrChannels = 3) ∧
    1 ≤ t.hdrWidth.toNat ∧ t.hdrWidth.toNat ≤ 2 ^ 31 - 1 ∧ 1 ≤ t.hdrHeight.toNat ∧ t.hdrHeight.toNat ≤ 2 ^ 31 - 1 ∧
    9 ≤ t.hdrLen.toNat ∧ t.hdrLen.toNat ≤ s.x[len].toNat ∧
    (s.x[base].toNat + t.hdrLen.toNat < 2 ^ 32 →
      t.hdrPbase.toNat + t.hdrPavail.toNat = s.x[base].toNat + s.x[len].toNat)

/-- R108: a failing HDR.PARSE leaves the HDR_* fields as they were but for VALID, which it clears, and a PAYLOAD.IN
after it raises INVALID_ARGUMENT and writes nothing. -/
def Obligations.FailedParseBlocksPayloadIn : Prop :=
  ∀ (base len dst count : XReg) (s t : State), exec (.hdrParse base len) s = .next t → t.status.lastcode ≠ 0 →
    t.hdrWidth = s.hdrWidth ∧ t.hdrHeight = s.hdrHeight ∧ t.hdrChannels = s.hdrChannels ∧
    t.hdrInfo.storedBe = s.hdrInfo.storedBe ∧ t.hdrLen = s.hdrLen ∧ t.hdrPbase = s.hdrPbase ∧
    t.hdrPavail = s.hdrPavail ∧ t.hdrInfo.valid = false ∧
    exec (.payloadIn dst count) t = .next (failedWith 1 t)

/-- R98: HDR.PARSE reads its file image from the first byte on and nothing outside it, reads the header and no byte of
the payload, and what it does
depends on the bytes it reads only: with any other memory that agrees on them every register ends the same. So, where the
host writes no byte of the header while it runs, a host access races exactly with the bytes of the header, and one to a
payload byte is no race (R56): the read is exact and changes nothing, the write changes that byte only. (Which bytes the host writes while the command runs is read from the
model's schedule and record, log entries 4 and 8.) -/
def Obligations.HdrParseReadsOnlyTheHeader : Prop :=
  ∀ (base len : XReg) (s : State) (a n : Nat), a = s.x[base].toNat → n = s.x[len].toNat → a ≠ 0 → a + n ≤ s.memBytes →
    (∃ k ≤ n, (0 < n → 0 < k) ∧
      ∀ c, inRegions (footprint (.hdrParse base len) s).all c = true ↔ a ≤ c ∧ c < a + k) ∧
    (∀ (t : State) (m : Memory), t = { s with mem := m } →
      (∀ c, inRegions (footprint (.hdrParse base len) s).all c = true → t.byteAt c = s.byteAt c) →
      ∀ u, exec (.hdrParse base len) s = .next u → ∃ v, exec (.hdrParse base len) t = .next v ∧ v = { u with mem := v.mem }) ∧
    (∀ (text : HeaderText) (payload : List Byte), text.ok = true →
      (List.range n).map (fun k => s.byteAt (a + k)) = text.bytes ++ payload →
      (∀ u ∈ writesAhead s.schedule ++ s.touched, u.wrote = true → u.addr < a ∨ a + text.bytes.length ≤ u.addr) →
      (∀ c, inRegions (footprint (.hdrParse base len) s).all c = true ↔ a ≤ c ∧ c < a + text.bytes.length) ∧
      ∀ (w : Word), s.pending = some w → decode w = .legal (.hdrParse base len) →
        (∀ c, s.races c = true ↔ a ≤ c ∧ c < a + text.bytes.length) ∧
        ∀ (addr : Word) (b : Byte), addr.toNat < s.memBytes → a + text.bytes.length ≤ addr.toNat →
          hostMemRead addr s = .next { s with hostRx := BitVec.ofNat 32 (s.byteAt addr.toNat).toNat } ∧
          ∃ t, hostMemWrite addr b s = .next t ∧ t = { s with mem := t.mem } ∧ t.byteAt addr.toNat = b ∧
            ∀ c, c ≠ addr.toNat → t.byteAt c = s.byteAt c)

/-- R107: parsing twice gives the same result when the bytes have not changed, whatever else has, the operands' register
numbers too: the same code, and on success the same header registers (HDR_PBASE among them where it is the free value of
log entry 10). A second parse right after a first changes nothing but the
model's own counter. -/
def Obligations.HdrParseTwiceGivesTheSame : Prop :=
  (∀ (base len base' len' : XReg) (s t u : State) (a n : Nat), a = s.x[base].toNat → n = s.x[len].toNat →
    t.x[base'] = s.x[base] → t.x[len'] = s.x[len] → t.params = s.params → s.Quiet [⟨a, n⟩] → t.Quiet [⟨a, n⟩] →
    (∀ c, a ≤ c → c < a + n → t.byteAt c = s.byteAt c) → exec (.hdrParse base len) s = .next u →
    ∃ v, exec (.hdrParse base' len') t = .next v ∧ v.status.lastcode = u.status.lastcode ∧
      (u.status.lastcode = 0 → v.hdrWidth = u.hdrWidth ∧ v.hdrHeight = u.hdrHeight ∧ v.hdrChannels = u.hdrChannels ∧
        v.hdrInfo = u.hdrInfo ∧ v.hdrLen = u.hdrLen ∧ v.hdrPbase = u.hdrPbase ∧ v.hdrPavail = u.hdrPavail)) ∧
  (∀ (base len : XReg) (s t : State), s.Quiet [⟨s.x[base].toNat, s.x[len].toNat⟩] →
    exec (.hdrParse base len) s = .next t → exec (.hdrParse base len) t = .next { t with tick := t.tick + 1 })

/-! ## The allocator -/

/-- ALLOC (R119): with a valid geometry, a size that fits and an answer that keeps the contract of R51, it completes:
x[rd] and ALLOC_BASE are the base, ALLOC_COUNT and ALLOC_BYTES the exact count and byte size, the region is live, and
nothing else changes, memory among it; rd may be any of the operands. -/
def Obligations.AllocGrantsTheBuffer : Prop :=
  ∀ (rd rw rh rc : XReg) (size : SampleSize) (s : State) (b : Word) (rest : List AllocAnswer) (w h c sz : Nat),
    w = s.x[rw].toNat → h = s.x[rh].toNat → c = s.x[rc].toNat → sz = (match size with | .half => 2 | .float => 4) →
    1 ≤ w → w < 2 ^ 31 → 1 ≤ h → h < 2 ^ 31 → (c = 1 ∨ c = 3) → w * h * c * sz ≤ 2 ^ 32 - 1 →
    s.answers = .ok b :: rest → b.toNat ≠ 0 → b.toNat % 4 = 0 → b.toNat + w * h * c * sz ≤ s.memBytes →
    (∀ r ∈ s.live ++ s.hostRegions, r.base + r.len ≤ b.toNat ∨ b.toNat + w * h * c * sz ≤ r.base) →
    exec (.alloc rd rw rh rc size) s = .next { finishedOk s with
      x := s.x.set rd b
      allocBase := b
      allocCount := BitVec.ofNat 32 (w * h * c)
      allocBytes := BitVec.ofNat 32 (w * h * c * sz)
      live := ⟨b.toNat, w * h * c * sz⟩ :: s.live
      answers := rest } ∧
    (BitVec.ofNat 32 (w * h * c)).toNat = w * h * c ∧ (BitVec.ofNat 32 (w * h * c * sz)).toNat = w * h * c * sz

/-- R117: the geometry is valid exactly when w > 0, h > 0 and c is 1 or 3, read as signed 32-bit integers; otherwise,
and only then, ALLOC raises VALIDATION_ERROR, and nothing but STATUS changes. -/
def Obligations.AllocValidatesTheGeometry : Prop :=
  ∀ (rd rw rh rc : XReg) (size : SampleSize) (s : State),
    (¬ (0 < s.x[rw].toInt ∧ 0 < s.x[rh].toInt ∧ (s.x[rc].toInt = 1 ∨ s.x[rc].toInt = 3)) →
      exec (.alloc rd rw rh rc size) s = .next (failedWith 4 s)) ∧
    (∀ t, exec (.alloc rd rw rh rc size) s = .next t → t.status.lastcode = 4 →
      ¬ (0 < s.x[rw].toInt ∧ 0 < s.x[rh].toInt ∧ (s.x[rc].toInt = 1 ∨ s.x[rc].toInt = 3)))

/-- R118: both products are exact; a byte size above 2^32 - 1 raises ALLOC_FAILURE without asking the allocator: no
answer is used up; and whenever ALLOC succeeds, ALLOC_COUNT and ALLOC_BYTES hold the exact products. The last clause, that
on success the base is in x[rd] and ALLOC_BASE and the buffer fits in memory, is R119's, from the allocator's contract
R51, which the model's draw keeps (log entry 6). -/
def Obligations.AllocSizesAreExact : Prop :=
  ∀ (rd rw rh rc : XReg) (size : SampleSize) (s : State) (w h c sz : Nat),
    w = s.x[rw].toNat → h = s.x[rh].toNat → c = s.x[rc].toNat → sz = (match size with | .half => 2 | .float => 4) →
    1 ≤ w → w < 2 ^ 31 → 1 ≤ h → h < 2 ^ 31 → (c = 1 ∨ c = 3) →
    (2 ^ 32 - 1 < w * h * c * sz → exec (.alloc rd rw rh rc size) s = .next (failedWith 7 s)) ∧
    (∀ t, exec (.alloc rd rw rh rc size) s = .next t → t.status.lastcode = 0 →
      t.allocCount.toNat = w * h * c ∧ t.allocBytes.toNat = w * h * c * sz ∧ t.allocBase = t.x[rd] ∧
      w * h * c * sz + 4 ≤ s.memBytes)

/-- R50, R119: with no answer stated, ALLOC completes whatever the allocator's draw, with OK, VALIDATION_ERROR or
ALLOC_FAILURE; a stated Fail completes with ALLOC_FAILURE and changes nothing but STATUS. -/
def Obligations.AllocCompletesWhateverTheDraw : Prop :=
  ∀ (rd rw rh rc : XReg) (size : SampleSize) (s : State),
    (s.answers = [] → ∃ t, exec (.alloc rd rw rh rc size) s = .next t ∧
      (t.status.lastcode = 0 ∨ t.status.lastcode = 4 ∨ t.status.lastcode = 7)) ∧
    (∀ rest, s.answers = .fail :: rest → 0 < s.x[rw].toInt → 0 < s.x[rh].toInt →
      (s.x[rc].toInt = 1 ∨ s.x[rc].toInt = 3) →
      s.x[rw].toInt * s.x[rh].toInt * s.x[rc].toInt * (match size with | .half => 2 | .float => 4) ≤ 2 ^ 32 - 1 →
      exec (.alloc rd rw rh rc size) s = .next { failedWith 7 s with answers := rest })

/-- FREE (R120, R52): of the base of a live allocation it completes with OK, that allocation is no longer live, every
other one is, and nothing else changes; of 0 it raises INVALID_ARGUMENT and sends no release; of any other address the
model records a fault. The host's own release through the allocator (R53) does the same to the live set, without a
command, and faults of every address that is no live base. -/
def Obligations.FreeReleasesTheBuffer : Prop :=
  ∀ (base : XReg) (s : State),
    (∀ r ∈ s.live, r.base = s.x[base].toNat → r.base ≠ 0 →
      ∃ t, exec (.free base) s = .next t ∧ t = { finishedOk s with live := t.live } ∧
        ∀ q : Region, q ∈ t.live ↔ (q ∈ s.live ∧ q.base ≠ s.x[base].toNat)) ∧
    (s.x[base] = 0 → exec (.free base) s = .next (failedWith 1 s)) ∧
    (s.x[base] ≠ 0 → (∀ r ∈ s.live, r.base ≠ s.x[base].toNat) → exec (.free base) s = .fault .badRelease) ∧
    (∀ addr : Word,
      (∀ r ∈ s.live, r.base = addr.toNat →
        ∃ t, hostRelease addr s = .next t ∧ t = { s with live := t.live } ∧
          ∀ q : Region, q ∈ t.live ↔ (q ∈ s.live ∧ q.base ≠ addr.toNat)) ∧
      ((∀ r ∈ s.live, r.base ≠ addr.toNat) → hostRelease addr s = .fault .badRelease))

/-! ## Completion, errors and frames of every command -/

/-- R130: every command that completes, an illegal one among them, writes LASTCODE with its code, sets ERR when the code
is not OK and leaves it otherwise, clears BUSY, and writes no other status flag. -/
def Obligations.EveryCommandWritesStatus : Prop :=
  (∀ (i : Instr) (s t : State), exec i s = .next t →
    t.status.busy = false ∧ t.status.cmdovr = s.status.cmdovr ∧
    t.status.err = (s.status.err || t.status.lastcode != 0) ∧ t.pending = none) ∧
  (∀ (s s₀ t : State) (w : Word), CoreMoves s s₀ → s.pending = some w → step s = .next t →
    t.status.busy = false ∧ t.status.cmdovr = s.status.cmdovr ∧
    t.status.err = (s.status.err || t.status.lastcode != 0) ∧ t.pending = none)

/-- R129: errors are precise. A command that completes with a code other than OK has left every piece of state as it
was, apart from STATUS, and HDR_INFO.VALID, which a failing HDR.PARSE clears. Weaker than R129 in two places: a stated
allocator answer may be used up (the list of answers is the model's, log entry 6), and bytes that raced with a failing
HDR.PARSE may differ in memory (R56, log entry 8). -/
def Obligations.FailingCommandsChangeOnlyStatus : Prop :=
  ∀ (i : Instr) (s t : State), exec i s = .next t → t.status.lastcode ≠ 0 →
    ((∀ base len, i ≠ .hdrParse base len) →
      t = { failedWith t.status.lastcode s with answers := t.answers } ∧
      (t.answers = s.answers ∨ t.answers = s.answers.tail)) ∧
    ((∃ base len, i = .hdrParse base len) →
      t = { failedWith t.status.lastcode s with
        hdrInfo := { valid := false, storedBe := s.hdrInfo.storedBe }, mem := t.mem } ∧
      ∀ c, (∀ u ∈ s.touched, u.addr ≠ c) → t.byteAt c = s.byteAt c)

/-- R131: when several errors apply, the first in the order of checks is reported: a word that decodes to nothing is
ILLEGAL_COMMAND whatever the registers hold; PAYLOAD.IN: no valid header, then the region, then truncation; HDR.PARSE:
the region, then the format; ALLOC: validation, then size, then allocator; the other commands have the one error, or
none. -/
def Obligations.FirstErrorIsReported : Prop :=
  (∀ (s s₀ : State) (w : Word) (why : Illegal), CoreMoves s s₀ → s.pending = some w → decode w = .illegal why →
    step s = .next (failedWith 8 s₀)) ∧
  (∀ (dst count : XReg) (s : State),
    (s.hdrInfo.valid = false → exec (.payloadIn dst count) s = .next (failedWith 1 s)) ∧
    (s.hdrInfo.valid = true → s.regionOk s.x[dst].toNat (2 * s.x[count].toNat) = false →
      exec (.payloadIn dst count) s = .next (failedWith 1 s)) ∧
    (s.hdrInfo.valid = true → s.regionOk s.x[dst].toNat (2 * s.x[count].toNat) = true →
      s.hdrPavail.toNat < 2 * s.x[count].toNat → exec (.payloadIn dst count) s = .next (failedWith 5 s))) ∧
  (∀ (base len : XReg) (s t : State), exec (.hdrParse base len) s = .next t →
    (s.regionOk s.x[base].toNat s.x[len].toNat = false ↔ t.status.lastcode = 1) ∧
    (t.status.lastcode = 0 ∨ t.status.lastcode = 1 ∨ t.status.lastcode = 3)) ∧
  (∀ (rd rw rh rc : XReg) (size : SampleSize) (s t : State), exec (.alloc rd rw rh rc size) s = .next t →
    (¬ (0 < s.x[rw].toInt ∧ 0 < s.x[rh].toInt ∧ (s.x[rc].toInt = 1 ∨ s.x[rc].toInt = 3)) → t.status.lastcode = 4) ∧
    (0 < s.x[rw].toInt → 0 < s.x[rh].toInt → (s.x[rc].toInt = 1 ∨ s.x[rc].toInt = 3) →
      (2 ^ 32 - 1 < s.x[rw].toInt * s.x[rh].toInt * s.x[rc].toInt * (match size with | .half => 2 | .float => 4) ∨
        s.answers.head? = some .fail) → t.status.lastcode = 7)) ∧
  (∀ (dst src count : XReg) (s t : State),
    (exec (.cvtH2fBuf dst src count) s = .next t ∨ exec (.cvtF2hBuf dst src count) s = .next t ∨
      exec (.bswap16Buf dst count) s = .next t ∨ exec (.free dst) s = .next t) →
    t.status.lastcode = 0 ∨ t.status.lastcode = 1) ∧
  (∀ (rd rs1 : XReg) (csr : Fin 16) (s t : State), csr.val ≤ 13 →
    (exec (.cvtH2f rd rs1) s = .next t ∨ exec (.cvtF2h rd rs1) s = .next t ∨ exec (.bswap16 rd rs1) s = .next t ∨
      exec (.csrr rd csr) s = .next t) → t.status.lastcode = 0)

/-- R12, R14, R39, R53: what each command may write. X registers: only x[rd] of CVT.H2F, CVT.F2H, BSWAP16, ALLOC and
CSRR. HDR_*: only HDR.PARSE. ALLOC_*: only ALLOC. The live set: only ALLOC and FREE. CONFIG, CMDOVR, the parameters,
the host's own state and the schedule: no command. -/
def Obligations.CommandsWriteOnlyTheirRegisters : Prop :=
  ∀ (i : Instr) (s t : State), exec i s = .next t →
    (t.params = s.params ∧ t.hostBe = s.hostBe ∧ t.status.cmdovr = s.status.cmdovr ∧ t.hostRegions = s.hostRegions ∧
      t.schedule = s.schedule ∧ t.hostRx = s.hostRx ∧ t.reads = s.reads) ∧
    (∀ k : XReg, (match i with
        | .cvtH2f rd _ => k ≠ rd
        | .cvtF2h rd _ => k ≠ rd
        | .bswap16 rd _ => k ≠ rd
        | .alloc rd _ _ _ _ => k ≠ rd
        | .csrr rd _ => k ≠ rd
        | .cvtH2fBuf _ _ _ | .cvtF2hBuf _ _ _ | .bswap16Buf _ _ | .payloadIn _ _ | .hdrParse _ _ | .free _ => True) →
      t.x[k] = s.x[k]) ∧
    ((∀ base len, i ≠ .hdrParse base len) →
      t.hdrWidth = s.hdrWidth ∧ t.hdrHeight = s.hdrHeight ∧ t.hdrChannels = s.hdrChannels ∧ t.hdrInfo = s.hdrInfo ∧
      t.hdrLen = s.hdrLen ∧ t.hdrPbase = s.hdrPbase ∧ t.hdrPavail = s.hdrPavail) ∧
    ((∀ rd rw rh rc size, i ≠ .alloc rd rw rh rc size) →
      t.allocBase = s.allocBase ∧ t.allocCount = s.allocCount ∧ t.allocBytes = s.allocBytes ∧ t.answers = s.answers ∧
      ((∀ base, i ≠ .free base) → t.live = s.live))

/-- R39, R42, R53: the memory frame of every command. A byte outside the regions that the command writes, computed
from its operands before it runs, is unchanged, but for a byte it only reads that raced with the host (R56); and a
command that reaches no memory leaves it as it is. A command accesses memory only where its checks pass (R129): a buffer
command reads its whole source and writes its whole destination, HDR.PARSE reads bytes of its image and writes none
(how far it reads is HdrParseReadsOnlyTheHeader's). So a host access races (R56) exactly with a byte that the pending
command accesses, and never with nothing pending or with an illegal word. -/
def Obligations.CommandsWriteOnlyTheirRegions : Prop :=
  (∀ (i : Instr) (s t : State), exec i s = .next t →
    (∀ c, inRegions (footprint i s).writes c = false →
      (inRegions (footprint i s).reads c = true → ∀ u ∈ s.touched, u.addr ≠ c) → t.byteAt c = s.byteAt c) ∧
    ((footprint i s).all = [] → t.mem = s.mem) ∧
    (match i with
      | .cvtH2f _ _ | .cvtF2h _ _ | .bswap16 _ _ | .alloc _ _ _ _ _ | .free _ | .csrr _ _ => (footprint i s).all = []
      | .hdrParse _ _ => (footprint i s).writes = []
      | .cvtH2fBuf dst _ count => ∀ r ∈ (footprint i s).writes, r = ⟨s.x[dst].toNat, 4 * s.x[count].toNat⟩
      | .cvtF2hBuf dst _ count => ∀ r ∈ (footprint i s).writes, r = ⟨s.x[dst].toNat, 2 * s.x[count].toNat⟩
      | .bswap16Buf dst count => ∀ r ∈ (footprint i s).writes, r = ⟨s.x[dst].toNat, 2 * s.x[count].toNat⟩
      | .payloadIn dst count => ∀ r ∈ (footprint i s).writes, r = ⟨s.x[dst].toNat, 2 * s.x[count].toNat⟩)) ∧
  (∀ (i : Instr) (s : State) (c : Nat),
    (inRegions (footprint i s).writes c = true ↔ AccessChecked i s ∧ DestinationByte i s c) ∧
    (inRegions (footprint i s).reads c = true → AccessChecked i s ∧ SourceByte i s c) ∧
    ((∀ base len, i ≠ .hdrParse base len) → AccessChecked i s → SourceByte i s c →
      inRegions (footprint i s).reads c = true)) ∧
  (∀ (s : State) (w : Word) (i : Instr) (c : Nat), s.pending = some w → decode w = .legal i →
    (s.races c = true → AccessChecked i s ∧ (SourceByte i s c ∨ DestinationByte i s c)) ∧
    ((∀ base len, i ≠ .hdrParse base len) → AccessChecked i s → SourceByte i s c ∨ DestinationByte i s c →
      s.races c = true)) ∧
  (∀ (s : State) (c : Nat), s.pending = none → s.races c = false) ∧
  (∀ (s : State) (w : Word) (why : Illegal) (c : Nat), s.pending = some w → decode w = .illegal why →
    s.races c = false)

/-- R141: the one fault of a command is a FREE of an address that is not a live allocation base, and the one refusal an
ALLOC whose stated answer Ok(b) to its request for n bytes breaks the allocator's contract (R51, U11; stated answers are
the model's, log entry 6); in every state that meets the header invariant every other command completes. -/
def Obligations.CommandsFaultOnlyOnBadRelease : Prop :=
  ∀ (i : Instr) (s : State), s.HdrInv →
    (∃ t, exec i s = .next t) ∨
    (∃ base, i = .free base ∧ exec i s = .fault .badRelease ∧ s.x[base] ≠ 0 ∧ ∀ r ∈ s.live, r.base ≠ s.x[base].toNat) ∨
    (∃ rd rw rh rc size b rest, ∃ n : Nat, i = .alloc rd rw rh rc size ∧ exec i s = .refused .allocContract ∧
      s.answers = .ok b :: rest ∧ 0 < s.x[rw].toInt ∧ 0 < s.x[rh].toInt ∧ (s.x[rc].toInt = 1 ∨ s.x[rc].toInt = 3) ∧
      (n : Int) = s.x[rw].toInt * s.x[rh].toInt * s.x[rc].toInt * (match size with | .half => 2 | .float => 4) ∧
      s.contractOk b n = false)

/-! ## Invariants of the machine -/

/-- R34: PENDING is not none exactly when STATUS.BUSY = 1, and every step keeps it so. -/
def Obligations.StepKeepsBusyWithPending : Prop :=
  ∀ s t : State, s.BusyInv → step s = .next t → t.BusyInv

/-- R132: LASTCODE never holds OPEN_FAILURE, WRITE_FAILURE or a reserved code: every step keeps it so. -/
def Obligations.StepReportsOnlyReportedCodes : Prop :=
  ∀ s t : State, s.CodeInv → step s = .next t → t.CodeInv

/-- Every step keeps buffer memory in its canonical form, with existing addresses only (R36; the form is the model's
choice, log entry 3). -/
def Obligations.StepKeepsMemoryCanonical : Prop :=
  ∀ s t : State, s.MemInv → s.HdrInv → step s = .next t → t.MemInv

/-- Every step keeps the header invariants of R109 and R114 while a header is valid. -/
def Obligations.StepKeepsHeaderInvariant : Prop :=
  ∀ s t : State, s.HdrInv → step s = .next t → t.HdrInv

/-- Every step keeps the live allocations within the allocator's contract (R51): non-zero aligned bases, inside memory,
apart from each other. -/
def Obligations.StepKeepsLiveAllocationsApart : Prop :=
  ∀ s t : State, s.LiveInv → step s = .next t → t.LiveInv

/-- Every step keeps the race record to accesses of the running command's bytes, so that it is empty while the CORE is
idle (R56; the record is the model's own, log entry 8). -/
def Obligations.StepKeepsTheRaceRecord : Prop :=
  ∀ s t : State, s.BusyInv → s.RaceInv → step s = .next t → t.RaceInv

/-- The state after reset meets every invariant, whatever the open parameters. -/
def Obligations.ResetMeetsEveryInvariant : Prop :=
  State.reset.BusyInv ∧ State.reset.CodeInv ∧ State.reset.MemInv ∧ State.reset.HdrInv ∧ State.reset.LiveInv ∧
    State.reset.RaceInv

/-- R17: ERR is set by the completion of any command whose code is not OK, left by one that completes with OK, and
cleared by a host write of 1 to bit 1 of STATUS and by reset, and by nothing else. -/
def Obligations.ErrIsSticky : Prop :=
  (∀ (s s₀ t : State) (w : Word), CoreMoves s s₀ → s.pending = some w → step s = .next t →
    (t.status.lastcode ≠ 0 → t.status.err = true) ∧ (t.status.lastcode = 0 → t.status.err = s.status.err)) ∧
  (∀ (s : State) (v : Word), v.getLsbD 1 = true →
    ∃ t, hostMmioWrite 0x04 .word v s = .next t ∧ t.status.err = false) ∧
  (∀ (s t : State) (took : Bool), hostReset took s = .next t → t.status.err = false) ∧
  (∀ s t : State, step s = .next t → s.status.err = true → t.status.err = false →
    (∃ v rest, s.schedule = .mmioWrite 0x04 .word v :: rest ∧ v.getLsbD 1 = true) ∨
    (∃ took rest, s.schedule = .reset took :: rest))

/-- R18: CMDOVR is set exactly by a host write of CMD, CONFIG or an X register while BUSY = 1, which is dropped and
changes nothing else, LASTCODE and ERR among it; it is cleared by a host write of 1 to bit 2 of STATUS and by reset,
and by nothing else. -/
def Obligations.CmdovrIsSticky : Prop :=
  (∀ (s : State) (off : BitVec 8) (v : Word), s.status.busy = true → off.toNat % 4 = 0 →
    (off = 0x08 ∨ off = 0x0C ∨ (0x40 ≤ off.toNat ∧ off.toNat < 0x60)) →
    hostMmioWrite off .word v s = .next { s with status := { s.status with cmdovr := true } }) ∧
  (∀ s t : State, step s = .next t → s.status.cmdovr = false → t.status.cmdovr = true →
    s.status.busy = true ∧ ∃ off width v rest, s.schedule = .mmioWrite off width v :: rest ∧
      (off = 0x08 ∨ off = 0x0C ∨ (0x40 ≤ off.toNat ∧ off.toNat < 0x60))) ∧
  (∀ (s : State) (v : Word), v.getLsbD 2 = true →
    ∃ t, hostMmioWrite 0x04 .word v s = .next t ∧ t.status.cmdovr = false) ∧
  (∀ (s t : State) (took : Bool), hostReset took s = .next t → t.status.cmdovr = false) ∧
  (∀ s t : State, step s = .next t → s.status.cmdovr = true → t.status.cmdovr = false →
    (∃ v rest, s.schedule = .mmioWrite 0x04 .word v :: rest ∧ v.getLsbD 2 = true) ∨
    (∃ took rest, s.schedule = .reset took :: rest))

/-! ## The host's accesses -/

/-- R124: a host MMIO write, row by row: the read-only and reserved offsets ignore it; STATUS clears ERR and CMDOVR by
ones, while BUSY too; CONFIG takes bit 0, an X register the word, CMD issues it (R125), while BUSY = 0; while BUSY = 1
those three are dropped and CMDOVR is set. -/
def Obligations.HostWriteTable : Prop :=
  ∀ (s : State) (v : Word),
    (∀ off : BitVec 8, off.toNat % 4 = 0 →
      (off = 0x00 ∨ (0x10 ≤ off.toNat ∧ off.toNat < 0x40) ∨ 0x60 ≤ off.toNat) →
      hostMmioWrite off .word v s = .next s) ∧
    hostMmioWrite 0x04 .word v s = .next { s with status :=
      { busy := s.status.busy
        err := if v.getLsbD 1 then false else s.status.err
        cmdovr := if v.getLsbD 2 then false else s.status.cmdovr
        lastcode := s.status.lastcode } } ∧
    (s.status.busy = false →
      hostMmioWrite 0x08 .word v s = .next { s with hostBe := v.getLsbD 0 } ∧
      hostMmioWrite 0x0C .word v s = .next { s with pending := some v, status := { s.status with busy := true } } ∧
      (∀ i : XReg, hostMmioWrite (BitVec.ofNat 8 (0x40 + 4 * i.val)) .word v s = .next { s with x := s.x.set i v })) ∧
    (s.status.busy = true → ∀ off : BitVec 8, off.toNat % 4 = 0 →
      (off = 0x08 ∨ off = 0x0C ∨ (0x40 ≤ off.toNat ∧ off.toNat < 0x60)) →
      hostMmioWrite off .word v s = .next { s with status := { s.status with cmdovr := true } })

/-- R123: a host MMIO read while idle returns the register at the offset, 0 for CMD and the reserved offsets; while
BUSY = 1 ID and STATUS are exact and any other read returns a free value (U2); no read changes the machine. -/
def Obligations.HostReadTable : Prop :=
  ∀ (s : State) (off : BitVec 8), off.toNat % 4 = 0 →
    ∃ v : Word, (∃ t, hostMmioRead off .word s = .next t ∧ t = { s with hostRx := v, reads := t.reads }) ∧
      (off = 0x00 → v = 0x50484D01) ∧
      (off = 0x04 → v.toNat = s.status.lastcode.toNat * 2 ^ 8 + s.status.cmdovr.toNat * 2 ^ 2 +
        s.status.err.toNat * 2 + s.status.busy.toNat) ∧
      (s.status.busy = true → off ≠ 0x00 → off ≠ 0x04 → v = Config.busyReadWord s.reads) ∧
      (s.status.busy = false →
        (off = 0x08 → v.toNat = s.hostBe.toNat) ∧ (off = 0x0C → v = 0) ∧
        (off = 0x10 → v = s.hdrWidth) ∧ (off = 0x14 → v = s.hdrHeight) ∧ (off = 0x18 → v = s.hdrChannels) ∧
        (off = 0x1C → v.toNat = s.hdrInfo.storedBe.toNat * 2 + s.hdrInfo.valid.toNat) ∧
        (off = 0x20 → v = s.hdrLen) ∧ (off = 0x24 → v = s.hdrPbase) ∧ (off = 0x28 → v = s.hdrPavail) ∧
        (off = 0x2C → v = s.allocBase) ∧ (off = 0x30 → v = s.allocCount) ∧ (off = 0x34 → v = s.allocBytes) ∧
        (∀ i : XReg, off.toNat = 0x40 + 4 * i.val → v = s.x[i]) ∧
        (off = 0x38 ∨ off = 0x3C ∨ 0x60 ≤ off.toNat → v = 0))

/-- R127: an MMIO access that is not a 32-bit access at a multiple of 4 is refused, read or write. -/
def Obligations.MmioRefusesOtherWidths : Prop :=
  ∀ (s : State) (off : BitVec 8) (width : AccessWidth) (v : Word), width ≠ .word ∨ off.toNat % 4 ≠ 0 →
    hostMmioRead off width s = .refused .mmioAccess ∧ hostMmioWrite off width v s = .refused .mmioAccess

/-- R55, R56: a host access to a byte of buffer memory that does not race is exact and changes nothing but that byte;
one that races reads a free value (U3) and is recorded; an address that does not exist faults (log entry 12). -/
def Obligations.HostMemoryAccess : Prop :=
  ∀ (s : State) (addr : Word) (b : Byte),
    (addr.toNat < s.memBytes → s.races addr.toNat = false →
      hostMemRead addr s = .next { s with hostRx := BitVec.ofNat 32 (s.byteAt addr.toNat).toNat } ∧
      ∃ t, hostMemWrite addr b s = .next t ∧ t = { s with mem := t.mem } ∧ t.byteAt addr.toNat = b ∧
        ∀ c, c ≠ addr.toNat → t.byteAt c = s.byteAt c) ∧
    (addr.toNat < s.memBytes → s.races addr.toNat = true →
      hostMemRead addr s = .next { s with
        hostRx := BitVec.ofNat 32 (Config.hostRaceByte s.reads addr.toNat).toNat
        touched := ⟨addr.toNat, false⟩ :: s.touched, reads := s.reads + 1 } ∧
      ∃ t, hostMemWrite addr b s = .next t ∧ t = { s with mem := t.mem, touched := ⟨addr.toNat, true⟩ :: s.touched } ∧
        t.byteAt addr.toNat = b ∧ ∀ c, c ≠ addr.toNat → t.byteAt c = s.byteAt c) ∧
    (s.memBytes ≤ addr.toNat →
      hostMemRead addr s = .fault .noSuchAddress ∧ hostMemWrite addr b s = .fault .noSuchAddress)

/-! ## Reset -/

/-- R142, R143: reset, at any time, sets every piece of CORE state to the value of the table and changes nothing of
the host; of an idle CORE it always succeeds and changes no byte of buffer memory and nothing of the allocator. A
PAYLOAD.IN after it raises INVALID_ARGUMENT. -/
def Obligations.ResetValues : Prop :=
  ∀ (s : State) (took : Bool),
    (∀ t, hostReset took s = .next t →
      t = { State.reset with
        params := s.params, hostBe := s.params.hostBeReset, mem := t.mem, live := t.live, hostRegions := s.hostRegions,
        answers := t.answers, schedule := s.schedule, hostRx := s.hostRx, tick := t.tick, reads := s.reads } ∧
      t.x = Vector.replicate 8 0 ∧ t.status = { busy := false, err := false, cmdovr := false, lastcode := 0 } ∧
      t.hdrInfo = { valid := false, storedBe := false } ∧ t.pending = none ∧
      ∀ dst count : XReg, ∃ u, exec (.payloadIn dst count) t = .next u ∧ u.status.lastcode = 1) ∧
    (s.pending = none → ∃ t, hostReset took s = .next t ∧ t.mem = s.mem ∧ t.live = s.live ∧ t.answers = s.answers)

/-- R144: reset while a command is pending abandons it: it never completes and LASTCODE is 0. Every byte it would have
written holds a free value (U8), every other byte is unchanged; the live set is as it was, but that a FREE may have
released its base and an ALLOC may have made one allocation, of the bytes it asks for, that meets the contract. Where
those took no effect (`took` false, a draw), and for an illegal word, reset always succeeds. -/
def Obligations.ResetAbandonsThePendingCommand : Prop :=
  (∀ (s : State) (w : Word), s.pending = some w →
    (∃ t, hostReset false s = .next t) ∧
    ∀ (why : Illegal) (took : Bool), decode w = .illegal why → ∃ t, hostReset took s = .next t ∧ t.pending = none ∧
      t.status = { busy := false, err := false, cmdovr := false, lastcode := 0 } ∧ t.mem = s.mem ∧ t.live = s.live) ∧
  ∀ (s t : State) (took : Bool) (w : Word) (i : Instr), s.pending = some w → decode w = .legal i →
    hostReset took s = .next t →
    t.pending = none ∧ t.status = { busy := false, err := false, cmdovr := false, lastcode := 0 } ∧
    (∀ c, t.byteAt c = if inRegions (footprint i s).writes c then Config.resetLeftByte s.tick c else s.byteAt c) ∧
    (t.live = s.live ∨
      (took = true ∧ ∃ base, i = .free base ∧ ∀ q : Region, q ∈ t.live ↔ (q ∈ s.live ∧ q.base ≠ s.x[base].toNat)) ∨
      (took = true ∧ ∃ rd rw rh rc size, i = .alloc rd rw rh rc size ∧
        0 < s.x[rw].toInt ∧ 0 < s.x[rh].toInt ∧ (s.x[rc].toInt = 1 ∨ s.x[rc].toInt = 3) ∧
        ∃ (b : Word) (n : Nat),
          (n : Int) = s.x[rw].toInt * s.x[rh].toInt * s.x[rc].toInt * (match size with | .half => 2 | .float => 4) ∧
          n ≤ 2 ^ 32 - 1 ∧ s.contractOk b n = true ∧ t.live = ⟨b.toNat, n⟩ :: s.live))
end

