-- ==== Sys2Proof/Laws/Memory.lean ====
section
/-! SUPPORT. Buffer memory as data: what a write changes, and that it keeps the canonical form. -/
namespace Sys2Proof.Machine

@[simp] theorem Memory.find?_nil (a : Nat) : Memory.find? [] a = none := rfl

theorem Memory.find?_cons (a' a : Nat) (b : Byte) (m : Memory) :
    Memory.find? ((a', b) :: m) a = if a' = a then some b else Memory.find? m a := rfl

/-- A byte reads what was last written to it. -/
@[simp] theorem Memory.find?_put_same (m : Memory) (a : Nat) (b : Byte) :
    Memory.find? (Memory.put m a b) a = some b := by
  induction m with
  | nil => simp [Memory.put, Memory.find?]
  | cons c m ih =>
    obtain ⟨a', b'⟩ := c
    unfold Memory.put
    split
    · simp [Memory.find?]
    · split
      · simp [Memory.find?]
      · rename_i _ hne
        rw [Memory.find?_cons, if_neg (fun e => hne e.symm), ih]

/-- A write leaves every other byte alone. -/
theorem Memory.find?_put_other (m : Memory) (a c : Nat) (b : Byte) (h : c ≠ a) :
    Memory.find? (Memory.put m a b) c = Memory.find? m c := by
  induction m with
  | nil => simp [Memory.put, Memory.find?, h.symm]
  | cons d m ih =>
    obtain ⟨a', b'⟩ := d
    unfold Memory.put
    split
    · simp [Memory.find?, h.symm]
    · split
      · rename_i _ e
        subst e
        simp [Memory.find?, h.symm]
      · rw [Memory.find?_cons, ih, Memory.find?_cons]

/-- What a write may list. -/
theorem Memory.mem_put (m : Memory) (a : Nat) (b : Byte) (c : Host.Cell) (h : c ∈ Memory.put m a b) :
    c = (a, b) ∨ c ∈ m := by
  induction m with
  | nil => simpa [Memory.put] using h
  | cons d m ih =>
    obtain ⟨a', b'⟩ := d
    unfold Memory.put at h
    split at h
    · simpa using h
    · split at h
      · simp only [List.mem_cons] at h ⊢
        tauto
      · simp only [List.mem_cons] at h ⊢
        rcases h with h | h
        · exact .inr (.inl h)
        · rcases ih h with h | h
          · exact .inl h
          · exact .inr (.inr h)

theorem Memory.wf_cons (a : Nat) (b : Byte) (m : Memory) :
    Memory.wf ((a, b) :: m) = true ↔ (∀ c ∈ m, a < c.1) ∧ Memory.wf m = true := by
  simp [Memory.wf]

/-- A write keeps the canonical form. -/
theorem Memory.wf_put (m : Memory) (a : Nat) (b : Byte) (h : Memory.wf m = true) :
    Memory.wf (Memory.put m a b) = true := by
  induction m with
  | nil => simp [Memory.put, Memory.wf]
  | cons d m ih =>
    obtain ⟨a', b'⟩ := d
    have ⟨hlt, hm⟩ := (Memory.wf_cons a' b' m).mp h
    unfold Memory.put
    split
    · rename_i ha
      refine (Memory.wf_cons _ _ _).mpr ⟨?_, h⟩
      intro c hc
      rcases List.mem_cons.mp hc with rfl | hc
      · exact ha
      · exact Nat.lt_trans ha (hlt c hc)
    · split
      · rename_i _ e
        subst e
        exact (Memory.wf_cons _ _ _).mpr ⟨hlt, hm⟩
      · rename_i h1 h2
        refine (Memory.wf_cons _ _ _).mpr ⟨?_, ih hm⟩
        intro c hc
        rcases Memory.mem_put m a b c hc with rfl | hc
        · simp only; omega
        · exact hlt c hc

/-- A write lists addresses below a bound if the memory did and the address is. -/
theorem Memory.below_put (m : Memory) (a : Nat) (b : Byte) (n : Nat) (hm : ∀ c ∈ m, c.1 < n) (ha : a < n) :
    ∀ c ∈ Memory.put m a b, c.1 < n := by
  intro c hc
  rcases Memory.mem_put m a b c hc with rfl | hc
  · exact ha
  · exact hm c hc

theorem Memory.find?_eq_none_of_lt (m : Memory) (a : Nat) (h : ∀ c ∈ m, a < c.1) : Memory.find? m a = none := by
  induction m with
  | nil => rfl
  | cons d m ih =>
    obtain ⟨a', b'⟩ := d
    have h1 : a < a' := h (a', b') (by simp)
    rw [Memory.find?_cons, if_neg (by omega)]
    exact ih fun c hc => h c (by simp [hc])

/-- Equal memories are equal data: two memories in canonical form that read the same at every address are the same
list. -/
theorem Memory.ext_of_wf (m n : Memory) (hm : Memory.wf m = true) (hn : Memory.wf n = true)
    (h : ∀ a, Memory.find? m a = Memory.find? n a) : m = n := by
  induction m generalizing n with
  | nil =>
    cases n with
    | nil => rfl
    | cons d n =>
      obtain ⟨a', b'⟩ := d
      simpa [Memory.find?] using h a'
  | cons c m ih =>
    obtain ⟨a, b⟩ := c
    cases n with
    | nil => simpa [Memory.find?] using h a
    | cons d n =>
      obtain ⟨a', b'⟩ := d
      have ⟨hlm, hwm⟩ := (Memory.wf_cons a b m).mp hm
      have ⟨hln, hwn⟩ := (Memory.wf_cons a' b' n).mp hn
      have haa : a = a' := by
        by_contra hne
        rcases Nat.lt_or_gt_of_ne hne with hlt | hlt
        · have := h a
          rw [Memory.find?_cons, if_pos rfl,
            Memory.find?_eq_none_of_lt ((a', b') :: n) a (by
              intro c hc
              rcases List.mem_cons.mp hc with rfl | hc
              · exact hlt
              · exact Nat.lt_trans hlt (hln c hc))] at this
          simp at this
        · have := h a'
          rw [Memory.find?_eq_none_of_lt ((a, b) :: m) a' (by
              intro c hc
              rcases List.mem_cons.mp hc with rfl | hc
              · exact hlt
              · exact Nat.lt_trans hlt (hlm c hc)), Memory.find?_cons, if_pos rfl] at this
          simp at this
      subst haa
      have hb : b = b' := by simpa [Memory.find?] using h a
      subst hb
      congr 1
      refine ih n hwm hwn fun c => ?_
      by_cases hc : a = c
      · subst hc
        rw [Memory.find?_eq_none_of_lt m a hlm, Memory.find?_eq_none_of_lt n a hln]
      · simpa [Memory.find?, hc] using h c

end Sys2Proof.Machine
end

