-- ==== Sys2Proof/Laws/State.lean ====
section
/-! SUPPORT. One lemma per field of State for each named update, all true by rfl, so that no proof unfolds a record update. The updates of memory alone (settle, memWrite, ascending loops) are in Laws/Bytes.lean. -/
namespace Sys2Proof.Machine

/-! ## setX -/

@[simp] theorem State.setX_params (s : State) (i : XReg) (v : Word) : (s.setX i v).params = s.params := rfl
@[simp] theorem State.setX_x (s : State) (i : XReg) (v : Word) : (s.setX i v).x = s.x.set i v := rfl
@[simp] theorem State.setX_status (s : State) (i : XReg) (v : Word) : (s.setX i v).status = s.status := rfl
@[simp] theorem State.setX_hostBe (s : State) (i : XReg) (v : Word) : (s.setX i v).hostBe = s.hostBe := rfl
@[simp] theorem State.setX_hdrWidth (s : State) (i : XReg) (v : Word) : (s.setX i v).hdrWidth = s.hdrWidth := rfl
@[simp] theorem State.setX_hdrHeight (s : State) (i : XReg) (v : Word) : (s.setX i v).hdrHeight = s.hdrHeight := rfl
@[simp] theorem State.setX_hdrChannels (s : State) (i : XReg) (v : Word) : (s.setX i v).hdrChannels = s.hdrChannels := rfl
@[simp] theorem State.setX_hdrInfo (s : State) (i : XReg) (v : Word) : (s.setX i v).hdrInfo = s.hdrInfo := rfl
@[simp] theorem State.setX_hdrLen (s : State) (i : XReg) (v : Word) : (s.setX i v).hdrLen = s.hdrLen := rfl
@[simp] theorem State.setX_hdrPbase (s : State) (i : XReg) (v : Word) : (s.setX i v).hdrPbase = s.hdrPbase := rfl
@[simp] theorem State.setX_hdrPavail (s : State) (i : XReg) (v : Word) : (s.setX i v).hdrPavail = s.hdrPavail := rfl
@[simp] theorem State.setX_allocBase (s : State) (i : XReg) (v : Word) : (s.setX i v).allocBase = s.allocBase := rfl
@[simp] theorem State.setX_allocCount (s : State) (i : XReg) (v : Word) : (s.setX i v).allocCount = s.allocCount := rfl
@[simp] theorem State.setX_allocBytes (s : State) (i : XReg) (v : Word) : (s.setX i v).allocBytes = s.allocBytes := rfl
@[simp] theorem State.setX_pending (s : State) (i : XReg) (v : Word) : (s.setX i v).pending = s.pending := rfl
@[simp] theorem State.setX_mem (s : State) (i : XReg) (v : Word) : (s.setX i v).mem = s.mem := rfl
@[simp] theorem State.setX_live (s : State) (i : XReg) (v : Word) : (s.setX i v).live = s.live := rfl
@[simp] theorem State.setX_hostRegions (s : State) (i : XReg) (v : Word) : (s.setX i v).hostRegions = s.hostRegions := rfl
@[simp] theorem State.setX_answers (s : State) (i : XReg) (v : Word) : (s.setX i v).answers = s.answers := rfl
@[simp] theorem State.setX_schedule (s : State) (i : XReg) (v : Word) : (s.setX i v).schedule = s.schedule := rfl
@[simp] theorem State.setX_hostRx (s : State) (i : XReg) (v : Word) : (s.setX i v).hostRx = s.hostRx := rfl
@[simp] theorem State.setX_touched (s : State) (i : XReg) (v : Word) : (s.setX i v).touched = s.touched := rfl
@[simp] theorem State.setX_tick (s : State) (i : XReg) (v : Word) : (s.setX i v).tick = s.tick := rfl
@[simp] theorem State.setX_reads (s : State) (i : XReg) (v : Word) : (s.setX i v).reads = s.reads := rfl

/-! ## writeByte -/

@[simp] theorem State.writeByte_params (s : State) (a : Nat) (b : Byte) : (s.writeByte a b).params = s.params := rfl
@[simp] theorem State.writeByte_x (s : State) (a : Nat) (b : Byte) : (s.writeByte a b).x = s.x := rfl
@[simp] theorem State.writeByte_status (s : State) (a : Nat) (b : Byte) : (s.writeByte a b).status = s.status := rfl
@[simp] theorem State.writeByte_hostBe (s : State) (a : Nat) (b : Byte) : (s.writeByte a b).hostBe = s.hostBe := rfl
@[simp] theorem State.writeByte_hdrWidth (s : State) (a : Nat) (b : Byte) : (s.writeByte a b).hdrWidth = s.hdrWidth := rfl
@[simp] theorem State.writeByte_hdrHeight (s : State) (a : Nat) (b : Byte) : (s.writeByte a b).hdrHeight = s.hdrHeight := rfl
@[simp] theorem State.writeByte_hdrChannels (s : State) (a : Nat) (b : Byte) : (s.writeByte a b).hdrChannels = s.hdrChannels := rfl
@[simp] theorem State.writeByte_hdrInfo (s : State) (a : Nat) (b : Byte) : (s.writeByte a b).hdrInfo = s.hdrInfo := rfl
@[simp] theorem State.writeByte_hdrLen (s : State) (a : Nat) (b : Byte) : (s.writeByte a b).hdrLen = s.hdrLen := rfl
@[simp] theorem State.writeByte_hdrPbase (s : State) (a : Nat) (b : Byte) : (s.writeByte a b).hdrPbase = s.hdrPbase := rfl
@[simp] theorem State.writeByte_hdrPavail (s : State) (a : Nat) (b : Byte) : (s.writeByte a b).hdrPavail = s.hdrPavail := rfl
@[simp] theorem State.writeByte_allocBase (s : State) (a : Nat) (b : Byte) : (s.writeByte a b).allocBase = s.allocBase := rfl
@[simp] theorem State.writeByte_allocCount (s : State) (a : Nat) (b : Byte) : (s.writeByte a b).allocCount = s.allocCount := rfl
@[simp] theorem State.writeByte_allocBytes (s : State) (a : Nat) (b : Byte) : (s.writeByte a b).allocBytes = s.allocBytes := rfl
@[simp] theorem State.writeByte_pending (s : State) (a : Nat) (b : Byte) : (s.writeByte a b).pending = s.pending := rfl
@[simp] theorem State.writeByte_mem (s : State) (a : Nat) (b : Byte) : (s.writeByte a b).mem = Memory.put s.mem a b := rfl
@[simp] theorem State.writeByte_live (s : State) (a : Nat) (b : Byte) : (s.writeByte a b).live = s.live := rfl
@[simp] theorem State.writeByte_hostRegions (s : State) (a : Nat) (b : Byte) : (s.writeByte a b).hostRegions = s.hostRegions := rfl
@[simp] theorem State.writeByte_answers (s : State) (a : Nat) (b : Byte) : (s.writeByte a b).answers = s.answers := rfl
@[simp] theorem State.writeByte_schedule (s : State) (a : Nat) (b : Byte) : (s.writeByte a b).schedule = s.schedule := rfl
@[simp] theorem State.writeByte_hostRx (s : State) (a : Nat) (b : Byte) : (s.writeByte a b).hostRx = s.hostRx := rfl
@[simp] theorem State.writeByte_touched (s : State) (a : Nat) (b : Byte) : (s.writeByte a b).touched = s.touched := rfl
@[simp] theorem State.writeByte_tick (s : State) (a : Nat) (b : Byte) : (s.writeByte a b).tick = s.tick := rfl
@[simp] theorem State.writeByte_reads (s : State) (a : Nat) (b : Byte) : (s.writeByte a b).reads = s.reads := rfl

/-! ## finish -/

@[simp] theorem State.finish_params (s : State) (c : ResultCode) : (s.finish c).params = s.params := rfl
@[simp] theorem State.finish_x (s : State) (c : ResultCode) : (s.finish c).x = s.x := rfl
@[simp] theorem State.finish_status (s : State) (c : ResultCode) : (s.finish c).status = s.status.complete c := rfl
@[simp] theorem State.finish_hostBe (s : State) (c : ResultCode) : (s.finish c).hostBe = s.hostBe := rfl
@[simp] theorem State.finish_hdrWidth (s : State) (c : ResultCode) : (s.finish c).hdrWidth = s.hdrWidth := rfl
@[simp] theorem State.finish_hdrHeight (s : State) (c : ResultCode) : (s.finish c).hdrHeight = s.hdrHeight := rfl
@[simp] theorem State.finish_hdrChannels (s : State) (c : ResultCode) : (s.finish c).hdrChannels = s.hdrChannels := rfl
@[simp] theorem State.finish_hdrInfo (s : State) (c : ResultCode) : (s.finish c).hdrInfo = s.hdrInfo := rfl
@[simp] theorem State.finish_hdrLen (s : State) (c : ResultCode) : (s.finish c).hdrLen = s.hdrLen := rfl
@[simp] theorem State.finish_hdrPbase (s : State) (c : ResultCode) : (s.finish c).hdrPbase = s.hdrPbase := rfl
@[simp] theorem State.finish_hdrPavail (s : State) (c : ResultCode) : (s.finish c).hdrPavail = s.hdrPavail := rfl
@[simp] theorem State.finish_allocBase (s : State) (c : ResultCode) : (s.finish c).allocBase = s.allocBase := rfl
@[simp] theorem State.finish_allocCount (s : State) (c : ResultCode) : (s.finish c).allocCount = s.allocCount := rfl
@[simp] theorem State.finish_allocBytes (s : State) (c : ResultCode) : (s.finish c).allocBytes = s.allocBytes := rfl
@[simp] theorem State.finish_pending (s : State) (c : ResultCode) : (s.finish c).pending = none := rfl
@[simp] theorem State.finish_mem (s : State) (c : ResultCode) : (s.finish c).mem = s.mem := rfl
@[simp] theorem State.finish_live (s : State) (c : ResultCode) : (s.finish c).live = s.live := rfl
@[simp] theorem State.finish_hostRegions (s : State) (c : ResultCode) : (s.finish c).hostRegions = s.hostRegions := rfl
@[simp] theorem State.finish_answers (s : State) (c : ResultCode) : (s.finish c).answers = s.answers := rfl
@[simp] theorem State.finish_schedule (s : State) (c : ResultCode) : (s.finish c).schedule = s.schedule := rfl
@[simp] theorem State.finish_hostRx (s : State) (c : ResultCode) : (s.finish c).hostRx = s.hostRx := rfl
@[simp] theorem State.finish_touched (s : State) (c : ResultCode) : (s.finish c).touched = [] := rfl
@[simp] theorem State.finish_tick (s : State) (c : ResultCode) : (s.finish c).tick = s.tick + 1 := rfl
@[simp] theorem State.finish_reads (s : State) (c : ResultCode) : (s.finish c).reads = s.reads := rfl

/-! ## invalidate -/

@[simp] theorem State.invalidate_params (s : State) : s.invalidate.params = s.params := rfl
@[simp] theorem State.invalidate_x (s : State) : s.invalidate.x = s.x := rfl
@[simp] theorem State.invalidate_status (s : State) : s.invalidate.status = s.status := rfl
@[simp] theorem State.invalidate_hostBe (s : State) : s.invalidate.hostBe = s.hostBe := rfl
@[simp] theorem State.invalidate_hdrWidth (s : State) : s.invalidate.hdrWidth = s.hdrWidth := rfl
@[simp] theorem State.invalidate_hdrHeight (s : State) : s.invalidate.hdrHeight = s.hdrHeight := rfl
@[simp] theorem State.invalidate_hdrChannels (s : State) : s.invalidate.hdrChannels = s.hdrChannels := rfl
@[simp] theorem State.invalidate_hdrInfo (s : State) : s.invalidate.hdrInfo = { s.hdrInfo with valid := false } := rfl
@[simp] theorem State.invalidate_hdrLen (s : State) : s.invalidate.hdrLen = s.hdrLen := rfl
@[simp] theorem State.invalidate_hdrPbase (s : State) : s.invalidate.hdrPbase = s.hdrPbase := rfl
@[simp] theorem State.invalidate_hdrPavail (s : State) : s.invalidate.hdrPavail = s.hdrPavail := rfl
@[simp] theorem State.invalidate_allocBase (s : State) : s.invalidate.allocBase = s.allocBase := rfl
@[simp] theorem State.invalidate_allocCount (s : State) : s.invalidate.allocCount = s.allocCount := rfl
@[simp] theorem State.invalidate_allocBytes (s : State) : s.invalidate.allocBytes = s.allocBytes := rfl
@[simp] theorem State.invalidate_pending (s : State) : s.invalidate.pending = s.pending := rfl
@[simp] theorem State.invalidate_mem (s : State) : s.invalidate.mem = s.mem := rfl
@[simp] theorem State.invalidate_live (s : State) : s.invalidate.live = s.live := rfl
@[simp] theorem State.invalidate_hostRegions (s : State) : s.invalidate.hostRegions = s.hostRegions := rfl
@[simp] theorem State.invalidate_answers (s : State) : s.invalidate.answers = s.answers := rfl
@[simp] theorem State.invalidate_schedule (s : State) : s.invalidate.schedule = s.schedule := rfl
@[simp] theorem State.invalidate_hostRx (s : State) : s.invalidate.hostRx = s.hostRx := rfl
@[simp] theorem State.invalidate_touched (s : State) : s.invalidate.touched = s.touched := rfl
@[simp] theorem State.invalidate_tick (s : State) : s.invalidate.tick = s.tick := rfl
@[simp] theorem State.invalidate_reads (s : State) : s.invalidate.reads = s.reads := rfl

/-! ## setHeader -/

@[simp] theorem State.setHeader_params (s : State) (h : Header) (base len k : Nat) : (s.setHeader h base len k).params = s.params := rfl
@[simp] theorem State.setHeader_x (s : State) (h : Header) (base len k : Nat) : (s.setHeader h base len k).x = s.x := rfl
@[simp] theorem State.setHeader_status (s : State) (h : Header) (base len k : Nat) : (s.setHeader h base len k).status = s.status := rfl
@[simp] theorem State.setHeader_hostBe (s : State) (h : Header) (base len k : Nat) : (s.setHeader h base len k).hostBe = s.hostBe := rfl
@[simp] theorem State.setHeader_hdrWidth (s : State) (h : Header) (base len k : Nat) : (s.setHeader h base len k).hdrWidth = BitVec.ofNat 32 h.width := rfl
@[simp] theorem State.setHeader_hdrHeight (s : State) (h : Header) (base len k : Nat) : (s.setHeader h base len k).hdrHeight = BitVec.ofNat 32 h.height := rfl
@[simp] theorem State.setHeader_hdrChannels (s : State) (h : Header) (base len k : Nat) : (s.setHeader h base len k).hdrChannels = BitVec.ofNat 32 h.channels := rfl
@[simp] theorem State.setHeader_hdrInfo (s : State) (h : Header) (base len k : Nat) : (s.setHeader h base len k).hdrInfo = { valid := true, storedBe := h.storedBe } := rfl
@[simp] theorem State.setHeader_hdrLen (s : State) (h : Header) (base len k : Nat) : (s.setHeader h base len k).hdrLen = BitVec.ofNat 32 k := rfl
@[simp] theorem State.setHeader_hdrPbase (s : State) (h : Header) (base len k : Nat) : (s.setHeader h base len k).hdrPbase = pbaseOf base k := rfl
@[simp] theorem State.setHeader_hdrPavail (s : State) (h : Header) (base len k : Nat) : (s.setHeader h base len k).hdrPavail = BitVec.ofNat 32 (len - k) := rfl
@[simp] theorem State.setHeader_allocBase (s : State) (h : Header) (base len k : Nat) : (s.setHeader h base len k).allocBase = s.allocBase := rfl
@[simp] theorem State.setHeader_allocCount (s : State) (h : Header) (base len k : Nat) : (s.setHeader h base len k).allocCount = s.allocCount := rfl
@[simp] theorem State.setHeader_allocBytes (s : State) (h : Header) (base len k : Nat) : (s.setHeader h base len k).allocBytes = s.allocBytes := rfl
@[simp] theorem State.setHeader_pending (s : State) (h : Header) (base len k : Nat) : (s.setHeader h base len k).pending = s.pending := rfl
@[simp] theorem State.setHeader_mem (s : State) (h : Header) (base len k : Nat) : (s.setHeader h base len k).mem = s.mem := rfl
@[simp] theorem State.setHeader_live (s : State) (h : Header) (base len k : Nat) : (s.setHeader h base len k).live = s.live := rfl
@[simp] theorem State.setHeader_hostRegions (s : State) (h : Header) (base len k : Nat) : (s.setHeader h base len k).hostRegions = s.hostRegions := rfl
@[simp] theorem State.setHeader_answers (s : State) (h : Header) (base len k : Nat) : (s.setHeader h base len k).answers = s.answers := rfl
@[simp] theorem State.setHeader_schedule (s : State) (h : Header) (base len k : Nat) : (s.setHeader h base len k).schedule = s.schedule := rfl
@[simp] theorem State.setHeader_hostRx (s : State) (h : Header) (base len k : Nat) : (s.setHeader h base len k).hostRx = s.hostRx := rfl
@[simp] theorem State.setHeader_touched (s : State) (h : Header) (base len k : Nat) : (s.setHeader h base len k).touched = s.touched := rfl
@[simp] theorem State.setHeader_tick (s : State) (h : Header) (base len k : Nat) : (s.setHeader h base len k).tick = s.tick := rfl
@[simp] theorem State.setHeader_reads (s : State) (h : Header) (base len k : Nat) : (s.setHeader h base len k).reads = s.reads := rfl

/-! ## setAlloc -/

@[simp] theorem State.setAlloc_params (s : State) (b : Word) (count bytes : Nat) : (s.setAlloc b count bytes).params = s.params := rfl
@[simp] theorem State.setAlloc_x (s : State) (b : Word) (count bytes : Nat) : (s.setAlloc b count bytes).x = s.x := rfl
@[simp] theorem State.setAlloc_status (s : State) (b : Word) (count bytes : Nat) : (s.setAlloc b count bytes).status = s.status := rfl
@[simp] theorem State.setAlloc_hostBe (s : State) (b : Word) (count bytes : Nat) : (s.setAlloc b count bytes).hostBe = s.hostBe := rfl
@[simp] theorem State.setAlloc_hdrWidth (s : State) (b : Word) (count bytes : Nat) : (s.setAlloc b count bytes).hdrWidth = s.hdrWidth := rfl
@[simp] theorem State.setAlloc_hdrHeight (s : State) (b : Word) (count bytes : Nat) : (s.setAlloc b count bytes).hdrHeight = s.hdrHeight := rfl
@[simp] theorem State.setAlloc_hdrChannels (s : State) (b : Word) (count bytes : Nat) : (s.setAlloc b count bytes).hdrChannels = s.hdrChannels := rfl
@[simp] theorem State.setAlloc_hdrInfo (s : State) (b : Word) (count bytes : Nat) : (s.setAlloc b count bytes).hdrInfo = s.hdrInfo := rfl
@[simp] theorem State.setAlloc_hdrLen (s : State) (b : Word) (count bytes : Nat) : (s.setAlloc b count bytes).hdrLen = s.hdrLen := rfl
@[simp] theorem State.setAlloc_hdrPbase (s : State) (b : Word) (count bytes : Nat) : (s.setAlloc b count bytes).hdrPbase = s.hdrPbase := rfl
@[simp] theorem State.setAlloc_hdrPavail (s : State) (b : Word) (count bytes : Nat) : (s.setAlloc b count bytes).hdrPavail = s.hdrPavail := rfl
@[simp] theorem State.setAlloc_allocBase (s : State) (b : Word) (count bytes : Nat) : (s.setAlloc b count bytes).allocBase = b := rfl
@[simp] theorem State.setAlloc_allocCount (s : State) (b : Word) (count bytes : Nat) : (s.setAlloc b count bytes).allocCount = BitVec.ofNat 32 count := rfl
@[simp] theorem State.setAlloc_allocBytes (s : State) (b : Word) (count bytes : Nat) : (s.setAlloc b count bytes).allocBytes = BitVec.ofNat 32 bytes := rfl
@[simp] theorem State.setAlloc_pending (s : State) (b : Word) (count bytes : Nat) : (s.setAlloc b count bytes).pending = s.pending := rfl
@[simp] theorem State.setAlloc_mem (s : State) (b : Word) (count bytes : Nat) : (s.setAlloc b count bytes).mem = s.mem := rfl
@[simp] theorem State.setAlloc_live (s : State) (b : Word) (count bytes : Nat) : (s.setAlloc b count bytes).live = s.live := rfl
@[simp] theorem State.setAlloc_hostRegions (s : State) (b : Word) (count bytes : Nat) : (s.setAlloc b count bytes).hostRegions = s.hostRegions := rfl
@[simp] theorem State.setAlloc_answers (s : State) (b : Word) (count bytes : Nat) : (s.setAlloc b count bytes).answers = s.answers := rfl
@[simp] theorem State.setAlloc_schedule (s : State) (b : Word) (count bytes : Nat) : (s.setAlloc b count bytes).schedule = s.schedule := rfl
@[simp] theorem State.setAlloc_hostRx (s : State) (b : Word) (count bytes : Nat) : (s.setAlloc b count bytes).hostRx = s.hostRx := rfl
@[simp] theorem State.setAlloc_touched (s : State) (b : Word) (count bytes : Nat) : (s.setAlloc b count bytes).touched = s.touched := rfl
@[simp] theorem State.setAlloc_tick (s : State) (b : Word) (count bytes : Nat) : (s.setAlloc b count bytes).tick = s.tick := rfl
@[simp] theorem State.setAlloc_reads (s : State) (b : Word) (count bytes : Nat) : (s.setAlloc b count bytes).reads = s.reads := rfl

/-! ## accept -/

@[simp] theorem State.accept_params (s : State) (w : Word) : (s.accept w).params = s.params := rfl
@[simp] theorem State.accept_x (s : State) (w : Word) : (s.accept w).x = s.x := rfl
@[simp] theorem State.accept_status (s : State) (w : Word) : (s.accept w).status = s.status.accept := rfl
@[simp] theorem State.accept_hostBe (s : State) (w : Word) : (s.accept w).hostBe = s.hostBe := rfl
@[simp] theorem State.accept_hdrWidth (s : State) (w : Word) : (s.accept w).hdrWidth = s.hdrWidth := rfl
@[simp] theorem State.accept_hdrHeight (s : State) (w : Word) : (s.accept w).hdrHeight = s.hdrHeight := rfl
@[simp] theorem State.accept_hdrChannels (s : State) (w : Word) : (s.accept w).hdrChannels = s.hdrChannels := rfl
@[simp] theorem State.accept_hdrInfo (s : State) (w : Word) : (s.accept w).hdrInfo = s.hdrInfo := rfl
@[simp] theorem State.accept_hdrLen (s : State) (w : Word) : (s.accept w).hdrLen = s.hdrLen := rfl
@[simp] theorem State.accept_hdrPbase (s : State) (w : Word) : (s.accept w).hdrPbase = s.hdrPbase := rfl
@[simp] theorem State.accept_hdrPavail (s : State) (w : Word) : (s.accept w).hdrPavail = s.hdrPavail := rfl
@[simp] theorem State.accept_allocBase (s : State) (w : Word) : (s.accept w).allocBase = s.allocBase := rfl
@[simp] theorem State.accept_allocCount (s : State) (w : Word) : (s.accept w).allocCount = s.allocCount := rfl
@[simp] theorem State.accept_allocBytes (s : State) (w : Word) : (s.accept w).allocBytes = s.allocBytes := rfl
@[simp] theorem State.accept_pending (s : State) (w : Word) : (s.accept w).pending = some w := rfl
@[simp] theorem State.accept_mem (s : State) (w : Word) : (s.accept w).mem = s.mem := rfl
@[simp] theorem State.accept_live (s : State) (w : Word) : (s.accept w).live = s.live := rfl
@[simp] theorem State.accept_hostRegions (s : State) (w : Word) : (s.accept w).hostRegions = s.hostRegions := rfl
@[simp] theorem State.accept_answers (s : State) (w : Word) : (s.accept w).answers = s.answers := rfl
@[simp] theorem State.accept_schedule (s : State) (w : Word) : (s.accept w).schedule = s.schedule := rfl
@[simp] theorem State.accept_hostRx (s : State) (w : Word) : (s.accept w).hostRx = s.hostRx := rfl
@[simp] theorem State.accept_touched (s : State) (w : Word) : (s.accept w).touched = s.touched := rfl
@[simp] theorem State.accept_tick (s : State) (w : Word) : (s.accept w).tick = s.tick := rfl
@[simp] theorem State.accept_reads (s : State) (w : Word) : (s.accept w).reads = s.reads := rfl

/-! ## overrun -/

@[simp] theorem State.overrun_params (s : State) : s.overrun.params = s.params := rfl
@[simp] theorem State.overrun_x (s : State) : s.overrun.x = s.x := rfl
@[simp] theorem State.overrun_status (s : State) : s.overrun.status = s.status.overrun := rfl
@[simp] theorem State.overrun_hostBe (s : State) : s.overrun.hostBe = s.hostBe := rfl
@[simp] theorem State.overrun_hdrWidth (s : State) : s.overrun.hdrWidth = s.hdrWidth := rfl
@[simp] theorem State.overrun_hdrHeight (s : State) : s.overrun.hdrHeight = s.hdrHeight := rfl
@[simp] theorem State.overrun_hdrChannels (s : State) : s.overrun.hdrChannels = s.hdrChannels := rfl
@[simp] theorem State.overrun_hdrInfo (s : State) : s.overrun.hdrInfo = s.hdrInfo := rfl
@[simp] theorem State.overrun_hdrLen (s : State) : s.overrun.hdrLen = s.hdrLen := rfl
@[simp] theorem State.overrun_hdrPbase (s : State) : s.overrun.hdrPbase = s.hdrPbase := rfl
@[simp] theorem State.overrun_hdrPavail (s : State) : s.overrun.hdrPavail = s.hdrPavail := rfl
@[simp] theorem State.overrun_allocBase (s : State) : s.overrun.allocBase = s.allocBase := rfl
@[simp] theorem State.overrun_allocCount (s : State) : s.overrun.allocCount = s.allocCount := rfl
@[simp] theorem State.overrun_allocBytes (s : State) : s.overrun.allocBytes = s.allocBytes := rfl
@[simp] theorem State.overrun_pending (s : State) : s.overrun.pending = s.pending := rfl
@[simp] theorem State.overrun_mem (s : State) : s.overrun.mem = s.mem := rfl
@[simp] theorem State.overrun_live (s : State) : s.overrun.live = s.live := rfl
@[simp] theorem State.overrun_hostRegions (s : State) : s.overrun.hostRegions = s.hostRegions := rfl
@[simp] theorem State.overrun_answers (s : State) : s.overrun.answers = s.answers := rfl
@[simp] theorem State.overrun_schedule (s : State) : s.overrun.schedule = s.schedule := rfl
@[simp] theorem State.overrun_hostRx (s : State) : s.overrun.hostRx = s.hostRx := rfl
@[simp] theorem State.overrun_touched (s : State) : s.overrun.touched = s.touched := rfl
@[simp] theorem State.overrun_tick (s : State) : s.overrun.tick = s.tick := rfl
@[simp] theorem State.overrun_reads (s : State) : s.overrun.reads = s.reads := rfl

/-! ## resetRegisters -/

@[simp] theorem State.resetRegisters_params (s : State) : s.resetRegisters.params = s.params := rfl
@[simp] theorem State.resetRegisters_x (s : State) : s.resetRegisters.x = Vector.replicate 8 0 := rfl
@[simp] theorem State.resetRegisters_status (s : State) : s.resetRegisters.status = { busy := false, err := false, cmdovr := false, lastcode := 0 } := rfl
@[simp] theorem State.resetRegisters_hostBe (s : State) : s.resetRegisters.hostBe = s.params.hostBeReset := rfl
@[simp] theorem State.resetRegisters_hdrWidth (s : State) : s.resetRegisters.hdrWidth = 0 := rfl
@[simp] theorem State.resetRegisters_hdrHeight (s : State) : s.resetRegisters.hdrHeight = 0 := rfl
@[simp] theorem State.resetRegisters_hdrChannels (s : State) : s.resetRegisters.hdrChannels = 0 := rfl
@[simp] theorem State.resetRegisters_hdrInfo (s : State) : s.resetRegisters.hdrInfo = { valid := false, storedBe := false } := rfl
@[simp] theorem State.resetRegisters_hdrLen (s : State) : s.resetRegisters.hdrLen = 0 := rfl
@[simp] theorem State.resetRegisters_hdrPbase (s : State) : s.resetRegisters.hdrPbase = 0 := rfl
@[simp] theorem State.resetRegisters_hdrPavail (s : State) : s.resetRegisters.hdrPavail = 0 := rfl
@[simp] theorem State.resetRegisters_allocBase (s : State) : s.resetRegisters.allocBase = 0 := rfl
@[simp] theorem State.resetRegisters_allocCount (s : State) : s.resetRegisters.allocCount = 0 := rfl
@[simp] theorem State.resetRegisters_allocBytes (s : State) : s.resetRegisters.allocBytes = 0 := rfl
@[simp] theorem State.resetRegisters_pending (s : State) : s.resetRegisters.pending = none := rfl
@[simp] theorem State.resetRegisters_mem (s : State) : s.resetRegisters.mem = s.mem := rfl
@[simp] theorem State.resetRegisters_live (s : State) : s.resetRegisters.live = s.live := rfl
@[simp] theorem State.resetRegisters_hostRegions (s : State) : s.resetRegisters.hostRegions = s.hostRegions := rfl
@[simp] theorem State.resetRegisters_answers (s : State) : s.resetRegisters.answers = s.answers := rfl
@[simp] theorem State.resetRegisters_schedule (s : State) : s.resetRegisters.schedule = s.schedule := rfl
@[simp] theorem State.resetRegisters_hostRx (s : State) : s.resetRegisters.hostRx = s.hostRx := rfl
@[simp] theorem State.resetRegisters_touched (s : State) : s.resetRegisters.touched = [] := rfl
@[simp] theorem State.resetRegisters_tick (s : State) : s.resetRegisters.tick = s.tick + 1 := rfl
@[simp] theorem State.resetRegisters_reads (s : State) : s.resetRegisters.reads = s.reads := rfl

/-! ## Views -/

@[simp] theorem State.setX_memBytes (s : State) (i : XReg) (v : Word) : (s.setX i v).memBytes = s.memBytes := rfl
@[simp] theorem State.writeByte_memBytes (s : State) (a : Nat) (b : Byte) :
    (s.writeByte a b).memBytes = s.memBytes := rfl
@[simp] theorem State.finish_memBytes (s : State) (c : ResultCode) : (s.finish c).memBytes = s.memBytes := rfl
@[simp] theorem State.setX_byteAt (s : State) (i : XReg) (v : Word) (a : Nat) :
    (s.setX i v).byteAt a = s.byteAt a := rfl
@[simp] theorem State.finish_byteAt (s : State) (c : ResultCode) (a : Nat) :
    (s.finish c).byteAt a = s.byteAt a := rfl
@[simp] theorem State.invalidate_byteAt (s : State) (a : Nat) : s.invalidate.byteAt a = s.byteAt a := rfl
@[simp] theorem State.setHeader_byteAt (s : State) (h : Header) (base len k a : Nat) :
    (s.setHeader h base len k).byteAt a = s.byteAt a := rfl
@[simp] theorem State.setAlloc_byteAt (s : State) (b : Word) (count bytes a : Nat) :
    (s.setAlloc b count bytes).byteAt a = s.byteAt a := rfl
@[simp] theorem State.accept_byteAt (s : State) (w : Word) (a : Nat) : (s.accept w).byteAt a = s.byteAt a := rfl
@[simp] theorem State.resetRegisters_byteAt (s : State) (a : Nat) : s.resetRegisters.byteAt a = s.byteAt a := rfl

/-- A register reads what was last written to it (R12). -/
@[simp] theorem State.getX_setX_same (s : State) (i : XReg) (v : Word) : (s.setX i v).getX i = v := by
  simp [State.getX, State.setX]

/-- A write to one register leaves every other as it was (R12: no aliases). -/
@[simp] theorem State.getX_setX_other (s : State) (i j : XReg) (v : Word) (h : j ≠ i) :
    (s.setX i v).getX j = s.getX j := by
  have hv : i.val ≠ j.val := fun e => h (Fin.ext e.symm)
  simp [State.getX, State.setX, Vector.getElem_set_ne, hv]

/-! ## STATUS (R15, R17, R18, R130) -/

@[simp] theorem Status.complete_busy (st : Status) (c : ResultCode) : (st.complete c).busy = false := rfl
@[simp] theorem Status.complete_err (st : Status) (c : ResultCode) :
    (st.complete c).err = (st.err || c != .ok) := rfl
@[simp] theorem Status.complete_cmdovr (st : Status) (c : ResultCode) : (st.complete c).cmdovr = st.cmdovr := rfl
@[simp] theorem Status.complete_lastcode (st : Status) (c : ResultCode) : (st.complete c).lastcode = c.bits := rfl
@[simp] theorem Status.accept_busy (st : Status) : st.accept.busy = true := rfl
@[simp] theorem Status.accept_err (st : Status) : st.accept.err = st.err := rfl
@[simp] theorem Status.accept_cmdovr (st : Status) : st.accept.cmdovr = st.cmdovr := rfl
@[simp] theorem Status.accept_lastcode (st : Status) : st.accept.lastcode = st.lastcode := rfl
@[simp] theorem Status.overrun_busy (st : Status) : st.overrun.busy = st.busy := rfl
@[simp] theorem Status.overrun_err (st : Status) : st.overrun.err = st.err := rfl
@[simp] theorem Status.overrun_cmdovr (st : Status) : st.overrun.cmdovr = true := rfl
@[simp] theorem Status.overrun_lastcode (st : Status) : st.overrun.lastcode = st.lastcode := rfl
@[simp] theorem Status.hostWrite_busy (st : Status) (v : Word) : (st.hostWrite v).busy = st.busy := rfl
@[simp] theorem Status.hostWrite_lastcode (st : Status) (v : Word) : (st.hostWrite v).lastcode = st.lastcode := rfl
@[simp] theorem Status.hostWrite_err (st : Status) (v : Word) :
    (st.hostWrite v).err = (st.err && !v.getLsbD 1) := rfl
@[simp] theorem Status.hostWrite_cmdovr (st : Status) (v : Word) :
    (st.hostWrite v).cmdovr = (st.cmdovr && !v.getLsbD 2) := rfl

/-- A result code is OK exactly when its number is 0 (R128). -/
theorem ResultCode.bits_eq_zero (c : ResultCode) : c.bits = 0 ↔ c = .ok := by cases c <;> decide

/-- Different result codes have different numbers (R128). -/
theorem ResultCode.bits_inj (c d : ResultCode) (h : c.bits = d.bits) : c = d := by
  cases c <;> cases d <;> first | rfl | exact absurd h (by decide)

/-- The word of STATUS by its fields (R15). -/
theorem Status.word_toNat (st : Status) : st.word.toNat =
    st.lastcode.toNat * 2 ^ 8 + st.cmdovr.toNat * 2 ^ 2 + st.err.toNat * 2 + st.busy.toNat := by
  obtain ⟨b, e, c, l⟩ := st
  cases b <;> cases e <;> cases c <;> (revert l; decide)

/-- The word of HDR_INFO by its fields (R26). -/
theorem HdrInfo.word_toNat (h : HdrInfo) : h.word.toNat = h.storedBe.toNat * 2 + h.valid.toNat := by
  obtain ⟨v, b⟩ := h
  cases v <;> cases b <;> decide

/-- The word of CONFIG by its field (R20). -/
theorem configWord_toNat (be : Bool) : (configWord be).toNat = be.toNat := by cases be <;> decide

end Sys2Proof.Machine
end

