-- ==== Sys2Proof/Laws/Bytes.lean ====
section
/-! SUPPORT. The operations that change buffer memory only: what each byte holds after them, that they leave the rest of the state alone, and that they keep the memory canonical and inside its bounds. -/
namespace Sys2Proof.Machine

/-! ## Nothing but memory changes -/

/-- t is s but for its buffer memory. -/
def SameButMem (s t : State) : Prop := t = { s with mem := t.mem }

theorem SameButMem.refl (s : State) : SameButMem s s := rfl

theorem SameButMem.trans {s t u : State} (h : SameButMem s t) (k : SameButMem t u) : SameButMem s u := by
  unfold SameButMem at *
  rw [k, h]

theorem SameButMem.writeByte (s : State) (a : Nat) (b : Byte) : SameButMem s (s.writeByte a b) := rfl

/-- A loop whose body changes memory only changes memory only. -/
theorem SameButMem.ascending {body : Nat → State → State} (h : ∀ i t, SameButMem t (body i t)) (n : Nat) (s : State) :
    SameButMem s (ascending body n s) := by
  induction n with
  | zero => exact .refl s
  | succ n ih => exact ih.trans (h n _)

/-- A fold of updates that change memory only changes memory only. -/
theorem SameButMem.foldl {α : Type} {f : State → α → State} (h : ∀ t a, SameButMem t (f t a)) (l : List α)
    (s : State) : SameButMem s (l.foldl f s) := by
  induction l generalizing s with
  | nil => exact .refl s
  | cons a l ih => exact (h s a).trans (ih _)

theorem SameButMem.memWrite (s : State) (a n v : Nat) : SameButMem s (s.memWrite a n v) :=
  SameButMem.foldl (fun t _ => SameButMem.writeByte t _ _) _ s

theorem SameButMem.settle (s : State) (rs : List Region) : SameButMem s (s.settle rs) :=
  SameButMem.foldl (fun t u => by split <;> [exact SameButMem.writeByte t _ _; exact SameButMem.refl t]) _ s

theorem SameButMem.scramble (s : State) (r : Region) : SameButMem s (s.scramble r) :=
  SameButMem.ascending (fun _ t => SameButMem.writeByte t _ _) r.len s

theorem SameButMem.copyPair (swap : Bool) (d a : Nat) (s : State) : SameButMem s (copyPair swap d a s) := by
  unfold Machine.copyPair
  cases swap
  · exact (SameButMem.writeByte s _ _).trans (SameButMem.writeByte _ _ _)
  · exact (SameButMem.writeByte s _ _).trans (SameButMem.writeByte _ _ _)

theorem SameButMem.h2fSample (d a i : Nat) (s : State) : SameButMem s (h2fSample d a i s) :=
  SameButMem.memWrite s _ _ _

theorem SameButMem.f2hSample (d a i : Nat) (s : State) : SameButMem s (f2hSample d a i s) :=
  SameButMem.memWrite s _ _ _

theorem SameButMem.bswapSample (a i : Nat) (s : State) : SameButMem s (bswapSample a i s) :=
  SameButMem.copyPair _ _ _ s

theorem SameButMem.payloadSample (swap : Bool) (d a i : Nat) (s : State) :
    SameButMem s (payloadSample swap d a i s) :=
  SameButMem.copyPair _ _ _ s

section
variable {s t : State} (h : SameButMem s t)
include h

theorem SameButMem.params : t.params = s.params := by rw [h]
theorem SameButMem.x : t.x = s.x := by rw [h]
theorem SameButMem.status : t.status = s.status := by rw [h]
theorem SameButMem.hostBe : t.hostBe = s.hostBe := by rw [h]
theorem SameButMem.hdrWidth : t.hdrWidth = s.hdrWidth := by rw [h]
theorem SameButMem.hdrHeight : t.hdrHeight = s.hdrHeight := by rw [h]
theorem SameButMem.hdrChannels : t.hdrChannels = s.hdrChannels := by rw [h]
theorem SameButMem.hdrInfo : t.hdrInfo = s.hdrInfo := by rw [h]
theorem SameButMem.hdrLen : t.hdrLen = s.hdrLen := by rw [h]
theorem SameButMem.hdrPbase : t.hdrPbase = s.hdrPbase := by rw [h]
theorem SameButMem.hdrPavail : t.hdrPavail = s.hdrPavail := by rw [h]
theorem SameButMem.allocBase : t.allocBase = s.allocBase := by rw [h]
theorem SameButMem.allocCount : t.allocCount = s.allocCount := by rw [h]
theorem SameButMem.allocBytes : t.allocBytes = s.allocBytes := by rw [h]
theorem SameButMem.pending : t.pending = s.pending := by rw [h]
theorem SameButMem.live : t.live = s.live := by rw [h]
theorem SameButMem.hostRegions : t.hostRegions = s.hostRegions := by rw [h]
theorem SameButMem.answers : t.answers = s.answers := by rw [h]
theorem SameButMem.schedule : t.schedule = s.schedule := by rw [h]
theorem SameButMem.hostRx : t.hostRx = s.hostRx := by rw [h]
theorem SameButMem.touched : t.touched = s.touched := by rw [h]
theorem SameButMem.tick : t.tick = s.tick := by rw [h]
theorem SameButMem.reads : t.reads = s.reads := by rw [h]
theorem SameButMem.memBytes : t.memBytes = s.memBytes := by simp only [State.memBytes, h.params]
theorem SameButMem.hostWrote (a : Nat) : t.hostWrote a = s.hostWrote a := by simp only [State.hostWrote, h.touched]
theorem SameButMem.getX (i : XReg) : t.getX i = s.getX i := by simp only [State.getX, h.x]

/-- A command reads the same value of a byte that holds the same. -/
theorem SameButMem.coreByte (a : Nat) (e : t.byteAt a = s.byteAt a) : t.coreByte a = s.coreByte a := by
  simp only [State.coreByte, h.hostWrote, h.tick, e]

end

/-! ## What a byte holds -/

/-- The byte at an address after a write of one byte. -/
theorem State.byteAt_writeByte (s : State) (a c : Nat) (b : Byte) :
    (s.writeByte a b).byteAt c = if c = a then b else s.byteAt c := by
  unfold State.byteAt State.writeByte
  split
  · rename_i h
    subst h
    simp
  · rename_i h
    simp [Memory.find?_put_other _ _ _ _ h]

@[simp] theorem State.byteAt_writeByte_same (s : State) (a : Nat) (b : Byte) : (s.writeByte a b).byteAt a = b := by
  simp [State.byteAt_writeByte]

theorem State.byteAt_writeByte_other (s : State) (a c : Nat) (b : Byte) (h : c ≠ a) :
    (s.writeByte a b).byteAt c = s.byteAt c := by
  simp [State.byteAt_writeByte, h]

/-- The byte that `MemWrite(a, n, v)` puts at a + k, in the host order of R43. -/
def laneByte (be : Bool) (n v k : Nat) : Byte := BitVec.ofNat 8 (v >>> (8 * lane be n k))

/-- Every byte after `MemWrite` (R43): the lanes of v at a .. a+n-1, every other byte as before. -/
theorem State.byteAt_memWrite (s : State) (a n v c : Nat) :
    (s.memWrite a n v).byteAt c = if a ≤ c ∧ c < a + n then laneByte s.hostBe n v (c - a) else s.byteAt c := by
  have key : ∀ m, ((List.range m).foldl
      (fun t k => t.writeByte (a + k) (BitVec.ofNat 8 (v >>> (8 * lane s.hostBe n k)))) s).byteAt c =
      if a ≤ c ∧ c < a + m then laneByte s.hostBe n v (c - a) else s.byteAt c := by
    intro m
    induction m with
    | zero => simp
    | succ m ih =>
      rw [List.range_succ, List.foldl_append, List.foldl_cons, List.foldl_nil, State.byteAt_writeByte, ih]
      by_cases h : c = a + m
      · subst h
        simp [laneByte]
      · rw [if_neg h]
        by_cases h2 : a ≤ c ∧ c < a + m
        · rw [if_pos h2, if_pos ⟨h2.1, by omega⟩]
        · rw [if_neg h2, if_neg (by omega)]
  exact key n

/-- Every byte after a pair is copied. -/
theorem byteAt_copyPair (swap : Bool) (d a c : Nat) (s : State) :
    (copyPair swap d a s).byteAt c =
      if c = d then (if swap then s.coreByte (a + 1) else s.coreByte a)
      else if c = d + 1 then (if swap then s.coreByte a else s.coreByte (a + 1))
      else s.byteAt c := by
  unfold copyPair
  cases swap <;> simp only [Bool.false_eq_true, if_true, if_false] <;>
    (rw [State.byteAt_writeByte, State.byteAt_writeByte]; split <;> split <;> first | rfl | omega)

/-- Every byte after races are settled (R56): free where the host touched an accessed byte, else as before. -/
theorem State.byteAt_settle (s : State) (rs : List Region) (c : Nat) :
    (s.settle rs).byteAt c =
      if inRegions rs c ∧ ∃ u ∈ s.touched, u.addr = c then Config.raceLeftByte s.tick c else s.byteAt c := by
  have key : ∀ (l : List Touch) (t : State), (l.foldl
      (fun t u => if inRegions rs u.addr then t.writeByte u.addr (Config.raceLeftByte s.tick u.addr) else t)
      t).byteAt c = if inRegions rs c ∧ ∃ u ∈ l, u.addr = c then Config.raceLeftByte s.tick c else t.byteAt c := by
    intro l
    induction l with
    | nil => intro t; simp
    | cons u l ih =>
      intro t
      rw [List.foldl_cons, ih]
      by_cases hu : u.addr = c
      · subst hu
        by_cases hr : inRegions rs u.addr
        · simp [hr]
        · simp [hr]
      · by_cases hr : inRegions rs u.addr
        · simp [hr, hu, State.byteAt_writeByte_other _ _ _ _ (Ne.symm hu)]
        · simp [hr, hu]
  exact key s.touched s

/-- Where the host touched nothing, nothing is settled (R146 item 1). -/
theorem State.settle_untouched (s : State) (rs : List Region) (h : s.touched = []) : s.settle rs = s := by
  simp [State.settle, h]

/-- A command reads a byte that the host has not written meanwhile as it is. -/
theorem State.coreByte_untouched (s : State) (a : Nat) (h : s.touched = []) : s.coreByte a = s.byteAt a := by
  simp [State.coreByte, State.hostWrote, h]

/-- Every byte after a region is scrambled (R144). -/
theorem State.byteAt_scramble (s : State) (r : Region) (c : Nat) :
    (s.scramble r).byteAt c = if r.contains c then Config.resetLeftByte s.tick c else s.byteAt c := by
  have key : ∀ n, (ascending
      (fun k t => t.writeByte (r.base + k) (Config.resetLeftByte s.tick (r.base + k))) n s).byteAt c =
      if r.base ≤ c ∧ c < r.base + n then Config.resetLeftByte s.tick c else s.byteAt c := by
    intro n
    induction n with
    | zero => simp [ascending]
    | succ n ih =>
      rw [ascending, State.byteAt_writeByte, ih]
      by_cases h : c = r.base + n
      · subst h; simp
      · rw [if_neg h]
        by_cases h2 : r.base ≤ c ∧ c < r.base + n
        · rw [if_pos h2, if_pos ⟨h2.1, by omega⟩]
        · rw [if_neg h2, if_neg (by omega)]
  unfold State.scramble
  rw [key]
  simp [Region.contains]

/-! ## Loops -/

/-- Induction over an ascending loop (D18): what holds before the first element and is handed on by each element
holds after the last. -/
theorem ascending_induct {body : Nat → State → State} {n : Nat} {s : State} (P : Nat → State → Prop) (h0 : P 0 s)
    (hs : ∀ i t, i < n → P i t → P (i + 1) (body i t)) : P n (ascending body n s) := by
  induction n with
  | zero => exact h0
  | succ n ih => exact hs n _ (Nat.lt_succ_self n) (ih fun i t hi => hs i t (Nat.lt_succ_of_lt hi))

/-! ## The memory stays canonical and in bounds -/

/-- The memory of a state is in canonical form and lists existing addresses only (R36; log entry 3). -/
def MemOk (s : State) : Prop := Memory.wf s.mem = true ∧ ∀ c ∈ s.mem, c.1 < s.memBytes

theorem MemOk.writeByte {s : State} (h : MemOk s) (a : Nat) (b : Byte) (ha : a < s.memBytes) :
    MemOk (s.writeByte a b) :=
  ⟨Memory.wf_put _ _ _ h.1, Memory.below_put _ _ _ _ h.2 ha⟩

theorem MemOk.memWrite {s : State} (h : MemOk s) (a n v : Nat) (ha : a + n ≤ s.memBytes) :
    MemOk (s.memWrite a n v) := by
  have key : ∀ m, m ≤ n → MemOk ((List.range m).foldl
      (fun t k => t.writeByte (a + k) (BitVec.ofNat 8 (v >>> (8 * lane s.hostBe n k)))) s) := by
    intro m
    induction m with
    | zero => intro _; exact h
    | succ m ih =>
      intro hm
      rw [List.range_succ, List.foldl_append, List.foldl_cons, List.foldl_nil]
      have hs := SameButMem.foldl (f := fun t k => State.writeByte t (a + k)
        (BitVec.ofNat 8 (v >>> (8 * lane s.hostBe n k)))) (fun t _ => SameButMem.writeByte t _ _) (List.range m) s
      exact (ih (by omega)).writeByte _ _ (by rw [hs.memBytes]; omega)
  exact key n (Nat.le_refl n)

theorem MemOk.copyPair {s : State} (h : MemOk s) (swap : Bool) (d a : Nat) (hd : d + 2 ≤ s.memBytes) :
    MemOk (copyPair swap d a s) := by
  unfold Machine.copyPair
  have h1 (b : Byte) : MemOk (s.writeByte d b) := h.writeByte _ _ (by omega)
  cases swap
  · exact (h1 _).writeByte _ _ (by simp; omega)
  · exact (h1 _).writeByte _ _ (by simp; omega)

/-- Settling races keeps the memory canonical; the regions it settles are those a checked command accessed. -/
theorem MemOk.settle {s : State} (h : MemOk s) (rs : List Region) (hr : ∀ r ∈ rs, r.base + r.len ≤ s.memBytes) :
    MemOk (s.settle rs) := by
  have key : ∀ (l : List Touch) (t : State), SameButMem s t → MemOk t → MemOk (l.foldl
      (fun t u => if inRegions rs u.addr then t.writeByte u.addr (Config.raceLeftByte s.tick u.addr) else t) t) := by
    intro l
    induction l with
    | nil => intro t _ ht; exact ht
    | cons u l ih =>
      intro t hst ht
      rw [List.foldl_cons]
      by_cases hu : inRegions rs u.addr
      · rw [if_pos hu]
        refine ih _ (hst.trans (.writeByte _ _ _)) (ht.writeByte _ _ ?_)
        rw [hst.memBytes]
        obtain ⟨r, hmem, hc⟩ := List.any_eq_true.mp hu
        have := hr r hmem
        simp only [Region.contains, Bool.and_eq_true, decide_eq_true_eq] at hc
        omega
      · rw [if_neg hu]
        exact ih t hst ht
  exact key s.touched s (.refl s) h

theorem MemOk.scramble {s : State} (h : MemOk s) (r : Region) (hr : r.base + r.len ≤ s.memBytes) :
    MemOk (s.scramble r) := by
  refine (ascending_induct (body := fun k t => State.writeByte t (r.base + k) (Config.resetLeftByte s.tick (r.base + k)))
    (fun _ t => SameButMem s t ∧ MemOk t) ⟨.refl s, h⟩ ?_).2
  intro i t hi ⟨hst, ht⟩
  exact ⟨hst.trans (.writeByte _ _ _), ht.writeByte _ _ (by rw [hst.memBytes]; omega)⟩

/-- A checked loop of element writes keeps the memory canonical. -/
theorem MemOk.ascending {s : State} (h : MemOk s) {body : Nat → State → State} (n : Nat)
    (hm : ∀ i t, SameButMem t (body i t))
    (hb : ∀ i t, i < n → t.memBytes = s.memBytes → MemOk t → MemOk (body i t)) : MemOk (ascending body n s) := by
  refine (ascending_induct (fun _ t => SameButMem s t ∧ MemOk t) ⟨.refl s, h⟩ ?_).2
  intro i t hi ⟨hst, ht⟩
  exact ⟨hst.trans (hm i t), hb i t hi hst.memBytes ht⟩

end Sys2Proof.Machine
end

