-- ==== Sys2Proof/Laws/Commands.lean ====
section
/-! SUPPORT. What each command can do, said once: the meaning unfolded at its checks, so that later proofs cite an equation and never unfold a meaning. -/
namespace Sys2Proof.Machine

/-! ## Operands (R65) -/

/-- The operand forms in terms of the register file. -/
theorem State.getX_eq (s : State) (i : XReg) : s.getX i = s.x[i] := rfl
theorem State.natX_eq (s : State) (i : XReg) : s.natX i = s.x[i].toNat := rfl
theorem State.intX_eq (s : State) (i : XReg) : s.intX i = s.x[i].toInt := rfl

/-- A register below 2^31 reads the same signed and unsigned. -/
theorem State.intX_of_lt (s : State) (i : XReg) (h : s.natX i < 2 ^ 31) : s.intX i = (s.natX i : Int) := by
  unfold State.natX at h
  unfold State.intX State.natX
  rw [BitVec.toInt_eq_toNat_cond]
  split <;> omega

/-! ## Checks -/

/-- RegionOK (R44). -/
theorem State.regionOk_iff (s : State) (a n : Nat) : s.regionOk a n = true ↔ a ≠ 0 ∧ a + n ≤ s.memBytes := by
  simp [State.regionOk]

/-- A region that holds an address of a list of regions. -/
theorem inRegions_iff (rs : List Region) (a : Nat) :
    inRegions rs a = true ↔ ∃ r ∈ rs, r.base ≤ a ∧ a < r.base + r.len := by
  simp [inRegions, Region.contains]

/-- Two regions that an allocator keeps apart have no address in common (R51). -/
theorem Region.disjoint_apart (r q : Region) (h : r.disjoint q = true) : Apart r q := by
  intro a ⟨hr, hq⟩
  simp only [Region.disjoint, Region.contains, Bool.or_eq_true, Bool.and_eq_true, decide_eq_true_eq] at h hr hq
  omega

/-- Two regions are kept apart when one ends before the other begins. -/
theorem Region.disjoint_of_le (r q : Region) (h : r.base + r.len ≤ q.base ∨ q.base + q.len ≤ r.base) :
    r.disjoint q = true := by
  simp only [Region.disjoint, Bool.or_eq_true, decide_eq_true_eq]
  omega

/-- The checks of CVT.H2F.BUF (R85). -/
theorem h2fBufOk_iff (dst src count : XReg) (s : State) : h2fBufOk dst src count s = true ↔
    (s.natX src ≠ 0 ∧ s.natX src + 2 * s.natX count ≤ s.memBytes) ∧
      (s.natX dst ≠ 0 ∧ s.natX dst + 4 * s.natX count ≤ s.memBytes) := by
  simp only [h2fBufOk, Bool.and_eq_true, State.regionOk_iff]

/-- The checks of CVT.F2H.BUF (R97). -/
theorem f2hBufOk_iff (dst src count : XReg) (s : State) : f2hBufOk dst src count s = true ↔
    (s.natX src ≠ 0 ∧ s.natX src + 4 * s.natX count ≤ s.memBytes) ∧
      (s.natX dst ≠ 0 ∧ s.natX dst + 2 * s.natX count ≤ s.memBytes) := by
  simp only [f2hBufOk, Bool.and_eq_true, State.regionOk_iff]

/-- The check of BSWAP16.BUF (R113). -/
theorem bswapBufOk_iff (addr count : XReg) (s : State) : bswapBufOk addr count s = true ↔
    (s.natX addr ≠ 0 ∧ s.natX addr + 2 * s.natX count ≤ s.memBytes) := by
  simp only [bswapBufOk, State.regionOk_iff]

/-- The region check of HDR.PARSE (R107). -/
theorem hdrParseOk_iff (base len : XReg) (s : State) : hdrParseOk base len s = true ↔
    (s.natX base ≠ 0 ∧ s.natX base + s.natX len ≤ s.memBytes) := by
  simp only [hdrParseOk, State.regionOk_iff]

/-- PAYLOAD.IN passes its checks (R114). -/
theorem payloadInCheck_none (dst count : XReg) (s : State) : payloadInCheck dst count s = none ↔
    s.hdrInfo.valid = true ∧ (s.natX dst ≠ 0 ∧ s.natX dst + 2 * s.natX count ≤ s.memBytes) ∧
      2 * s.natX count ≤ s.hdrPavail.toNat := by
  rw [← State.regionOk_iff]
  unfold payloadInCheck
  cases s.hdrInfo.valid <;> cases s.regionOk (s.natX dst) (2 * s.natX count) <;> simp

/-- The codes PAYLOAD.IN raises (R114). -/
theorem payloadInCheck_some (dst count : XReg) (s : State) (c : ResultCode) (h : payloadInCheck dst count s = some c) :
    c = .invalidArgument ∨ c = .truncationError := by
  unfold payloadInCheck at h
  split at h
  · exact .inl (Option.some.inj h).symm
  · split at h
    · exact .inl (Option.some.inj h).symm
    · split at h
      · exact .inr (Option.some.inj h).symm
      · cases h

/-! ## The buffer commands -/

/-- Memory after the element loop of CVT.H2F.BUF and the settling of its races (R85, R56). -/
def State.afterH2fBuf (s : State) (dst src count : XReg) : State :=
  (ascending (h2fSample (s.natX dst) (s.natX src)) (s.natX count) s).settle (h2fBufFootprint dst src count s).all

/-- Memory after the element loop of CVT.F2H.BUF and the settling of its races (R97, R56). -/
def State.afterF2hBuf (s : State) (dst src count : XReg) : State :=
  (ascending (f2hSample (s.natX dst) (s.natX src)) (s.natX count) s).settle (f2hBufFootprint dst src count s).all

/-- Memory after the element loop of BSWAP16.BUF and the settling of its races (R113, R56). -/
def State.afterBswapBuf (s : State) (addr count : XReg) : State :=
  (ascending (bswapSample (s.natX addr)) (s.natX count) s).settle (bswapBufFootprint addr count s).all

/-- Memory after the element loop of PAYLOAD.IN and the settling of its races (R114, R56). -/
def State.afterPayloadIn (s : State) (dst count : XReg) : State :=
  (ascending (payloadSample s.swapNeeded (s.natX dst) s.hdrPbase.toNat) (s.natX count) s).settle
    (payloadInFootprint dst count s).all

theorem State.afterH2fBuf_same (s : State) (dst src count : XReg) : SameButMem s (s.afterH2fBuf dst src count) :=
  (SameButMem.ascending (fun _ _ => .h2fSample _ _ _ _) _ s).trans (.settle _ _)

theorem State.afterF2hBuf_same (s : State) (dst src count : XReg) : SameButMem s (s.afterF2hBuf dst src count) :=
  (SameButMem.ascending (fun _ _ => .f2hSample _ _ _ _) _ s).trans (.settle _ _)

theorem State.afterBswapBuf_same (s : State) (addr count : XReg) : SameButMem s (s.afterBswapBuf addr count) :=
  (SameButMem.ascending (fun _ _ => .bswapSample _ _ _) _ s).trans (.settle _ _)

theorem State.afterPayloadIn_same (s : State) (dst count : XReg) : SameButMem s (s.afterPayloadIn dst count) :=
  (SameButMem.ascending (fun _ _ => .payloadSample _ _ _ _ _) _ s).trans (.settle _ _)

theorem execCvtH2fBuf_eq (dst src count : XReg) (s : State) : execCvtH2fBuf dst src count s =
    .next (if h2fBufOk dst src count s then (s.afterH2fBuf dst src count).finish .ok
      else s.finish .invalidArgument) := by
  unfold execCvtH2fBuf done raise State.afterH2fBuf
  split <;> rfl

theorem execCvtF2hBuf_eq (dst src count : XReg) (s : State) : execCvtF2hBuf dst src count s =
    .next (if f2hBufOk dst src count s then (s.afterF2hBuf dst src count).finish .ok
      else s.finish .invalidArgument) := by
  unfold execCvtF2hBuf done raise State.afterF2hBuf
  split <;> rfl

theorem execBswap16Buf_eq (addr count : XReg) (s : State) : execBswap16Buf addr count s =
    .next (if bswapBufOk addr count s then (s.afterBswapBuf addr count).finish .ok
      else s.finish .invalidArgument) := by
  unfold execBswap16Buf done raise State.afterBswapBuf
  split <;> rfl

/-- PAYLOAD.IN (R114): it raises, completes, or, from a state no run reaches, faults. -/
theorem execPayloadIn_cases (dst count : XReg) (s : State) :
    (∃ c, payloadInCheck dst count s = some c ∧ execPayloadIn dst count s = .next (s.finish c)) ∨
    (payloadInCheck dst count s = none ∧ s.payloadExists (s.natX count) = true ∧
      execPayloadIn dst count s = .next ((s.afterPayloadIn dst count).finish .ok)) ∨
    (payloadInCheck dst count s = none ∧ s.payloadExists (s.natX count) = false ∧
      execPayloadIn dst count s = .fault .noSuchAddress) := by
  unfold execPayloadIn done raise State.afterPayloadIn
  cases payloadInCheck dst count s with
  | some c => exact .inl ⟨c, rfl, rfl⟩
  | none => cases s.payloadExists (s.natX count) <;> simp

/-! ## HDR.PARSE -/

/-- The parser reads no byte past the image (R98). -/
theorem bytesRead_le (l : List Byte) : bytesRead l ≤ l.length := by
  unfold bytesRead readAtFailure
  split <;> omega

theorem State.image_length (s : State) (a n : Nat) : (s.image a n).length = n := by
  induction n generalizing a with
  | zero => rfl
  | succ n ih => rw [State.image, List.length_cons, ih]

/-- HDR.PARSE (R107): a bad region, a broken grammar, or a header. -/
theorem execHdrParse_cases (base len : XReg) (s : State) :
    (hdrParseOk base len s = false ∧ execHdrParse base len s = .next (s.invalidate.finish .invalidArgument)) ∨
    (hdrParseOk base len s = true ∧ ∃ l, header (s.image (s.natX base) (s.natX len)) = .error l ∧
      execHdrParse base len s =
        .next ((s.invalidate.settle (hdrParseFootprint base len s).all).finish .formatError)) ∨
    (hdrParseOk base len s = true ∧ ∃ h payload, header (s.image (s.natX base) (s.natX len)) = .ok (h, payload) ∧
      execHdrParse base len s =
        .next (((s.setHeader h (s.natX base) (s.natX len) (s.natX len - payload.length)).settle
          (hdrParseFootprint base len s).all).finish .ok)) := by
  unfold execHdrParse done raise
  cases hdrParseOk base len s with
  | false => exact .inl ⟨rfl, rfl⟩
  | true =>
    cases header (s.image (s.natX base) (s.natX len)) with
    | error l => exact .inr (.inl ⟨rfl, l, rfl, rfl⟩)
    | ok p => exact .inr (.inr ⟨rfl, p.1, p.2, rfl, rfl⟩)

/-! ## The allocator -/

/-- ALLOC's checks (R117, R118): a bad geometry, a size that does not fit, or the exact sizes. -/
theorem allocSize_cases (width height channels : XReg) (size : SampleSize) (s : State) :
    (geometryOk (s.intX width) (s.intX height) (s.intX channels) = false ∧
      allocSize width height channels size s = .error .validationError) ∨
    (geometryOk (s.intX width) (s.intX height) (s.intX channels) = true ∧
      2 ^ 32 - 1 < (s.intX width * s.intX height * s.intX channels).toNat * sampleBytes size ∧
      allocSize width height channels size s = .error .allocFailure) ∨
    (geometryOk (s.intX width) (s.intX height) (s.intX channels) = true ∧
      (s.intX width * s.intX height * s.intX channels).toNat * sampleBytes size ≤ 2 ^ 32 - 1 ∧
      allocSize width height channels size s =
        .ok ((s.intX width * s.intX height * s.intX channels).toNat,
          (s.intX width * s.intX height * s.intX channels).toNat * sampleBytes size)) := by
  unfold allocSize
  cases hg : geometryOk (s.intX width) (s.intX height) (s.intX channels) with
  | false => exact .inl ⟨rfl, by simp [hg]⟩
  | true =>
    by_cases hb : 2 ^ 32 - 1 < (s.intX width * s.intX height * s.intX channels).toNat * sampleBytes size
    · exact .inr (.inl ⟨rfl, hb, by simp only [hg, hb]; rfl⟩)
    · exact .inr (.inr ⟨rfl, by omega, by simp only [hg, hb]; rfl⟩)

/-- The geometry check (R117). -/
theorem geometryOk_iff (w h c : Int) : geometryOk w h c = true ↔ 0 < w ∧ 0 < h ∧ (c = 1 ∨ c = 3) := by
  simp [geometryOk, and_assoc]

/-- A request is for at least one byte (R50). -/
theorem allocSize_pos {width height channels : XReg} {size : SampleSize} {s : State} {count bytes : Nat}
    (h : allocSize width height channels size s = .ok (count, bytes)) : 0 < bytes := by
  rcases allocSize_cases width height channels size s with ⟨_, k⟩ | ⟨_, _, k⟩ | ⟨hg, _, k⟩
  · cases k.symm.trans h
  · cases k.symm.trans h
  · cases k.symm.trans h
    obtain ⟨g1, g2, g3⟩ := (geometryOk_iff _ _ _).mp hg
    have hp : 0 < s.intX width * s.intX height * s.intX channels := mul_pos (mul_pos g1 g2) (by omega)
    exact Nat.mul_pos (by omega) (by cases size <;> decide)

/-- The contract of R51, clause by clause. -/
theorem State.contractOk_iff (s : State) (b : Word) (n : Nat) : s.contractOk b n = true ↔
    b.toNat ≠ 0 ∧ b.toNat % 4 = 0 ∧ b.toNat + n ≤ s.memBytes ∧
      ∀ r ∈ s.live ++ s.hostRegions, Region.disjoint ⟨b.toNat, n⟩ r = true := by
  simp only [State.contractOk, Bool.and_eq_true, bne_iff_ne, beq_iff_eq, decide_eq_true_eq, List.all_eq_true,
    and_assoc]

/-- AllocRequest (R50, R51): Fail, Ok(b) by the contract, or a stated answer that breaks it. -/
theorem State.allocRequest_cases (s : State) (n : Nat) :
    (s.allocRequest n = .failed { s with answers := s.answers.tail }) ∨
    (∃ b, s.contractOk b n = true ∧
      s.allocRequest n = .granted b { s with answers := s.answers.tail, live := ⟨b.toNat, n⟩ :: s.live }) ∨
    (∃ b rest, s.answers = .ok b :: rest ∧ s.contractOk b n = false ∧ s.allocRequest n = .inadmissible) := by
  unfold State.allocRequest
  cases hd : s.drawnAnswer n with
  | fail => exact .inl rfl
  | ok b =>
    cases hc : s.contractOk b n with
    | true => exact .inr (.inl ⟨b, hc, by simp [hc]⟩)
    | false =>
      refine .inr (.inr ⟨b, s.answers.tail, ?_, hc, by simp [hc]⟩)
      unfold State.drawnAnswer at hd
      split at hd
      · rename_i ha
        subst hd
        simp [ha]
      · split at hd
        · cases hd
        · split at hd
          · rename_i hk
            cases hd
            simp [hc] at hk
          · cases hd

/-- A stated answer is the one that is drawn. -/
theorem State.allocRequest_stated_fail (s : State) (n : Nat) (rest : List AllocAnswer) (h : s.answers = .fail :: rest) :
    s.allocRequest n = .failed { s with answers := rest } := by
  simp [State.allocRequest, State.drawnAnswer, h]

/-- A stated answer that keeps the contract is granted. -/
theorem State.allocRequest_stated_ok (s : State) (n : Nat) (b : Word) (rest : List AllocAnswer)
    (h : s.answers = .ok b :: rest) (hc : s.contractOk b n = true) :
    s.allocRequest n = .granted b { s with answers := rest, live := ⟨b.toNat, n⟩ :: s.live } := by
  simp [State.allocRequest, State.drawnAnswer, h, hc]

/-- With no answer stated, the draw is never inadmissible (R50). -/
theorem State.allocRequest_unstated (s : State) (n : Nat) (h : s.answers = []) : s.allocRequest n ≠ .inadmissible := by
  rcases s.allocRequest_cases n with e | ⟨b, _, e⟩ | ⟨b, rest, e, _⟩
  · simp [e]
  · simp [e]
  · simp [h] at e

/-- ALLOC (R119): it raises with nothing changed, the allocator fails, it grants, or the stated answer is refused. -/
theorem execAlloc_cases (rd width height channels : XReg) (size : SampleSize) (s : State) :
    (∃ code, allocSize width height channels size s = .error code ∧
      execAlloc rd width height channels size s = .next (s.finish code)) ∨
    (∃ count bytes, allocSize width height channels size s = .ok (count, bytes) ∧
      s.allocRequest bytes = .failed { s with answers := s.answers.tail } ∧
      execAlloc rd width height channels size s =
        .next (State.finish { s with answers := s.answers.tail } .allocFailure)) ∨
    (∃ count bytes b, allocSize width height channels size s = .ok (count, bytes) ∧ s.contractOk b bytes = true ∧
      s.allocRequest bytes = .granted b { s with answers := s.answers.tail, live := ⟨b.toNat, bytes⟩ :: s.live } ∧
      execAlloc rd width height channels size s =
        .next (State.finish ((State.setX
          { s with answers := s.answers.tail, live := ⟨b.toNat, bytes⟩ :: s.live } rd b).setAlloc b count bytes) .ok)) ∨
    (∃ count bytes b rest, allocSize width height channels size s = .ok (count, bytes) ∧
      s.answers = .ok b :: rest ∧ s.contractOk b bytes = false ∧
      execAlloc rd width height channels size s = .refused .allocContract) := by
  unfold execAlloc done raise
  cases hsz : allocSize width height channels size s with
  | error code => exact .inl ⟨code, rfl, rfl⟩
  | ok p =>
    obtain ⟨count, bytes⟩ := p
    refine .inr ?_
    rcases s.allocRequest_cases bytes with e | ⟨b, hc, e⟩ | ⟨b, rest, ha, hc, e⟩
    · exact .inl ⟨count, bytes, rfl, e, by simp [e]⟩
    · exact .inr (.inl ⟨count, bytes, b, rfl, hc, e, by simp [e]⟩)
    · exact .inr (.inr ⟨count, bytes, b, rest, rfl, ha, hc, by simp [e]⟩)

/-- An address is a live base (R52). -/
theorem State.isLive_iff (s : State) (a : Nat) : s.isLive a = true ↔ ∃ r ∈ s.live, r.base = a := by
  simp [State.isLive]

/-- FREE (R120): of 0 it raises, of a live base it releases, of any other address it faults. -/
theorem execFree_cases (base : XReg) (s : State) :
    (s.natX base = 0 ∧ execFree base s = .next (s.finish .invalidArgument)) ∨
    (s.natX base ≠ 0 ∧ s.isLive (s.natX base) = true ∧ execFree base s =
      .next (State.finish { s with live := s.live.filter (fun r => decide (r.base ≠ s.natX base)) } .ok)) ∨
    (s.natX base ≠ 0 ∧ s.isLive (s.natX base) = false ∧ execFree base s = .fault .badRelease) := by
  unfold execFree State.allocRelease done raise
  by_cases h : s.natX base = 0
  · exact .inl ⟨h, by simp [h]⟩
  · refine .inr ?_
    cases hl : s.isLive (s.natX base) with
    | true => exact .inl ⟨h, rfl, by simp [h]⟩
    | false => exact .inr ⟨h, rfl, by simp [h]⟩

/-! ## Footprints -/

/-- Every region that a command accesses lies in memory (R40). -/
theorem footprint_inMemory (i : Instr) (s : State) (hi : s.HdrInv) :
    ∀ r ∈ (footprint i s).all, r.base + r.len ≤ s.memBytes := by
  intro r hr
  cases i <;> simp only [footprint] at hr <;> try cases hr
  · split at hr
    · rename_i h
      rw [h2fBufOk_iff] at h
      simp only [Footprint.all, h2fBufFootprint, List.mem_append, List.mem_singleton] at hr
      rcases hr with rfl | rfl <;> simp only <;> omega
    · cases hr
  · split at hr
    · rename_i h
      rw [f2hBufOk_iff] at h
      simp only [Footprint.all, f2hBufFootprint, List.mem_append, List.mem_singleton] at hr
      rcases hr with rfl | rfl <;> simp only <;> omega
    · cases hr
  · split at hr
    · rename_i h
      rw [bswapBufOk_iff] at h
      simp only [Footprint.all, bswapBufFootprint, List.mem_append, List.mem_singleton] at hr
      rcases hr with rfl | rfl <;> simp only <;> omega
    · cases hr
  · split at hr
    · rename_i h
      rw [payloadInCheck_none] at h
      have hp := hi.payload h.1
      simp only [Footprint.all, payloadInFootprint, State.payloadRegion, List.mem_append, List.mem_singleton] at hr
      rcases hr with rfl | rfl <;> simp only <;> omega
    · cases hr
  · split at hr
    · rename_i h
      rw [hdrParseOk_iff] at h
      simp only [Footprint.all, hdrParseFootprint, List.append_nil, List.mem_singleton] at hr
      subst hr
      exact Nat.le_trans (Nat.add_le_add_left (Nat.le_trans (bytesRead_le _) (Nat.le_of_eq (State.image_length _ _ _))) _) h.2
    · cases hr

/-! ## Every command -/

/-- The fields that no command writes before it completes, STATUS among them. -/
structure Kept (s u : State) : Prop where
  params      : u.params = s.params
  status      : u.status = s.status
  hostBe      : u.hostBe = s.hostBe
  pending     : u.pending = s.pending
  hostRegions : u.hostRegions = s.hostRegions
  schedule    : u.schedule = s.schedule
  hostRx      : u.hostRx = s.hostRx
  touched     : u.touched = s.touched
  tick        : u.tick = s.tick
  reads       : u.reads = s.reads

theorem Kept.refl (s : State) : Kept s s := ⟨rfl, rfl, rfl, rfl, rfl, rfl, rfl, rfl, rfl, rfl⟩

theorem Kept.trans {s t u : State} (h : Kept s t) (k : Kept t u) : Kept s u :=
  ⟨k.1.trans h.1, k.2.trans h.2, k.3.trans h.3, k.4.trans h.4, k.5.trans h.5, k.6.trans h.6, k.7.trans h.7,
    k.8.trans h.8, k.9.trans h.9, k.10.trans h.10⟩

theorem Kept.ofSameButMem {s t : State} (h : SameButMem s t) : Kept s t :=
  ⟨h.params, h.status, h.hostBe, h.pending, h.hostRegions, h.schedule, h.hostRx, h.touched, h.tick, h.reads⟩

theorem Kept.setX (s : State) (i : XReg) (v : Word) : Kept s (s.setX i v) := ⟨rfl, rfl, rfl, rfl, rfl, rfl, rfl, rfl, rfl, rfl⟩
theorem Kept.invalidate (s : State) : Kept s s.invalidate := ⟨rfl, rfl, rfl, rfl, rfl, rfl, rfl, rfl, rfl, rfl⟩
theorem Kept.setHeader (s : State) (h : Header) (a n k : Nat) : Kept s (s.setHeader h a n k) :=
  ⟨rfl, rfl, rfl, rfl, rfl, rfl, rfl, rfl, rfl, rfl⟩

/-- Every command that answers a next state ends in `finish`, with a code that R132 lets it report, and has kept the
fields of `Kept` until then (R126, R130). -/
theorem exec_finish {i : Instr} {s t : State} (h : exec i s = .next t) :
    ∃ u c, t = u.finish c ∧ Kept s u ∧ reportedCode c.bits = true := by
  cases i with
  | cvtH2f rd rs1 => exact ⟨_, .ok, (Host.Outcome.next.inj h).symm, .setX _ _ _, by decide⟩
  | cvtF2h rd rs1 => exact ⟨_, .ok, (Host.Outcome.next.inj h).symm, .setX _ _ _, by decide⟩
  | bswap16 rd rs1 => exact ⟨_, .ok, (Host.Outcome.next.inj h).symm, .setX _ _ _, by decide⟩
  | cvtH2fBuf dst src count =>
    have e := Host.Outcome.next.inj ((execCvtH2fBuf_eq dst src count s).symm.trans h)
    split at e
    · exact ⟨_, .ok, e.symm, .ofSameButMem (s.afterH2fBuf_same _ _ _), by decide⟩
    · exact ⟨_, .invalidArgument, e.symm, .refl s, by decide⟩
  | cvtF2hBuf dst src count =>
    have e := Host.Outcome.next.inj ((execCvtF2hBuf_eq dst src count s).symm.trans h)
    split at e
    · exact ⟨_, .ok, e.symm, .ofSameButMem (s.afterF2hBuf_same _ _ _), by decide⟩
    · exact ⟨_, .invalidArgument, e.symm, .refl s, by decide⟩
  | bswap16Buf addr count =>
    have e := Host.Outcome.next.inj ((execBswap16Buf_eq addr count s).symm.trans h)
    split at e
    · exact ⟨_, .ok, e.symm, .ofSameButMem (s.afterBswapBuf_same _ _), by decide⟩
    · exact ⟨_, .invalidArgument, e.symm, .refl s, by decide⟩
  | payloadIn dst count =>
    rcases execPayloadIn_cases dst count s with ⟨c, hc, e⟩ | ⟨_, _, e⟩ | ⟨_, _, e⟩
    · refine ⟨_, c, (Host.Outcome.next.inj (e.symm.trans h)).symm, .refl s, ?_⟩
      rcases payloadInCheck_some _ _ _ _ hc with rfl | rfl <;> decide
    · exact ⟨_, .ok, (Host.Outcome.next.inj (e.symm.trans h)).symm, .ofSameButMem (s.afterPayloadIn_same _ _), by decide⟩
    · cases e.symm.trans h
  | hdrParse base len =>
    rcases execHdrParse_cases base len s with ⟨_, e⟩ | ⟨_, l, _, e⟩ | ⟨_, hd, p, _, e⟩
    · exact ⟨_, .invalidArgument, (Host.Outcome.next.inj (e.symm.trans h)).symm, .invalidate s, by decide⟩
    · exact ⟨_, .formatError, (Host.Outcome.next.inj (e.symm.trans h)).symm,
        (Kept.invalidate s).trans (.ofSameButMem (.settle _ _)), by decide⟩
    · exact ⟨_, .ok, (Host.Outcome.next.inj (e.symm.trans h)).symm,
        (Kept.setHeader s _ _ _ _).trans (.ofSameButMem (.settle _ _)), by decide⟩
  | alloc rd width height channels size =>
    rcases execAlloc_cases rd width height channels size s with
      ⟨c, hc, e⟩ | ⟨_, _, _, _, e⟩ | ⟨_, _, _, _, _, _, e⟩ | ⟨_, _, _, _, _, _, _, e⟩
    · refine ⟨_, c, (Host.Outcome.next.inj (e.symm.trans h)).symm, .refl s, ?_⟩
      rcases allocSize_cases width height channels size s with ⟨_, k⟩ | ⟨_, _, k⟩ | ⟨_, _, k⟩
      · cases k.symm.trans hc; decide
      · cases k.symm.trans hc; decide
      · cases k.symm.trans hc
    · exact ⟨_, .allocFailure, (Host.Outcome.next.inj (e.symm.trans h)).symm,
        ⟨rfl, rfl, rfl, rfl, rfl, rfl, rfl, rfl, rfl, rfl⟩, by decide⟩
    · exact ⟨_, .ok, (Host.Outcome.next.inj (e.symm.trans h)).symm,
        ⟨rfl, rfl, rfl, rfl, rfl, rfl, rfl, rfl, rfl, rfl⟩, by decide⟩
    · cases e.symm.trans h
  | free base =>
    rcases execFree_cases base s with ⟨_, e⟩ | ⟨_, _, e⟩ | ⟨_, _, e⟩
    · exact ⟨_, .invalidArgument, (Host.Outcome.next.inj (e.symm.trans h)).symm, .refl s, by decide⟩
    · exact ⟨_, .ok, (Host.Outcome.next.inj (e.symm.trans h)).symm,
        ⟨rfl, rfl, rfl, rfl, rfl, rfl, rfl, rfl, rfl, rfl⟩, by decide⟩
    · cases e.symm.trans h
  | csrr rd csr =>
    change execCsrr rd csr s = .next t at h
    unfold execCsrr done raise at h
    split at h
    · exact ⟨_, .ok, (Host.Outcome.next.inj h).symm, .setX _ _ _, by decide⟩
    · exact ⟨_, .illegalCommand, (Host.Outcome.next.inj h).symm, .refl s, by decide⟩

/-! ## The CORE's step -/

/-- CoreStep (R126): idle, an illegal word, or a decoded command. -/
theorem coreStep_cases (s : State) :
    (s.pending = none ∧ coreStep s = .next s) ∨
    (∃ w why, s.pending = some w ∧ decode w = .illegal why ∧ coreStep s = .next (s.finish .illegalCommand)) ∨
    (∃ w i, s.pending = some w ∧ decode w = .legal i ∧ coreStep s = exec i s) := by
  unfold coreStep raise
  cases s.pending with
  | none => exact .inl ⟨rfl, rfl⟩
  | some w =>
    refine .inr ?_
    cases hd : decode w with
    | illegal why => exact .inl ⟨w, why, rfl, hd, by simp [hd]⟩
    | legal i => exact .inr ⟨w, i, rfl, hd, by simp [hd]⟩

/-- Every CORE move from a pending command that answers a next state ends in `finish` (R126). -/
theorem coreStep_finish {s t : State} (h : coreStep s = .next t) :
    t = s ∧ s.pending = none ∨ s.pending.isSome = true ∧ ∃ u c, t = u.finish c ∧ Kept s u ∧ reportedCode c.bits = true := by
  rcases coreStep_cases s with ⟨hp, e⟩ | ⟨w, _, hp, _, e⟩ | ⟨w, i, hp, _, e⟩
  · exact .inl ⟨(Host.Outcome.next.inj (e.symm.trans h)).symm, hp⟩
  · exact .inr ⟨by simp [hp], s, .illegalCommand, (Host.Outcome.next.inj (e.symm.trans h)).symm, .refl s, by decide⟩
  · exact .inr ⟨by simp [hp], exec_finish (e.symm.trans h)⟩

end Sys2Proof.Machine
end

