-- ==== Sys2Proof/Laws/Encoding.lean ====
section
/-! SUPPORT. The encoder's word as the disjunction of its fields, and what each field of it reads (30_encoding R61, R70). -/
namespace Sys2Proof

/-- The word of a command is the OR of its fields, each moved to its place (R70). -/
theorem command_eq (opc rd rs1 rs2 rs3 s csr : Nat) :
    command opc rd rs1 rs2 rs3 s csr =
      (BitVec.ofNat 32 (opc <<< 26) ||| BitVec.ofNat 32 (rd <<< 23) ||| BitVec.ofNat 32 (rs1 <<< 20) |||
        BitVec.ofNat 32 (rs2 <<< 17) ||| BitVec.ofNat 32 (rs3 <<< 14) ||| BitVec.ofNat 32 (s <<< 13) |||
        BitVec.ofNat 32 (csr <<< 10)) := by
  simp only [command, BitVec.ofNat_or]

/-- AND distributes over the OR of two words. -/
theorem and_or_word (a b m : Word) : (a ||| b) &&& m = (a &&& m) ||| (b &&& m) := by
  ext i hi
  simp [Bool.and_or_distrib_right]

/-- A field of the OR of two words is the OR of their fields. -/
theorem extract_or (a b : Word) (lo n : Nat) :
    (a ||| b).extractLsb' lo n = a.extractLsb' lo n ||| b.extractLsb' lo n := by
  ext i hi; simp

/-- A bit of a value moved to its place. -/
theorem getLsbD_placed (n k i : Nat) :
    (BitVec.ofNat 32 (n <<< k)).getLsbD i = (decide (i < 32) && (decide (k ≤ i) && n.testBit (i - k))) := by
  simp [BitVec.getLsbD_ofNat, Nat.testBit_shiftLeft]

/-- A field that ends below a value's place reads 0 of it. -/
theorem placed_below (n k lo len : Nat) (h : lo + len ≤ k) : (BitVec.ofNat 32 (n <<< k)).extractLsb' lo len = 0 := by
  refine BitVec.eq_of_getLsbD_eq fun i hi => ?_
  have : decide (k ≤ lo + i) = false := by simp; omega
  simp [BitVec.getLsbD_extractLsb', getLsbD_placed, this]

/-- A field that begins above a value's place reads 0 of it. -/
theorem placed_above (n k lo len w : Nat) (hn : n < 2 ^ w) (h : k + w ≤ lo) :
    (BitVec.ofNat 32 (n <<< k)).extractLsb' lo len = 0 := by
  refine BitVec.eq_of_getLsbD_eq fun i hi => ?_
  have : n.testBit (lo + i - k) = false :=
    Nat.testBit_lt_two_pow (Nat.lt_of_lt_of_le hn (Nat.pow_le_pow_right (by decide) (by omega)))
  simp [BitVec.getLsbD_extractLsb', getLsbD_placed, this]

/-- The field at a value's place reads the value. -/
theorem placed_at (n k len : Nat) (h : k + len ≤ 32) :
    (BitVec.ofNat 32 (n <<< k)).extractLsb' k len = BitVec.ofNat len n := by
  refine BitVec.eq_of_getLsbD_eq fun i hi => ?_
  have h1 : k + i < 32 := by omega
  rw [BitVec.getLsbD_extractLsb', getLsbD_placed, BitVec.getLsbD_ofNat]
  simp [h1, hi]

section
variable (opc : Nat) (rd rs1 rs2 rs3 : XReg)

/-- RD of an assembled word (R61). -/
theorem rdField_command (s csr : Nat) (hs : s < 2) (hc : csr < 16) : rdField (command opc rd rs1 rs2 rs3 s csr) = rd := by
  simp only [rdField, command_eq, extract_or]
  rw [placed_below opc 26 23 3 (by omega), placed_at rd 23 3 (by omega),
    placed_above rs1 20 23 3 3 rs1.isLt (by omega), placed_above rs2 17 23 3 3 rs2.isLt (by omega),
    placed_above rs3 14 23 3 3 rs3.isLt (by omega), placed_above s 13 23 3 1 hs (by omega),
    placed_above csr 10 23 3 4 hc (by omega)]
  revert rd; decide

/-- RS1 of an assembled word (R61). -/
theorem rs1Field_command (s csr : Nat) (hs : s < 2) (hc : csr < 16) : rs1Field (command opc rd rs1 rs2 rs3 s csr) = rs1 := by
  simp only [rs1Field, command_eq, extract_or]
  rw [placed_below opc 26 20 3 (by omega), placed_below rd 23 20 3 (by omega), placed_at rs1 20 3 (by omega),
    placed_above rs2 17 20 3 3 rs2.isLt (by omega), placed_above rs3 14 20 3 3 rs3.isLt (by omega),
    placed_above s 13 20 3 1 hs (by omega), placed_above csr 10 20 3 4 hc (by omega)]
  revert rs1; decide

/-- RS2 of an assembled word (R61). -/
theorem rs2Field_command (s csr : Nat) (hs : s < 2) (hc : csr < 16) : rs2Field (command opc rd rs1 rs2 rs3 s csr) = rs2 := by
  simp only [rs2Field, command_eq, extract_or]
  rw [placed_below opc 26 17 3 (by omega), placed_below rd 23 17 3 (by omega), placed_below rs1 20 17 3 (by omega),
    placed_at rs2 17 3 (by omega), placed_above rs3 14 17 3 3 rs3.isLt (by omega),
    placed_above s 13 17 3 1 hs (by omega), placed_above csr 10 17 3 4 hc (by omega)]
  revert rs2; decide

/-- RS3 of an assembled word (R61). -/
theorem rs3Field_command (s csr : Nat) (hs : s < 2) (hc : csr < 16) : rs3Field (command opc rd rs1 rs2 rs3 s csr) = rs3 := by
  simp only [rs3Field, command_eq, extract_or]
  rw [placed_below opc 26 14 3 (by omega), placed_below rd 23 14 3 (by omega), placed_below rs1 20 14 3 (by omega),
    placed_below rs2 17 14 3 (by omega), placed_at rs3 14 3 (by omega),
    placed_above s 13 14 3 1 hs (by omega), placed_above csr 10 14 3 4 hc (by omega)]
  revert rs3; decide

/-- S of an assembled word that names no CSR (R63). -/
theorem sField_command (size : SampleSize) : sField (command opc rd rs1 rs2 rs3 size.bit 0) = size := by
  have h (k n : Nat) (hk : 14 ≤ k) : (BitVec.ofNat 32 (n <<< k)).getLsbD 13 = false := by
    have : decide (k ≤ 13) = false := decide_eq_false (by omega)
    rw [getLsbD_placed, this]
    rfl
  simp only [sField, command_eq, BitVec.getLsbD_or, h 26 opc (by decide), h 23 rd (by decide), h 20 rs1 (by decide),
    h 17 rs2 (by decide), h 14 rs3 (by decide)]
  cases size <;> rfl

/-- CSR of an assembled word (R64). -/
theorem csrField_command (csr : Fin 16) : csrField (command opc rd rs1 rs2 rs3 0 csr) = csr := by
  simp only [csrField, command_eq, extract_or]
  rw [placed_below opc 26 10 4 (by omega), placed_below rd 23 10 4 (by omega), placed_below rs1 20 10 4 (by omega),
    placed_below rs2 17 10 4 (by omega), placed_below rs3 14 10 4 (by omega), placed_at csr 10 4 (by omega)]
  revert csr; decide

end

/-- The fixed bits of a row in an assembled word, field by field (R66). -/
theorem command_and (opc rd rs1 rs2 rs3 s csr : Nat) (m : Word) :
    command opc rd rs1 rs2 rs3 s csr &&& m =
      (BitVec.ofNat 32 (opc <<< 26) &&& m ||| BitVec.ofNat 32 (rd <<< 23) &&& m |||
        BitVec.ofNat 32 (rs1 <<< 20) &&& m ||| BitVec.ofNat 32 (rs2 <<< 17) &&& m |||
        BitVec.ofNat 32 (rs3 <<< 14) &&& m ||| BitVec.ofNat 32 (s <<< 13) &&& m |||
        BitVec.ofNat 32 (csr <<< 10) &&& m) := by
  simp only [command_eq, and_or_word]

end Sys2Proof
end

