-- ==== Sys2Proof/Laws/Samples.lean ====
section
/-! SUPPORT. MemRead and MemWrite as samples in host order (20_memory R43), reads and writes that the host does not race with, and the two ends of a command. -/
namespace Sys2Proof.Machine

/-! ## The ends of a command (R130) -/

/-- A command that ends with OK. -/
theorem State.finish_ok (s : State) : s.finish .ok = finishedOk s := by
  simp [State.finish, finishedOk, Status.complete, ResultCode.bits]

/-- A command that raises. -/
theorem State.finish_error (s : State) (c : ResultCode) (h : c ≠ .ok) : s.finish c = failedWith c.bits s := by
  have : (c != .ok) = true := by simpa using h
  simp [State.finish, failedWith, Status.complete, this]

/-- A command that ends with OK after it wrote memory only. -/
theorem SameButMem.finish_ok {s u : State} (h : SameButMem s u) : WroteMemoryOnly s (u.finish .ok) := by
  unfold WroteMemoryOnly
  rw [SameButMem] at h
  rw [State.finish_ok, h]
  rfl

/-! ## Two and four bytes as one value -/

theorem toNat_append2 (a b : Byte) : (a ++ b).toNat = a.toNat * 2 ^ 8 + b.toNat := by
  rw [BitVec.toNat_append, Nat.shiftLeft_eq, Nat.mul_comm, ← Nat.two_pow_add_eq_or_of_lt (i := 8) b.isLt]

theorem toNat_append4 (a b c d : Byte) :
    (a ++ b ++ c ++ d).toNat = ((a.toNat * 2 ^ 8 + b.toNat) * 2 ^ 8 + c.toNat) * 2 ^ 8 + d.toNat := by
  have h1 : (a ++ b ++ c ++ d).toNat = (a ++ b ++ c).toNat * 2 ^ 8 + d.toNat := by
    rw [BitVec.toNat_append, Nat.shiftLeft_eq, Nat.mul_comm, ← Nat.two_pow_add_eq_or_of_lt (i := 8) d.isLt]
  have h2 : (a ++ b ++ c).toNat = (a ++ b).toNat * 2 ^ 8 + c.toNat := by
    rw [BitVec.toNat_append, Nat.shiftLeft_eq, Nat.mul_comm, ← Nat.two_pow_add_eq_or_of_lt (i := 8) c.isLt]
  rw [h1, h2, toNat_append2]

/-! ## MemRead and MemWrite (R43) -/

theorem State.memRead_one (s : State) (a : Nat) : s.memRead a 1 = (s.coreByte a).toNat := by
  cases h : s.hostBe <;> simp [State.memRead, lane, h]

theorem State.memRead_two (s : State) (a : Nat) : s.memRead a 2 = (halfAt s.hostBe s.coreByte a).toNat := by
  simp only [State.memRead, lane, halfAt, List.range, List.range.loop, List.map, List.sum_cons, List.sum_nil,
    Nat.shiftLeft_eq]
  cases s.hostBe <;>
    simp only [Bool.false_eq_true, if_true, if_false, toNat_append2, Nat.add_zero] <;> omega

theorem State.memRead_four (s : State) (a : Nat) : s.memRead a 4 = (floatAt s.hostBe s.coreByte a).toNat := by
  simp only [State.memRead, lane, floatAt, List.range, List.range.loop, List.map, List.sum_cons, List.sum_nil,
    Nat.shiftLeft_eq, Nat.add_zero]
  generalize s.coreByte a = b0
  generalize s.coreByte (a + 1) = b1
  generalize s.coreByte (a + 2) = b2
  generalize s.coreByte (a + 3) = b3
  cases s.hostBe <;> simp only [Bool.false_eq_true, if_true, if_false, toNat_append4]
  · generalize b0.toNat = n0, b1.toNat = n1, b2.toNat = n2, b3.toNat = n3
    ring
  · generalize b0.toNat = n0, b1.toNat = n1, b2.toNat = n2, b3.toNat = n3
    ring

/-- The lanes of a value that MemWrite stores. -/
theorem State.byteAt_memWrite_lane (s : State) (a n v k : Nat) (hk : k < n) :
    (s.memWrite a n v).byteAt (a + k) = laneByte s.hostBe n v k := by
  rw [State.byteAt_memWrite, if_pos (by omega), Nat.add_sub_cancel_left]

theorem State.memWrite_one (s : State) (a : Nat) (b : Byte) :
    (s.memWrite a 1 b.toNat).byteAt a = b ∧ ∀ c, c ≠ a → (s.memWrite a 1 b.toNat).byteAt c = s.byteAt c := by
  constructor
  · rw [State.byteAt_memWrite, if_pos (by omega)]
    cases s.hostBe <;> simp [laneByte, lane]
  · intro c hc
    rw [State.byteAt_memWrite, if_neg (by omega)]

theorem State.memWrite_two (s : State) (a : Nat) (h : Half) :
    StoresHalf s.hostBe s.byteAt (s.memWrite a 2 h.toNat).byteAt a h := by
  refine ⟨?_, fun c hc => by rw [State.byteAt_memWrite, if_neg (by omega)]⟩
  have e0 := s.byteAt_memWrite_lane a 2 h.toNat 0 (by omega)
  have e1 := s.byteAt_memWrite_lane a 2 h.toNat 1 (by omega)
  rw [Nat.add_zero] at e0
  apply BitVec.eq_of_toNat_eq
  unfold halfAt
  rw [e0, e1]
  cases s.hostBe <;> simp only [if_true, if_false, toNat_append2, laneByte, lane, Bool.false_eq_true,
    BitVec.toNat_ofNat, Nat.shiftRight_eq_div_pow] <;> omega

theorem State.memWrite_four (s : State) (a : Nat) (f : Word) :
    StoresFloat s.hostBe s.byteAt (s.memWrite a 4 f.toNat).byteAt a f := by
  refine ⟨?_, fun c hc => by rw [State.byteAt_memWrite, if_neg (by omega)]⟩
  have e0 := s.byteAt_memWrite_lane a 4 f.toNat 0 (by omega)
  have e1 := s.byteAt_memWrite_lane a 4 f.toNat 1 (by omega)
  have e2 := s.byteAt_memWrite_lane a 4 f.toNat 2 (by omega)
  have e3 := s.byteAt_memWrite_lane a 4 f.toNat 3 (by omega)
  rw [Nat.add_zero] at e0
  apply BitVec.eq_of_toNat_eq
  unfold floatAt
  rw [e0, e1, e2, e3]
  cases s.hostBe <;> simp only [if_true, if_false, toNat_append4, laneByte, lane, Bool.false_eq_true,
    BitVec.toNat_ofNat, Nat.shiftRight_eq_div_pow] <;> omega

/-- A half depends on its two bytes. -/
theorem halfAt_congr (be : Bool) (m m' : Nat → Byte) (a a' : Nat) (h0 : m a = m' a') (h1 : m (a + 1) = m' (a' + 1)) :
    halfAt be m a = halfAt be m' a' := by
  simp only [halfAt, h0, h1]

/-- A float32 depends on its four bytes. -/
theorem floatAt_congr (be : Bool) (m m' : Nat → Byte) (a a' : Nat) (h : ∀ k < 4, m (a + k) = m' (a' + k)) :
    floatAt be m a = floatAt be m' a' := by
  have h0 := h 0 (by omega)
  rw [Nat.add_zero, Nat.add_zero] at h0
  simp only [floatAt, h0, h 1 (by omega), h 2 (by omega), h 3 (by omega)]

/-! ## Elements of a buffer command -/

/-- Element i of CVT.H2F.BUF (R85). -/
theorem h2fSample_stores (d a i : Nat) (s : State) :
    StoresFloat s.hostBe s.byteAt (h2fSample d a i s).byteAt (d + 4 * i)
      (h2f (halfAt s.hostBe s.coreByte (a + 2 * i))) := by
  unfold h2fSample
  rw [State.memRead_two, BitVec.ofNat_toNat, BitVec.setWidth_eq]
  exact s.memWrite_four _ _

/-- Element i of CVT.F2H.BUF (R97). -/
theorem f2hSample_stores (d a i : Nat) (s : State) :
    StoresHalf s.hostBe s.byteAt (f2hSample d a i s).byteAt (d + 2 * i)
      (f2h (floatAt s.hostBe s.coreByte (a + 4 * i))) := by
  unfold f2hSample
  rw [State.memRead_four, BitVec.ofNat_toNat, BitVec.setWidth_eq]
  exact s.memWrite_two _ _

/-- Element i of PAYLOAD.IN (R114, R115): the sample's logical value. -/
theorem payloadSample_stores (d a i : Nat) (s : State) :
    StoresHalf s.hostBe s.byteAt (payloadSample s.swapNeeded d a i s).byteAt (d + 2 * i)
      (halfAt s.hdrInfo.storedBe s.coreByte (a + 2 * i)) := by
  refine ⟨?_, fun c hc => by rw [payloadSample, byteAt_copyPair, if_neg (by omega), if_neg (by omega)]⟩
  have h0 : (payloadSample s.swapNeeded d a i s).byteAt (d + 2 * i) =
      if s.swapNeeded then s.coreByte (a + 2 * i + 1) else s.coreByte (a + 2 * i) := by
    rw [payloadSample, byteAt_copyPair, if_pos rfl]
  have h1 : (payloadSample s.swapNeeded d a i s).byteAt (d + 2 * i + 1) =
      if s.swapNeeded then s.coreByte (a + 2 * i) else s.coreByte (a + 2 * i + 1) := by
    rw [payloadSample, byteAt_copyPair, if_neg (by omega), if_pos rfl]
  unfold halfAt
  rw [h0, h1]
  unfold State.swapNeeded
  cases s.hdrInfo.storedBe <;> cases s.hostBe <;> rfl

/-! ## Without races (R146 item 1) -/

/-- A command reads a byte of regions that the host has not touched as it is. -/
theorem State.coreByte_quiet (s : State) (rs : List Region) (c : Nat) (h : s.Quiet rs) (hc : inRegions rs c = true) :
    s.coreByte c = s.byteAt c := by
  have : s.hostWrote c = false := by
    simp only [State.hostWrote, List.any_eq_false, Bool.and_eq_true, decide_eq_true_eq]
    intro u hu ⟨_, e⟩
    have hq := h u hu
    rw [e, hc] at hq
    cases hq
  simp [State.coreByte, this]

/-- Regions that the host has not touched hold no race to settle. -/
theorem State.settle_quiet (s : State) (rs : List Region) (h : s.Quiet rs) : s.settle rs = s := by
  have key : ∀ (l : List Touch) (t : State), (∀ u ∈ l, inRegions rs u.addr = false) → l.foldl
      (fun t u => if inRegions rs u.addr then t.writeByte u.addr (Config.raceLeftByte s.tick u.addr) else t) t = t := by
    intro l
    induction l with
    | nil => intro t _; rfl
    | cons u l ih =>
      intro t hl
      rw [List.foldl_cons, hl u (by simp)]
      exact ih t fun v hv => hl v (by simp [hv])
  exact key s.touched s h

/-- A change of memory is no access of the host. -/
theorem SameButMem.quiet {s t : State} (h : SameButMem s t) {rs : List Region} (hq : s.Quiet rs) : t.Quiet rs := by
  intro u hu
  rw [h.touched] at hu
  exact hq u hu

end Sys2Proof.Machine
end

