-- ==== Sys2Proof/Laws/Parser.lean ====
section
/-! SUPPORT. The header parser against the grammar (42_header_parser R100 to R107): what each piece answers on text of its grammar, and what its success says of the bytes it took. -/
namespace Sys2Proof.Machine

/-! ## Single bytes and runs -/

theorem expect_cons (ok : Byte → Bool) (b : Byte) (l : List Byte) (h : ok b = true) : expect ok (b :: l) = .ok (b, l) := by
  simp [expect, h]

theorem expect_ok {ok : Byte → Bool} {l r : List Byte} {b : Byte} (h : expect ok l = .ok (b, r)) :
    l = b :: r ∧ ok b = true := by
  cases l with
  | nil => cases h
  | cons c l =>
    cases hc : ok c <;> simp only [expect, hc, Bool.false_eq_true, if_true, if_false] at h
    · cases h
    · cases h
      exact ⟨rfl, hc⟩

/-- A list is not continued by a byte that satisfies the test. -/
def Ends (ok : Byte → Bool) (l : List Byte) : Prop := ∀ b r, l = b :: r → ok b = false

theorem Ends.cons {ok : Byte → Bool} {b : Byte} {l : List Byte} (h : ok b = false) : Ends ok (b :: l) := by
  intro c r e
  cases e
  exact h

theorem takeWhile_run {ok : Byte → Bool} {ds r : List Byte} (hd : ds.all ok = true) (hr : Ends ok r) :
    (ds ++ r).takeWhile ok = ds := by
  induction ds with
  | nil =>
    cases r with
    | nil => rfl
    | cons b r => simp [hr b r rfl]
  | cons d ds ih =>
    simp only [List.all_cons, Bool.and_eq_true] at hd
    simp [hd.1, ih hd.2]

theorem dropWhile_run {ok : Byte → Bool} {ds r : List Byte} (hd : ds.all ok = true) (hr : Ends ok r) :
    (ds ++ r).dropWhile ok = r := by
  induction ds with
  | nil =>
    cases r with
    | nil => rfl
    | cons b r => simp [hr b r rfl]
  | cons d ds ih =>
    simp only [List.all_cons, Bool.and_eq_true] at hd
    simp [hd.1, ih hd.2]

theorem takeWhile_all (ok : Byte → Bool) (l : List Byte) : (l.takeWhile ok).all ok = true := by
  induction l with
  | nil => rfl
  | cons b l ih =>
    cases h : ok b
    · simp [h]
    · simp [h]

theorem dropWhile_ends (ok : Byte → Bool) (l : List Byte) : Ends ok (l.dropWhile ok) := by
  induction l with
  | nil => intro b r e; cases e
  | cons b l ih =>
    cases h : ok b
    · rw [List.dropWhile_cons_of_neg (by simp [h])]
      exact .cons h
    · rw [List.dropWhile_cons_of_pos h]
      exact ih

theorem optional_some (ok : Byte → Bool) (b : Byte) (l : List Byte) (h : ok b = true) :
    optional ok (b :: l) = (some b, l) := by
  simp [optional, h]

theorem optional_none (ok : Byte → Bool) (l : List Byte) (h : Ends ok l) : optional ok l = (none, l) := by
  cases l with
  | nil => rfl
  | cons b l => simp [optional, h b l rfl]

/-- An optional byte, taken or not. -/
theorem optional_cases (ok : Byte → Bool) (l : List Byte) :
    (optional ok l = (none, l) ∧ Ends ok l) ∨ ∃ b r, l = b :: r ∧ ok b = true ∧ optional ok l = (some b, r) := by
  cases l with
  | nil => exact .inl ⟨rfl, fun _ _ e => by cases e⟩
  | cons b l =>
    cases h : ok b
    · exact .inl ⟨by simp [optional, h], .cons h⟩
    · exact .inr ⟨b, l, rfl, h, by simp [optional, h]⟩

/-! ## Numbers (R101, R102) -/

/-- The value of digits read after a running value. -/
def decimalFrom (v : Nat) (ds : List Byte) : Nat := ds.foldl (fun v b => 10 * v + (b.toNat - 0x30)) v

theorem decimalFrom_cons (v : Nat) (b : Byte) (ds : List Byte) :
    decimalFrom v (b :: ds) = decimalFrom (10 * v + (b.toNat - 0x30)) ds := by
  simp only [decimalFrom, List.foldl_cons]

theorem le_decimalFrom (v : Nat) (ds : List Byte) : v ≤ decimalFrom v ds := by
  induction ds generalizing v with
  | nil => exact Nat.le_refl v
  | cons b ds ih =>
    rw [decimalFrom_cons]
    exact Nat.le_trans (by omega) (ih _)

theorem uintFrom_digit (v : Nat) (b : Byte) (l : List Byte) (hb : isDigit b = true)
    (h : 10 * v + (b.toNat - 0x30) ≤ maxDimension) : uintFrom v (b :: l) = uintFrom (10 * v + (b.toNat - 0x30)) l := by
  simp only [uintFrom, hb, Nat.not_lt.mpr h, if_true, if_false]

theorem uintFrom_run {v : Nat} {ds r : List Byte} (hd : ds.all isDigit = true) (hr : Ends isDigit r)
    (hv : decimalFrom v ds ≤ maxDimension) : uintFrom v (ds ++ r) = .ok (decimalFrom v ds, r) := by
  induction ds generalizing v with
  | nil =>
    cases r with
    | nil => rfl
    | cons b r => simp [uintFrom, hr b r rfl, decimalFrom]
  | cons d ds ih =>
    simp only [List.all_cons, Bool.and_eq_true] at hd
    rw [decimalFrom_cons] at hv ⊢
    rw [List.cons_append, uintFrom_digit v d _ hd.1 (Nat.le_trans (le_decimalFrom _ ds) hv)]
    exact ih hd.2 hv

theorem uintFrom_ok {v : Nat} {l r : List Byte} {n : Nat} (h : uintFrom v l = .ok (n, r)) :
    ∃ ds, l = ds ++ r ∧ ds.all isDigit = true ∧ n = decimalFrom v ds ∧ (ds ≠ [] → n ≤ maxDimension) := by
  induction l generalizing v with
  | nil => cases h; exact ⟨[], rfl, rfl, rfl, fun e => absurd rfl e⟩
  | cons b l ih =>
    unfold uintFrom at h
    split at h
    · rename_i hb
      split at h
      · cases h
      · rename_i hle
        obtain ⟨ds, rfl, hd, hn, hm⟩ := ih h
        refine ⟨b :: ds, rfl, by simp [hb, hd], hn, fun _ => ?_⟩
        by_cases hds : ds = []
        · subst hds; subst hn; simp only [decimalFrom, List.foldl_nil]; omega
        · exact hm hds
    · cases h; exact ⟨[], rfl, rfl, rfl, fun e => absurd rfl e⟩

theorem decimalFrom_zero (ds : List Byte) : decimalFrom 0 ds = decimal ds := rfl

theorem isNumeral_iff (ds : List Byte) : isNumeral ds = true ↔ ds.all isDigit = true ∧ ds ≠ [] := by
  cases ds <;> simp [isNumeral]

theorem dimensionOk_iff (ds : List Byte) : dimensionOk ds = true ↔
    (ds.all isDigit = true ∧ ds ≠ []) ∧ 1 ≤ decimal ds ∧ decimal ds ≤ 2 ^ 31 - 1 := by
  simp only [dimensionOk, Bool.and_eq_true, decide_eq_true_eq, isNumeral_iff, and_assoc]

theorem uint_run {ds r : List Byte} (hd : dimensionOk ds = true) (hr : Ends isDigit r) :
    uint (ds ++ r) = .ok (decimal ds, r) := by
  obtain ⟨⟨h1, h2⟩, h3, h4⟩ := (dimensionOk_iff ds).mp hd
  cases ds with
  | nil => exact absurd rfl h2
  | cons d ds =>
    have hdig : isDigit d = true := by simp only [List.all_cons, Bool.and_eq_true] at h1; exact h1.1
    unfold uint
    rw [List.cons_append, expect_cons _ _ _ hdig, ← List.cons_append,
      uintFrom_run h1 hr (by rw [decimalFrom_zero]; exact h4), decimalFrom_zero]
    have : decimal (d :: ds) ≠ 0 := by omega
    simp [bind, Except.bind, this]

theorem uint_ok {l r : List Byte} {n : Nat} (h : uint l = .ok (n, r)) :
    ∃ ds, l = ds ++ r ∧ dimensionOk ds = true ∧ n = decimal ds := by
  unfold uint at h
  cases he : expect isDigit l with
  | error e => rw [he] at h; cases h
  | ok p =>
    obtain ⟨b, l'⟩ := p
    obtain ⟨rfl, hb⟩ := expect_ok he
    rw [he] at h
    cases hu : uintFrom 0 (b :: l') with
    | error e => rw [hu] at h; cases h
    | ok q =>
      obtain ⟨v, r'⟩ := q
      rw [hu] at h
      simp only [bind, Except.bind] at h
      split at h
      · cases h
      · rename_i hv
        cases h
        obtain ⟨ds, e, hd, hn, hm⟩ := uintFrom_ok hu
        have hne : ds ≠ [] := by
          rintro rfl
          unfold uintFrom at hu
          rw [if_pos hb] at hu
          split at hu
          · cases hu
          · obtain ⟨ds', e', _⟩ := uintFrom_ok hu
            have := congrArg List.length e'
            have := congrArg List.length e
            simp at *
            omega
        refine ⟨ds, e, ?_, hn⟩
        rw [dimensionOk_iff]
        rw [decimalFrom_zero] at hn
        have := hm hne
        unfold maxDimension at this
        exact ⟨⟨hd, hne⟩, by omega, by omega⟩

/-! ## The three lines -/

theorem bind_ok {ε α β : Type} {x : Except ε α} {f : α → Except ε β} {b : β} (h : (x >>= f) = .ok b) :
    ∃ a, x = .ok a ∧ f a = .ok b := by
  cases x with
  | error e => cases h
  | ok a => exact ⟨a, rfl, h⟩

theorem ok_bind {ε α β : Type} (a : α) (f : α → Except ε β) : ((Except.ok a : Except ε α) >>= f) = f a := rfl

/-- Line 1 (R100). -/
theorem magic_run (rgb : Bool) (r : List Byte) :
    magic (chP :: (if rgb then chUpperH else chLowerH) :: chLF :: r) = .ok (if rgb then 3 else 1, r) := by
  unfold magic
  have ht : ((if rgb then chUpperH else chLowerH) == chLowerH || (if rgb then chUpperH else chLowerH) == chUpperH) = true := by
    cases rgb <;> decide
  simp only [expect_cons (· == chP) chP _ (by decide), ok_bind,
    expect_cons (fun b => b == chLowerH || b == chUpperH) _ _ ht, expect_cons (· == chLF) chLF _ (by decide)]
  cases rgb <;> rfl

theorem magic_ok {l r : List Byte} {c : Nat} (h : magic l = .ok (c, r)) :
    ∃ rgb : Bool, l = chP :: (if rgb then chUpperH else chLowerH) :: chLF :: r ∧ c = if rgb then 3 else 1 := by
  unfold magic at h
  obtain ⟨⟨b1, l1⟩, h1, g1⟩ := bind_ok h
  obtain ⟨⟨b2, l2⟩, h2, g2⟩ := bind_ok g1
  obtain ⟨⟨b3, l3⟩, h3, g3⟩ := bind_ok g2
  cases g3
  obtain ⟨rfl, e1⟩ := expect_ok h1
  obtain ⟨rfl, e2⟩ := expect_ok h2
  obtain ⟨rfl, e3⟩ := expect_ok h3
  rw [beq_iff_eq] at e1 e3
  subst e1 e3
  rw [Bool.or_eq_true, beq_iff_eq, beq_iff_eq] at e2
  rcases e2 with rfl | rfl
  · exact ⟨false, rfl, rfl⟩
  · exact ⟨true, rfl, rfl⟩

theorem separator_not_digit (b : Byte) (h : isSeparator b = true) : isDigit b = false := by
  simp only [isSeparator, Bool.or_eq_true, beq_iff_eq] at h
  rcases h with rfl | rfl <;> decide

theorem digit_not_separator (b : Byte) (h : isDigit b = true) : isSeparator b = false := by
  cases hs : isSeparator b
  · rfl
  · rw [separator_not_digit b hs] at h; cases h

/-- Line 2 (R101). -/
theorem resolution_run {ws seps hs r : List Byte} (hw : dimensionOk ws = true) (hsep : seps.all isSeparator = true)
    (hne : seps ≠ []) (hh : dimensionOk hs = true) :
    resolution (ws ++ seps ++ hs ++ [chLF] ++ r) = .ok ((decimal ws, decimal hs), r) := by
  cases seps with
  | nil => exact absurd rfl hne
  | cons c seps =>
    simp only [List.all_cons, Bool.and_eq_true] at hsep
    obtain ⟨⟨hd, hdn⟩, _⟩ := (dimensionOk_iff hs).mp hh
    have hends : Ends isSeparator (hs ++ chLF :: r) := by
      cases hs with
      | nil => exact absurd rfl hdn
      | cons d hs =>
        simp only [List.all_cons, Bool.and_eq_true] at hd
        exact .cons (digit_not_separator d hd.1)
    unfold resolution
    have e : ws ++ (c :: seps) ++ hs ++ [chLF] ++ r = ws ++ (c :: (seps ++ (hs ++ chLF :: r))) := by simp
    rw [e, uint_run hw (.cons (separator_not_digit c hsep.1)), ok_bind]
    simp only
    rw [expect_cons _ _ _ hsep.1, ok_bind]
    simp only
    rw [dropWhile_run hsep.2 hends, uint_run hh (.cons (by decide)), ok_bind]
    simp only
    rw [expect_cons _ _ _ (by decide), ok_bind]
    rfl

theorem resolution_ok {l r : List Byte} {w h : Nat} (e : resolution l = .ok ((w, h), r)) :
    ∃ ws seps hs, l = ws ++ seps ++ hs ++ [chLF] ++ r ∧ dimensionOk ws = true ∧ seps.all isSeparator = true ∧
      seps ≠ [] ∧ dimensionOk hs = true ∧ w = decimal ws ∧ h = decimal hs := by
  unfold resolution at e
  obtain ⟨⟨w', l1⟩, h1, e⟩ := bind_ok e
  obtain ⟨⟨c, l2⟩, h2, e⟩ := bind_ok e
  obtain ⟨⟨h', l3⟩, h3, e⟩ := bind_ok e
  obtain ⟨⟨n, l4⟩, h4, e⟩ := bind_ok e
  cases e
  obtain ⟨ws, rfl, hw, rfl⟩ := uint_ok h1
  obtain ⟨rfl, hc⟩ := expect_ok h2
  obtain ⟨hs, e3, hh, rfl⟩ := uint_ok h3
  obtain ⟨rfl, hn⟩ := expect_ok h4
  rw [beq_iff_eq] at hn
  subst hn
  refine ⟨ws, c :: l2.takeWhile isSeparator, hs, ?_, hw, by simp [hc], by simp, hh, rfl, rfl⟩
  have e2 := List.takeWhile_append_dropWhile (p := isSeparator) (l := l2)
  rw [e3] at e2
  conv_lhs => rw [← e2]
  simp

/-- The point with the digits after it, as bytes of a marker (R103). -/
def fractionBytes : Option (List Byte) → List Byte
  | none => []
  | some f => chPoint :: f

/-- The exponent, as bytes of a marker (R103). -/
def exponentBytes : Option (Byte × Option Byte × List Byte) → List Byte
  | none => []
  | some (e, s, ds) => e :: (s.toList ++ ds)

/-- The grammar of the exponent (R103). -/
def exponentOk : Option (Byte × Option Byte × List Byte) → Bool
  | none => true
  | some (e, s, ds) => isExponent e && s.toList.all isSign && isNumeral ds

theorem MarkerText.bytes_eq (m : MarkerText) :
    m.bytes = m.sign.toList ++ m.whole ++ fractionBytes m.fraction ++ exponentBytes m.exponent := by
  obtain ⟨sg, w, f, e⟩ := m
  cases f <;> cases e <;> rfl

theorem MarkerText.ok_iff (m : MarkerText) : m.ok = true ↔
    m.sign.toList.all isSign = true ∧ m.digits.all isDigit = true ∧ m.digits ≠ [] ∧ exponentOk m.exponent = true := by
  obtain ⟨sg, w, f, e⟩ := m
  unfold MarkerText.ok exponentOk
  cases e <;> cases hd : (MarkerText.digits ⟨sg, w, f, _⟩) <;> simp [and_assoc]

theorem significand_run {whole r : List Byte} {fraction : Option (List Byte)}
    (hd : (whole ++ fraction.getD []).all isDigit = true) (hne : whole ++ fraction.getD [] ≠ [])
    (hr : Ends isDigit r) (hp : Ends (· == chPoint) r) :
    significand (whole ++ fractionBytes fraction ++ r) = .ok (whole ++ fraction.getD [], r) := by
  rw [List.all_append, Bool.and_eq_true] at hd
  cases fraction with
  | none =>
    have e : whole ++ fractionBytes none ++ r = whole ++ r := by simp [fractionBytes]
    rw [Option.getD_none, List.append_nil] at hne
    rw [e]
    simp only [significand, takeWhile_run hd.1 hr, dropWhile_run hd.1 hr, optional_none _ _ hp, Option.isSome_none,
      Bool.false_eq_true, if_false, List.append_nil, hne, Option.getD_none]
  | some f =>
    have e : whole ++ fractionBytes (some f) ++ r = whole ++ (chPoint :: (f ++ r)) := by simp [fractionBytes]
    have hpt : Ends isDigit (chPoint :: (f ++ r)) := .cons (by decide)
    rw [Option.getD_some] at hne hd
    rw [e]
    simp only [significand, takeWhile_run hd.1 hpt, dropWhile_run hd.1 hpt,
      optional_some (· == chPoint) chPoint _ (by decide), Option.isSome_some, if_true, takeWhile_run hd.2 hr,
      dropWhile_run hd.2 hr, hne, if_false, Option.getD_some]

theorem significand_ok {l r ds : List Byte} (h : significand l = .ok (ds, r)) :
    ∃ whole fraction, l = whole ++ fractionBytes fraction ++ r ∧ ds = whole ++ fraction.getD [] ∧
      ds.all isDigit = true ∧ ds ≠ [] := by
  unfold significand at h
  simp only at h
  have hsplit := List.takeWhile_append_dropWhile (p := isDigit) (l := l)
  rcases optional_cases (· == chPoint) (l.dropWhile isDigit) with ⟨e, _⟩ | ⟨b, l', e', hb, e⟩
  · rw [e] at h
    simp only [Option.isSome_none, Bool.false_eq_true, if_false, List.append_nil] at h
    split at h
    · cases h
    · rename_i hne
      cases h
      exact ⟨l.takeWhile isDigit, none, by simp [fractionBytes, hsplit], by simp, takeWhile_all _ _, hne⟩
  · rw [e] at h
    simp only [Option.isSome_some, if_true] at h
    rw [beq_iff_eq] at hb
    subst hb
    split at h
    · cases h
    · rename_i hne
      cases h
      refine ⟨l.takeWhile isDigit, some (l'.takeWhile isDigit), ?_, rfl, ?_, hne⟩
      · have e2 := List.takeWhile_append_dropWhile (p := isDigit) (l := l')
        rw [e', ← e2] at hsplit
        conv_lhs => rw [← hsplit]
        simp [fractionBytes]
      · rw [List.all_append, takeWhile_all, takeWhile_all]; rfl

theorem exponent_run {e : Option (Byte × Option Byte × List Byte)} {r : List Byte} (he : exponentOk e = true)
    (hr : Ends isDigit r) (hx : Ends isExponent r) : exponent (exponentBytes e ++ r) = .ok ((), r) := by
  unfold exponent
  cases e with
  | none => rw [exponentBytes, List.nil_append, optional_none _ _ hx]
  | some p =>
    obtain ⟨b, sg, ds⟩ := p
    simp only [exponentOk, Bool.and_eq_true, isNumeral_iff] at he
    obtain ⟨⟨hb, hs⟩, hd, hne⟩ := he
    have e1 : exponentBytes (some (b, sg, ds)) ++ r = b :: (sg.toList ++ ds ++ r) := by simp [exponentBytes]
    rw [e1, optional_some _ _ _ hb]
    cases ds with
    | nil => exact absurd rfl hne
    | cons d ds =>
      have hdd : isDigit d = true := by simp only [List.all_cons, Bool.and_eq_true] at hd; exact hd.1
      have hds : ds.all isDigit = true := by simp only [List.all_cons, Bool.and_eq_true] at hd; exact hd.2
      have hsd : isSign d = false := by
        cases hsd : isSign d
        · rfl
        · simp only [isSign, Bool.or_eq_true, beq_iff_eq] at hsd
          rcases hsd with rfl | rfl <;> exact absurd hdd (by decide)
      have e2 : (optional isSign (sg.toList ++ d :: ds ++ r)).2 = d :: (ds ++ r) := by
        cases sg with
        | none => simp [optional, hsd]
        | some c =>
          have hc : isSign c = true := by simpa using hs
          simp [optional, hc]
      simp only [e2, expect_cons _ _ _ hdd, ok_bind, dropWhile_run hds hr]
      rfl

theorem exponent_ok {l r : List Byte} (h : exponent l = .ok ((), r)) :
    ∃ e, l = exponentBytes e ++ r ∧ exponentOk e = true := by
  unfold exponent at h
  rcases optional_cases isExponent l with ⟨e, _⟩ | ⟨b, l', rfl, hb, e⟩
  · rw [e] at h
    cases h
    exact ⟨none, rfl, rfl⟩
  · rw [e] at h
    obtain ⟨⟨d, l2⟩, h1, g1⟩ := bind_ok h
    cases g1
    obtain ⟨e2, hd⟩ := expect_ok h1
    have e3 := List.takeWhile_append_dropWhile (p := isDigit) (l := l2)
    have hnum : isNumeral (d :: l2.takeWhile isDigit) = true := by
      rw [isNumeral_iff]
      refine ⟨?_, by simp⟩
      rw [List.all_cons, takeWhile_all, hd]
      rfl
    rcases optional_cases isSign l' with ⟨e4, _⟩ | ⟨c, l'', rfl, hc, e4⟩
    · rw [e4] at e2
      refine ⟨some (b, none, d :: l2.takeWhile isDigit), ?_, ?_⟩
      · simp only [exponentBytes, Option.toList, List.nil_append, List.cons_append, e3]
        rw [← e2]
      · simp [exponentOk, hb, hnum]
    · rw [e4] at e2
      refine ⟨some (b, some c, d :: l2.takeWhile isDigit), ?_, ?_⟩
      · simp only [exponentBytes, Option.toList, List.nil_append, List.cons_append, e3]
        rw [← e2]
      · simp [exponentOk, hb, hc, hnum]

/-- Line 3 (R103, R104). -/
theorem marker_run {m : MarkerText} (hm : m.ok = true) (r : List Byte) :
    marker (m.bytes ++ [chLF] ++ r) = .ok (m.negative, r) := by
  obtain ⟨hs, hd, hne, he⟩ := m.ok_iff.mp hm
  obtain ⟨sg, whole, fraction, ex⟩ := m
  rw [MarkerText.bytes_eq]
  simp only [MarkerText.digits] at *
  have ends : ∀ (ok : Byte → Bool), ok chLF = false → (∀ b, isExponent b = true → ok b = false) →
      Ends ok (exponentBytes ex ++ (chLF :: r)) := by
    intro ok h1 h2
    cases ex with
    | none => exact .cons h1
    | some p =>
      obtain ⟨b, s2, ds⟩ := p
      simp only [exponentOk, Bool.and_eq_true] at he
      exact .cons (h2 b he.1.1)
  have hx : ∀ b, isExponent b = true → b = 0x65 ∨ b = 0x45 := by
    intro b hb
    simpa [isExponent] using hb
  have hsig := significand_run (r := exponentBytes ex ++ (chLF :: r)) hd hne
    (ends isDigit (by decide) (fun b hb => by rcases hx b hb with rfl | rfl <;> decide))
    (ends (· == chPoint) (by decide) (fun b hb => by rcases hx b hb with rfl | rfl <;> decide))
  have hexp := exponent_run (r := chLF :: r) he (.cons (by decide)) (.cons (by decide))
  have e1 : sg.toList ++ whole ++ fractionBytes fraction ++ exponentBytes ex ++ [chLF] ++ r =
      sg.toList ++ (whole ++ fractionBytes fraction ++ (exponentBytes ex ++ (chLF :: r))) := by simp
  have e2 : optional isSign (sg.toList ++ (whole ++ fractionBytes fraction ++ (exponentBytes ex ++ (chLF :: r)))) =
      (sg, whole ++ fractionBytes fraction ++ (exponentBytes ex ++ (chLF :: r))) := by
    cases sg with
    | some c => exact optional_some _ _ _ (by simpa using hs)
    | none =>
      refine optional_none _ _ ?_
      rw [List.all_append, Bool.and_eq_true] at hd
      cases whole with
      | cons d ds =>
        have hdd : isDigit d = true := by simp only [List.all_cons, Bool.and_eq_true] at hd; exact hd.1.1
        refine .cons ?_
        cases hsd : isSign d
        · rfl
        · simp only [isSign, Bool.or_eq_true, beq_iff_eq] at hsd
          rcases hsd with rfl | rfl <;> exact absurd hdd (by decide)
      | nil =>
        cases fraction with
        | none => simp at hne
        | some f => exact .cons (by decide)
  unfold marker
  rw [e1, e2]
  simp only [hsig, ok_bind, hexp, expect_cons (· == chLF) chLF _ (by decide)]
  rfl

theorem marker_ok {l r : List Byte} {n : Bool} (h : marker l = .ok (n, r)) :
    ∃ m : MarkerText, l = m.bytes ++ [chLF] ++ r ∧ m.ok = true ∧ n = m.negative := by
  unfold marker at h
  have finish : ∀ (sg : Option Byte) (l' : List Byte), l = sg.toList ++ l' → sg.toList.all isSign = true →
      optional isSign l = (sg, l') → ∃ m : MarkerText, l = m.bytes ++ [chLF] ++ r ∧ m.ok = true ∧ n = m.negative := by
    intro sg l' e1 hs e
    rw [e] at h
    obtain ⟨⟨ds, l2⟩, h1, g1⟩ := bind_ok h
    obtain ⟨⟨_, l3⟩, h2, g2⟩ := bind_ok g1
    obtain ⟨⟨c, l4⟩, h3, g3⟩ := bind_ok g2
    cases g3
    obtain ⟨whole, fraction, e2, rfl, hd, hne⟩ := significand_ok h1
    obtain ⟨ex, e3, he⟩ := exponent_ok h2
    obtain ⟨e4, hc⟩ := expect_ok h3
    rw [beq_iff_eq] at hc
    subst hc
    refine ⟨⟨sg, whole, fraction, ex⟩, ?_, ?_, rfl⟩
    · rw [e1, e2, e3, e4, MarkerText.bytes_eq]
      simp
    · rw [MarkerText.ok_iff]
      exact ⟨hs, hd, hne, he⟩
  rcases optional_cases isSign l with ⟨e, _⟩ | ⟨b, l', rfl, hb, e⟩
  · exact finish none l rfl rfl e
  · exact finish (some b) l' rfl (by simp [hb]) e

/-! ## The header -/

theorem HeaderText.ok_iff (t : HeaderText) : t.ok = true ↔ dimensionOk t.width = true ∧ t.seps.all isSeparator = true ∧
    t.seps ≠ [] ∧ dimensionOk t.height = true ∧ t.marker.ok = true := by
  unfold HeaderText.ok
  cases h : t.seps <;> simp [and_assoc]

/-- The parser accepts every header that the grammar admits, with its meaning, and reads no byte after it (R98, R107). -/
theorem header_run {t : HeaderText} (ht : t.ok = true) (r : List Byte) : header (t.bytes ++ r) = .ok (t.meaning, r) := by
  obtain ⟨hw, hs, hne, hh, hm⟩ := t.ok_iff.mp ht
  have e : t.bytes ++ r = chP :: (if t.rgb then chUpperH else chLowerH) :: chLF ::
      (t.width ++ t.seps ++ t.height ++ [chLF] ++ (t.marker.bytes ++ [chLF] ++ r)) := by
    simp [HeaderText.bytes]
  unfold header
  rw [e]
  simp only [magic_run, ok_bind, resolution_run hw hs hne hh, marker_run hm]
  rfl

/-- What the parser accepts begins with a header that the grammar admits (R100 to R104, R107). -/
theorem header_ok {l r : List Byte} {h : Header} (e : header l = .ok (h, r)) :
    ∃ t : HeaderText, t.ok = true ∧ l = t.bytes ++ r ∧ h = t.meaning := by
  unfold header at e
  obtain ⟨⟨c, l1⟩, h1, g1⟩ := bind_ok e
  obtain ⟨⟨⟨w, hh⟩, l2⟩, h2, g2⟩ := bind_ok g1
  obtain ⟨⟨n, l3⟩, h3, g3⟩ := bind_ok g2
  cases g3
  obtain ⟨rgb, e1, rfl⟩ := magic_ok h1
  obtain ⟨ws, seps, hs, e2, hw, hsep, hne, hhs, rfl, rfl⟩ := resolution_ok h2
  obtain ⟨m, e3, hm, rfl⟩ := marker_ok h3
  refine ⟨⟨rgb, ws, seps, hs, m⟩, (HeaderText.ok_iff _).mpr ⟨hw, hsep, hne, hhs, hm⟩, ?_, rfl⟩
  rw [e1, e2, e3]
  simp [HeaderText.bytes]

theorem MarkerText.one_le_length {m : MarkerText} (hm : m.ok = true) : 1 ≤ m.bytes.length := by
  obtain ⟨_, _, hne, _⟩ := m.ok_iff.mp hm
  obtain ⟨sg, whole, fraction, ex⟩ := m
  rw [MarkerText.bytes_eq]
  simp only [MarkerText.digits] at hne
  cases whole with
  | cons d ds => simp; omega
  | nil =>
    cases fraction with
    | none => simp at hne
    | some f => simp [fractionBytes]; omega

/-- The smallest header is 9 bytes (R109). -/
theorem HeaderText.nine_le_length {t : HeaderText} (ht : t.ok = true) : 9 ≤ t.bytes.length := by
  obtain ⟨hw, _, hne, hh, hm⟩ := t.ok_iff.mp ht
  have h1 := List.length_pos_iff.mpr ((dimensionOk_iff _).mp hw).1.2
  have h2 := List.length_pos_iff.mpr ((dimensionOk_iff _).mp hh).1.2
  have h3 := List.length_pos_iff.mpr hne
  have h4 := t.marker.one_le_length hm
  simp only [HeaderText.bytes, List.length_append, List.length_cons, List.length_nil]
  omega

/-- The bounds that a header's meaning keeps (R109). -/
theorem HeaderText.meaning_bounds {t : HeaderText} (ht : t.ok = true) :
    (t.meaning.channels = 1 ∨ t.meaning.channels = 3) ∧ (1 ≤ t.meaning.width ∧ t.meaning.width ≤ 2 ^ 31 - 1) ∧
      (1 ≤ t.meaning.height ∧ t.meaning.height ≤ 2 ^ 31 - 1) := by
  obtain ⟨hw, _, _, hh, _⟩ := t.ok_iff.mp ht
  refine ⟨?_, ((dimensionOk_iff _).mp hw).2, ((dimensionOk_iff _).mp hh).2⟩
  unfold HeaderText.meaning
  cases t.rgb <;> simp

/-! ## The file image -/

/-- The image is the bytes the command reads at a .. a+n-1 (R98). -/
theorem State.image_eq (s : State) (a n : Nat) : s.image a n = (List.range n).map (fun k => s.coreByte (a + k)) := by
  induction n generalizing a with
  | zero => rfl
  | succ n ih =>
    rw [State.image, ih, List.range_succ_eq_map, List.map_cons, List.map_map]
    congr 1
    refine List.map_congr_left fun k _ => ?_
    simp only [Function.comp]
    congr 1
    omega

/-- A region the host has not touched has no touched part. -/
theorem State.Quiet.shorter {s : State} {a n k : Nat} (hk : k ≤ n) (h : s.Quiet [⟨a, n⟩]) : s.Quiet [⟨a, k⟩] := by
  intro u hu
  have := h u hu
  rw [← Bool.not_eq_true, inRegions_iff] at this ⊢
  simp at *; omega

/-- An image the host has not touched is memory as it stands. -/
theorem State.image_quiet (s : State) (a n : Nat) (h : s.Quiet [⟨a, n⟩]) :
    s.image a n = (List.range n).map (fun k => s.byteAt (a + k)) := by
  rw [State.image_eq]
  refine List.map_congr_left fun k hk => ?_
  rw [List.mem_range] at hk
  exact s.coreByte_quiet _ _ h ((inRegions_iff _ _).mpr ⟨⟨a, n⟩, by simp, by simp, by simp; omega⟩)

/-- HDR.PARSE ends with OK only on a header of the grammar, which it has taken whole (R107). -/
theorem execHdrParse_success {base len : XReg} {s t : State} (h : execHdrParse base len s = .next t)
    (hc : t.status.lastcode = 0) :
    ∃ (text : HeaderText) (k : Nat), text.ok = true ∧ 9 ≤ k ∧ k ≤ s.natX len ∧
      s.natX base ≠ 0 ∧ s.natX base + s.natX len ≤ s.memBytes ∧
      t = ((s.setHeader text.meaning (s.natX base) (s.natX len) k).settle (hdrParseFootprint base len s).all).finish .ok := by
  rcases execHdrParse_cases base len s with ⟨_, e⟩ | ⟨_, l, _, e⟩ | ⟨hh, hd, p, h', e⟩ <;> cases e.symm.trans h
  · cases hc
  · cases hc
  · obtain ⟨text, ht, e1, rfl⟩ := header_ok h'
    have := congrArg List.length e1
    rw [State.image_length, List.length_append] at this
    have := HeaderText.nine_le_length ht
    obtain ⟨g1, g2⟩ := (hdrParseOk_iff _ _ _).mp hh
    exact ⟨text, s.natX len - p.length, ht, by omega, by omega, g1, g2, rfl⟩

end Sys2Proof.Machine
end

