-- ==== Sys2Proof/Laws/ParserReads.lean ====
section
/-! SUPPORT. Which bytes the parser reads (42_header_parser R98, R99): what it answers depends on those only. -/
namespace Sys2Proof.Machine

/-- The list from which a piece that starts at l goes on (or at which it fails) is rest, and the piece has looked at
nothing past the head of rest: any other list in its place with the same head gives the same answer. -/
def ReadsTo {α : Type} (f : List Byte → Except (List Byte) (α × List Byte)) (p rest : List Byte) : Prop :=
  (∃ v, ∀ r : List Byte, r.head? = rest.head? → f (p ++ r) = .ok (v, r)) ∨
    ∀ r : List Byte, r.head? = rest.head? → f (p ++ r) = .error r

/-- A piece of the parser reads its list byte by byte. -/
def Reader {α : Type} (f : List Byte → Except (List Byte) (α × List Byte)) : Prop :=
  ∀ l, ∃ p rest, l = p ++ rest ∧ ReadsTo f p rest

theorem head?_append_congr (q : List Byte) {r r' : List Byte} (h : r.head? = r'.head?) :
    (q ++ r).head? = (q ++ r').head? := by
  cases q with
  | nil => exact h
  | cons => rfl

theorem eq_of_head?_cons {r : List Byte} {b : Byte} {l : List Byte} (h : r.head? = (b :: l).head?) : ∃ t, r = b :: t := by
  cases r with
  | nil => cases h
  | cons c t => cases h; exact ⟨t, rfl⟩

theorem eq_nil_of_head? {r : List Byte} (h : r.head? = ([] : List Byte).head?) : r = [] := by
  cases r with
  | nil => rfl
  | cons => cases h

/-- One piece after another. -/
theorem Reader.bind {α β : Type} {f : List Byte → Except (List Byte) (α × List Byte)}
    {g : α → List Byte → Except (List Byte) (β × List Byte)} (hf : Reader f) (hg : ∀ v, Reader (g v)) :
    Reader (fun l => f l >>= fun x => g x.1 x.2) := by
  intro l
  obtain ⟨p, rest, rfl, ⟨v, hv⟩ | he⟩ := hf l
  · obtain ⟨q, rest', rfl, ⟨w, hw⟩ | he⟩ := hg v rest
    · refine ⟨p ++ q, rest', by simp, .inl ⟨w, fun r hr => ?_⟩⟩
      rw [List.append_assoc]
      simp only [hv _ (head?_append_congr q hr), ok_bind]
      exact hw r hr
    · refine ⟨p ++ q, rest', by simp, .inr fun r hr => ?_⟩
      rw [List.append_assoc]
      simp only [hv _ (head?_append_congr q hr), ok_bind]
      exact he r hr
  · refine ⟨p, rest, rfl, .inr fun r hr => ?_⟩
    simp only [he r hr]
    rfl

theorem Reader.pure {α : Type} (v : α) : Reader (fun l => .ok (v, l)) := fun l => ⟨[], l, rfl, .inl ⟨v, fun _ _ => rfl⟩⟩

theorem Reader.fail {α : Type} : Reader (α := α) (fun l => .error l) := fun l => ⟨[], l, rfl, .inr fun _ _ => rfl⟩

theorem Reader.map {α β : Type} {f : List Byte → Except (List Byte) (α × List Byte)} (hf : Reader f) (k : α → β) :
    Reader (fun l => f l >>= fun x => .ok (k x.1, x.2)) := hf.bind fun v => .pure (k v)

theorem Reader.expect (ok : Byte → Bool) : Reader (expect ok) := by
  intro l
  cases l with
  | nil => exact ⟨[], [], rfl, .inr fun r hr => by rw [eq_nil_of_head? hr]; rfl⟩
  | cons b t =>
    cases h : ok b
    · refine ⟨[], b :: t, rfl, .inr fun r hr => ?_⟩
      obtain ⟨u, rfl⟩ := eq_of_head?_cons hr
      simp [Machine.expect, h]
    · exact ⟨[b], t, rfl, .inl ⟨b, fun r _ => by simp [Machine.expect, h]⟩⟩

theorem Reader.optional (ok : Byte → Bool) : Reader (fun l => .ok (optional ok l)) := by
  intro l
  cases l with
  | nil => exact ⟨[], [], rfl, .inl ⟨none, fun r hr => by rw [eq_nil_of_head? hr]; rfl⟩⟩
  | cons b t =>
    cases h : ok b
    · refine ⟨[], b :: t, rfl, .inl ⟨none, fun r hr => ?_⟩⟩
      obtain ⟨u, rfl⟩ := eq_of_head?_cons hr
      simp [Machine.optional, h]
    · exact ⟨[b], t, rfl, .inl ⟨some b, fun r _ => by simp [Machine.optional, h]⟩⟩

/-- A run of bytes that satisfy the test. -/
theorem Reader.run (ok : Byte → Bool) : Reader (fun l => .ok (l.takeWhile ok, l.dropWhile ok)) := by
  intro l
  induction l with
  | nil => exact ⟨[], [], rfl, .inl ⟨[], fun r hr => by rw [eq_nil_of_head? hr]; rfl⟩⟩
  | cons b t ih =>
    cases h : ok b
    · refine ⟨[], b :: t, rfl, .inl ⟨[], fun r hr => ?_⟩⟩
      obtain ⟨u, rfl⟩ := eq_of_head?_cons hr
      simp [h]
    · obtain ⟨p, rest, rfl, ⟨v, hv⟩ | he⟩ := ih
      · refine ⟨b :: p, rest, rfl, .inl ⟨b :: v, fun r hr => ?_⟩⟩
        have := hv r hr
        simp only [Except.ok.injEq, Prod.mk.injEq] at this
        simp [h, this.1, this.2]
      · cases he rest rfl

theorem Reader.uintFrom (v : Nat) : Reader (uintFrom v) := by
  intro l
  induction l generalizing v with
  | nil => exact ⟨[], [], rfl, .inl ⟨v, fun r hr => by rw [eq_nil_of_head? hr]; rfl⟩⟩
  | cons b t ih =>
    cases h : isDigit b
    · refine ⟨[], b :: t, rfl, .inl ⟨v, fun r hr => ?_⟩⟩
      obtain ⟨u, rfl⟩ := eq_of_head?_cons hr
      simp [Machine.uintFrom, h]
    · by_cases hm : maxDimension < 10 * v + (b.toNat - 0x30)
      · refine ⟨[], b :: t, rfl, .inr fun r hr => ?_⟩
        obtain ⟨u, rfl⟩ := eq_of_head?_cons hr
        simp [Machine.uintFrom, h, hm]
      · obtain ⟨p, rest, rfl, ⟨w, hw⟩ | he⟩ := ih (10 * v + (b.toNat - 0x30))
        · exact ⟨b :: p, rest, rfl, .inl ⟨w, fun r hr => by
            rw [List.cons_append, uintFrom_digit v b _ h (Nat.not_lt.mp hm)]; exact hw r hr⟩⟩
        · exact ⟨b :: p, rest, rfl, .inr fun r hr => by
            rw [List.cons_append, uintFrom_digit v b _ h (Nat.not_lt.mp hm)]; exact he r hr⟩

theorem Reader.uint : Reader uint := by
  have body : Reader (fun l => Machine.uintFrom 0 l >>= fun x => if x.1 = 0 then .error x.2 else .ok (x.1, x.2)) :=
    (Reader.uintFrom 0).bind (g := fun v l => if v = 0 then .error l else .ok (v, l)) fun v => by
      by_cases h : v = 0
      · simp only [h, if_true]; exact .fail
      · simp only [h, if_false]; exact .pure v
  intro l
  cases l with
  | nil => exact ⟨[], [], rfl, .inr fun r hr => by rw [eq_nil_of_head? hr]; rfl⟩
  | cons b t =>
    cases h : isDigit b
    · refine ⟨[], b :: t, rfl, .inr fun r hr => ?_⟩
      obtain ⟨u, rfl⟩ := eq_of_head?_cons hr
      simp [Machine.uint, Machine.expect, h]
      rfl
    · obtain ⟨p, rest, e, hr⟩ := body (b :: t)
      have same : ∀ r : List Byte, r.head? = rest.head? → Machine.uint (p ++ r) =
          (Machine.uintFrom 0 (p ++ r) >>= fun x => if x.1 = 0 then .error x.2 else .ok (x.1, x.2)) := by
        intro r hr
        have h1 := head?_append_congr p hr
        rw [← e] at h1
        obtain ⟨u, hu⟩ := eq_of_head?_cons h1
        rw [hu]
        unfold Machine.uint
        rw [expect_cons _ _ _ h]
        rfl
      refine ⟨p, rest, e, ?_⟩
      rcases hr with ⟨v, hv⟩ | he
      · exact .inl ⟨v, fun r hr => (same r hr).trans (hv r hr)⟩
      · exact .inr fun r hr => (same r hr).trans (he r hr)

theorem Reader.magic : Reader magic :=
  (Reader.expect _).bind (g := fun _ l => do
      let (t, l) ← Machine.expect (fun b => b == chLowerH || b == chUpperH) l
      let (_, l) ← Machine.expect (· == chLF) l
      return (if t == chLowerH then 1 else 3, l)) fun _ =>
    (Reader.expect _).bind (g := fun t l => do
      let (_, l) ← Machine.expect (· == chLF) l
      return (if t == chLowerH then 1 else 3, l)) fun t => (Reader.expect _).map fun _ => if t == chLowerH then 1 else 3

theorem Reader.resolution : Reader resolution :=
  Reader.uint.bind (g := fun w l => do
      let (_, l) ← Machine.expect isSeparator l
      let (h, l) ← Machine.uint (l.dropWhile isSeparator)
      let (_, l) ← Machine.expect (· == chLF) l
      return ((w, h), l)) fun w =>
    (Reader.expect _).bind (g := fun _ l => do
      let (h, l) ← Machine.uint (l.dropWhile isSeparator)
      let (_, l) ← Machine.expect (· == chLF) l
      return ((w, h), l)) fun _ =>
    (Reader.run isSeparator).bind (g := fun _ l => do
      let (h, l) ← Machine.uint l
      let (_, l) ← Machine.expect (· == chLF) l
      return ((w, h), l)) fun _ =>
    Reader.uint.bind (g := fun h l => do
      let (_, l) ← Machine.expect (· == chLF) l
      return ((w, h), l)) fun h => (Reader.expect _).map fun _ => (w, h)

theorem Reader.significand : Reader significand := by
  have e : Machine.significand = fun l => (Except.ok (l.takeWhile isDigit, l.dropWhile isDigit)) >>= fun x =>
      (Except.ok (Machine.optional (· == chPoint) x.2)) >>= fun y =>
      (if y.1.isSome then Except.ok (y.2.takeWhile isDigit, y.2.dropWhile isDigit) else Except.ok ([], y.2)) >>= fun z =>
      if x.1 ++ z.1 = [] then .error z.2 else .ok (x.1 ++ z.1, z.2) := by
    funext l
    simp only [Machine.significand, ok_bind]
    cases (Machine.optional (· == chPoint) (l.dropWhile isDigit)).1.isSome <;> simp [ok_bind]
  rw [e]
  refine (Reader.run isDigit).bind (g := fun whole l => (Except.ok (Machine.optional (· == chPoint) l)) >>= fun y =>
      (if y.1.isSome then Except.ok (y.2.takeWhile isDigit, y.2.dropWhile isDigit) else Except.ok ([], y.2)) >>= fun z =>
      if whole ++ z.1 = [] then .error z.2 else .ok (whole ++ z.1, z.2)) fun whole => ?_
  refine (Reader.optional (· == chPoint)).bind (g := fun point l =>
      (if point.isSome then Except.ok (l.takeWhile isDigit, l.dropWhile isDigit) else Except.ok ([], l)) >>= fun z =>
      if whole ++ z.1 = [] then .error z.2 else .ok (whole ++ z.1, z.2)) fun point => ?_
  refine Reader.bind (f := fun l =>
      if point.isSome then Except.ok (l.takeWhile isDigit, l.dropWhile isDigit) else Except.ok ([], l))
    (g := fun fraction l => if whole ++ fraction = [] then .error l else .ok (whole ++ fraction, l)) ?_ fun fraction => ?_
  · cases point.isSome
    · exact .pure []
    · exact .run isDigit
  · by_cases h : whole ++ fraction = []
    · simp only [h, if_true]; exact .fail
    · simp only [h, if_false]; exact .pure _

theorem Reader.exponent : Reader exponent := by
  have digits : Reader (fun l => do
      let (_, l) ← Machine.expect isDigit (Machine.optional isSign l).2
      return ((), l.dropWhile isDigit)) :=
    (Reader.optional isSign).bind (g := fun _ l => do
        let (_, l) ← Machine.expect isDigit l
        return ((), l.dropWhile isDigit)) fun _ =>
      (Reader.expect isDigit).bind (g := fun _ l => .ok ((), l.dropWhile isDigit)) fun _ =>
        (Reader.run isDigit).map fun _ => ()
  have e : Machine.exponent = fun l => (Except.ok (Machine.optional isExponent l)) >>= fun x =>
      match x.1 with
      | none => .ok ((), x.2)
      | some _ => (do
          let (_, l) ← Machine.expect isDigit (Machine.optional isSign x.2).2
          return ((), l.dropWhile isDigit)) := by
    funext l
    unfold Machine.exponent
    rw [ok_bind]
    rcases Machine.optional isExponent l with ⟨_ | _, _⟩ <;> rfl
  rw [e]
  refine (Reader.optional isExponent).bind (g := fun x l =>
      match x with
      | none => .ok ((), l)
      | some _ => (do
          let (_, l) ← Machine.expect isDigit (Machine.optional isSign l).2
          return ((), l.dropWhile isDigit))) fun x => ?_
  cases x with
  | none => exact .pure ()
  | some _ => exact digits

theorem Reader.marker : Reader marker :=
  (Reader.optional isSign).bind (g := fun sign l => do
      let (digits, l) ← Machine.significand l
      let (_, l) ← Machine.exponent l
      let (_, l) ← Machine.expect (· == chLF) l
      return (sign == some chMinus && digits.any (· != 0x30), l)) fun sign =>
    Reader.significand.bind (g := fun digits l => do
      let (_, l) ← Machine.exponent l
      let (_, l) ← Machine.expect (· == chLF) l
      return (sign == some chMinus && digits.any (· != 0x30), l)) fun digits =>
    Reader.exponent.bind (g := fun _ l => do
      let (_, l) ← Machine.expect (· == chLF) l
      return (sign == some chMinus && digits.any (· != 0x30), l)) fun _ =>
    (Reader.expect _).map fun _ => sign == some chMinus && digits.any (· != 0x30)

/-- The whole parser (R107). -/
theorem Reader.header : Reader header :=
  Reader.magic.bind (g := fun c l => do
      let ((w, h), l) ← Machine.resolution l
      let (negative, l) ← Machine.marker l
      return (({ channels := c, width := w, height := h, storedBe := !negative } : Header), l)) fun c =>
    Reader.resolution.bind (g := fun (d : Nat × Nat) l => do
      let (negative, l) ← Machine.marker l
      return (({ channels := c, width := d.1, height := d.2, storedBe := !negative } : Header), l)) fun d =>
    Reader.marker.map fun negative =>
      ({ channels := c, width := d.1, height := d.2, storedBe := !negative } : Header)

/-- A header text is read whole, and no byte after it (R98). -/
theorem bytesRead_header {t : HeaderText} (ht : t.ok = true) (payload : List Byte) :
    bytesRead (t.bytes ++ payload) = t.bytes.length := by
  simp [bytesRead, header_run ht payload]

/-- How many bytes the parser reads depends on those bytes only (R98, R99). -/
theorem bytesRead_congr {l l' : List Byte} (hlen : l'.length = l.length)
    (h : l'.take (bytesRead l) = l.take (bytesRead l)) : bytesRead l' = bytesRead l := by
  cases hl : header l with
  | ok x =>
    obtain ⟨hd, payload⟩ := x
    obtain ⟨t, ht, rfl, -⟩ := header_ok hl
    rw [bytesRead_header ht, List.take_left] at h
    rw [bytesRead_header ht, ← List.take_append_drop t.bytes.length l', h, bytesRead_header ht]
  | error e =>
    obtain ⟨p, rest, rfl, ⟨v, hv⟩ | he⟩ := Reader.header l
    · rw [hv rest rfl] at hl; cases hl
    · have hb : ∀ r : List Byte, r.head? = rest.head? → bytesRead (p ++ r) = p.length + (r.length - r.tail.length) := by
        intro r hr
        have := List.length_tail (l := r)
        simp only [bytesRead, he r hr, readAtFailure, List.length_append]
        omega
      rw [hb rest rfl] at h ⊢
      have hp : l'.take p.length = p := by
        have := congrArg (List.take p.length) h
        simpa [List.take_take, List.take_left] using this
      rw [← List.take_append_drop p.length l', hp] at h hlen ⊢
      generalize l'.drop p.length = r at h hlen ⊢
      have hlr : r.length = rest.length := by simpa using hlen
      have hr : r.head? = rest.head? := by
        cases rest with
        | nil => rw [List.length_eq_zero_iff.mp hlr]
        | cons b t =>
          cases r with
          | nil => cases hlr
          | cons c u =>
            have : (b :: t).length - (b :: t).tail.length = 1 := by simp
            rw [this] at h
            simp only [List.take_append, List.take_of_length_le (Nat.le_succ p.length)] at h
            simpa using h
      rw [hb r hr, List.length_tail, List.length_tail, hlr]

end Sys2Proof.Machine
end

