-- ==== Sys2Proof/Laws/PerInstr.lean ====
section
/-! SUPPORT. Facts about every instruction as syntax, one lemma a constructor. The family RowCovers: the encoder writes the fixed bits and the operand fields of a row of the opcode map (30_encoding R66). -/
namespace Sys2Proof.Laws.RowCovers

/-- Some row of the opcode map covers the instruction's word, and reads the instruction back from its fields. -/
def Statement (i : Instr) : Prop := ∃ r ∈ opcodeMap, r.covers (encode i) = true ∧ r.op.build (encode i) = i

theorem cvtH2f (rd rs1 : XReg) : Statement (.cvtH2f rd rs1) := by
  refine ⟨⟨.cvtH2f, 0x04000000, 0xFC0FFFFF⟩, by simp [opcodeMap], by revert rd rs1; decide +kernel, ?_⟩
  have h0 := rdField_command 0x01 rd rs1 0 0 0 0 (by decide) (by decide)
  have h1 := rs1Field_command 0x01 rd rs1 0 0 0 0 (by decide) (by decide)
  exact congrArg₂ Instr.cvtH2f h0 h1

theorem cvtF2h (rd rs1 : XReg) : Statement (.cvtF2h rd rs1) := by
  refine ⟨⟨.cvtF2h, 0x08000000, 0xFC0FFFFF⟩, by simp [opcodeMap], by revert rd rs1; decide +kernel, ?_⟩
  have h0 := rdField_command 0x02 rd rs1 0 0 0 0 (by decide) (by decide)
  have h1 := rs1Field_command 0x02 rd rs1 0 0 0 0 (by decide) (by decide)
  exact congrArg₂ Instr.cvtF2h h0 h1

theorem cvtH2fBuf (dst src count : XReg) : Statement (.cvtH2fBuf dst src count) := by
  refine ⟨⟨.cvtH2fBuf, 0x0C000000, 0xFF803FFF⟩, by simp [opcodeMap], by revert dst src count; decide +kernel, ?_⟩
  have h0 := rs1Field_command 0x03 0 dst src count 0 0 (by decide) (by decide)
  have h1 := rs2Field_command 0x03 0 dst src count 0 0 (by decide) (by decide)
  have h2 := rs3Field_command 0x03 0 dst src count 0 0 (by decide) (by decide)
  exact congr (congrArg₂ Instr.cvtH2fBuf h0 h1) h2

theorem cvtF2hBuf (dst src count : XReg) : Statement (.cvtF2hBuf dst src count) := by
  refine ⟨⟨.cvtF2hBuf, 0x10000000, 0xFF803FFF⟩, by simp [opcodeMap], by revert dst src count; decide +kernel, ?_⟩
  have h0 := rs1Field_command 0x04 0 dst src count 0 0 (by decide) (by decide)
  have h1 := rs2Field_command 0x04 0 dst src count 0 0 (by decide) (by decide)
  have h2 := rs3Field_command 0x04 0 dst src count 0 0 (by decide) (by decide)
  exact congr (congrArg₂ Instr.cvtF2hBuf h0 h1) h2

theorem bswap16 (rd rs1 : XReg) : Statement (.bswap16 rd rs1) := by
  refine ⟨⟨.bswap16, 0x20000000, 0xFC0FFFFF⟩, by simp [opcodeMap], by revert rd rs1; decide +kernel, ?_⟩
  have h0 := rdField_command 0x08 rd rs1 0 0 0 0 (by decide) (by decide)
  have h1 := rs1Field_command 0x08 rd rs1 0 0 0 0 (by decide) (by decide)
  exact congrArg₂ Instr.bswap16 h0 h1

theorem bswap16Buf (addr count : XReg) : Statement (.bswap16Buf addr count) := by
  refine ⟨⟨.bswap16Buf, 0x24000000, 0xFF81FFFF⟩, by simp [opcodeMap], by revert addr count; decide +kernel, ?_⟩
  have h0 := rs1Field_command 0x09 0 addr count 0 0 0 (by decide) (by decide)
  have h1 := rs2Field_command 0x09 0 addr count 0 0 0 (by decide) (by decide)
  exact congrArg₂ Instr.bswap16Buf h0 h1

theorem payloadIn (dst count : XReg) : Statement (.payloadIn dst count) := by
  refine ⟨⟨.payloadIn, 0x28000000, 0xFF81FFFF⟩, by simp [opcodeMap], by revert dst count; decide +kernel, ?_⟩
  have h0 := rs1Field_command 0x0A 0 dst count 0 0 0 (by decide) (by decide)
  have h1 := rs2Field_command 0x0A 0 dst count 0 0 0 (by decide) (by decide)
  exact congrArg₂ Instr.payloadIn h0 h1

theorem hdrParse (base len : XReg) : Statement (.hdrParse base len) := by
  refine ⟨⟨.hdrParse, 0x40000000, 0xFF81FFFF⟩, by simp [opcodeMap], by revert base len; decide +kernel, ?_⟩
  have h0 := rs1Field_command 0x10 0 base len 0 0 0 (by decide) (by decide)
  have h1 := rs2Field_command 0x10 0 base len 0 0 0 (by decide) (by decide)
  exact congrArg₂ Instr.hdrParse h0 h1

theorem free (base : XReg) : Statement (.free base) := by
  refine ⟨⟨.free, 0x64000000, 0xFF8FFFFF⟩, by simp [opcodeMap], by revert base; decide +kernel, ?_⟩
  have h0 := rs1Field_command 0x19 0 base 0 0 0 0 (by decide) (by decide)
  exact congrArg Instr.free h0

theorem alloc (rd width height channels : XReg) (size : SampleSize) :
    Statement (.alloc rd width height channels size) := by
  have hs : size.bit < 2 := by cases size <;> decide
  refine ⟨⟨.alloc, 0x60000000, 0xFC001FFF⟩, by simp [opcodeMap], ?_, ?_⟩
  · have e0 : ∀ r : XReg, BitVec.ofNat 32 (r.val <<< 23) &&& 0xFC001FFF = 0 := by decide
    have e1 : ∀ r : XReg, BitVec.ofNat 32 (r.val <<< 20) &&& 0xFC001FFF = 0 := by decide
    have e2 : ∀ r : XReg, BitVec.ofNat 32 (r.val <<< 17) &&& 0xFC001FFF = 0 := by decide
    have e3 : ∀ r : XReg, BitVec.ofNat 32 (r.val <<< 14) &&& 0xFC001FFF = 0 := by decide
    simp only [Row.covers, encode, command_and, e0, e1, e2, e3]
    cases size <;> decide
  · have h0 := rdField_command 0x18 rd width height channels size.bit 0 hs (by decide)
    have h1 := rs1Field_command 0x18 rd width height channels size.bit 0 hs (by decide)
    have h2 := rs2Field_command 0x18 rd width height channels size.bit 0 hs (by decide)
    have h3 := rs3Field_command 0x18 rd width height channels size.bit 0 hs (by decide)
    have h4 := sField_command 0x18 rd width height channels size
    exact congr (congr (congr (congrArg₂ Instr.alloc h0 h1) h2) h3) h4

theorem csrr (rd : XReg) (csr : Fin 16) : Statement (.csrr rd csr) := by
  refine ⟨⟨.csrr, 0x80000000, 0xFC7FC3FF⟩, by simp [opcodeMap], by revert rd csr; decide +kernel, ?_⟩
  have h0 := rdField_command 0x20 rd 0 0 0 0 csr (by decide) csr.isLt
  have h1 := csrField_command 0x20 rd 0 0 0 csr
  exact congrArg₂ Instr.csrr h0 h1

end Sys2Proof.Laws.RowCovers
end

