-- ==== Sys2Proof/Laws/Steps.lean ====
section
/-! SUPPORT. What each move of an agent can do, said once: the host's accesses, reset, and the step that takes the next move. -/
namespace Sys2Proof.Machine

/-! ## What the footprint depends on -/

/-- The footprint of a command is a function of the X registers, the parameters, the header registers and, for HDR.PARSE,
the bytes that it reads (R39, R98). -/
theorem footprint_congr (i : Instr) {s t : State} (hx : t.x = s.x) (hp : t.params = s.params)
    (hi : t.hdrInfo = s.hdrInfo) (hb : t.hdrPbase = s.hdrPbase) (ha : t.hdrPavail = s.hdrPavail)
    (hc : ∀ a, inRegions (footprint i s).reads a = true → t.coreByte a = s.coreByte a) :
    footprint i t = footprint i s := by
  have hn : ∀ k, t.natX k = s.natX k := fun k => by simp [State.natX, State.getX, hx]
  have hr : ∀ a n, t.regionOk a n = s.regionOk a n := fun a n => by unfold State.regionOk State.memBytes; rw [hp]
  cases i with
  | cvtH2fBuf dst src count =>
    change (if h2fBufOk dst src count t then h2fBufFootprint dst src count t else Footprint.empty) =
      if h2fBufOk dst src count s then h2fBufFootprint dst src count s else Footprint.empty
    unfold h2fBufOk h2fBufFootprint
    rw [hn, hn, hn, hr, hr]
  | cvtF2hBuf dst src count =>
    change (if f2hBufOk dst src count t then f2hBufFootprint dst src count t else Footprint.empty) =
      if f2hBufOk dst src count s then f2hBufFootprint dst src count s else Footprint.empty
    unfold f2hBufOk f2hBufFootprint
    rw [hn, hn, hn, hr, hr]
  | bswap16Buf addr count =>
    change (if bswapBufOk addr count t then bswapBufFootprint addr count t else Footprint.empty) =
      if bswapBufOk addr count s then bswapBufFootprint addr count s else Footprint.empty
    unfold bswapBufOk bswapBufFootprint
    rw [hn, hn, hr]
  | payloadIn dst count =>
    change (if payloadInCheck dst count t = none then payloadInFootprint dst count t else Footprint.empty) =
      if payloadInCheck dst count s = none then payloadInFootprint dst count s else Footprint.empty
    unfold payloadInCheck payloadInFootprint State.payloadRegion
    rw [hn, hn, hr, hi, hb, ha]
  | hdrParse base len =>
    change (if hdrParseOk base len t then hdrParseFootprint base len t else Footprint.empty) =
      if hdrParseOk base len s then hdrParseFootprint base len s else Footprint.empty
    by_cases hk : hdrParseOk base len s = true
    · have hk' : hdrParseOk base len t = true := by
        unfold hdrParseOk at hk ⊢
        rw [hn, hn, hr]; exact hk
      rw [if_pos hk, if_pos hk']
      unfold hdrParseFootprint
      rw [hn, hn, bytesRead_congr (l := s.image (s.natX base) (s.natX len))]
      · rw [State.image_length, State.image_length]
      · rw [State.image_eq, State.image_eq, ← List.map_take, ← List.map_take]
        refine List.map_congr_left fun k hkm => hc _ ?_
        change inRegions (if hdrParseOk base len s then hdrParseFootprint base len s else Footprint.empty).reads _ = true
        rw [if_pos hk, inRegions_iff]
        rw [← State.image_eq, List.take_range, List.mem_range] at hkm
        exact ⟨_, List.mem_singleton.mpr rfl, Nat.le_add_right _ _, by simp only; omega⟩
    · have hk' : ¬ hdrParseOk base len t = true := by
        unfold hdrParseOk at hk ⊢
        rw [hn, hn, hr]; exact hk
      rw [if_neg hk, if_neg hk']
  | _ => rfl

/-- Whether a host access races (R56) depends on the pending command, its footprint's registers, and, for HDR.PARSE, the
bytes that the command will read. -/
theorem State.races_congr {s t : State} (a : Nat) (h0 : t.pending = s.pending) (hx : t.x = s.x)
    (hp : t.params = s.params) (hi : t.hdrInfo = s.hdrInfo) (hb : t.hdrPbase = s.hdrPbase)
    (ha : t.hdrPavail = s.hdrPavail)
    (hc : ∀ c, s.races c = true → t.foreseen.coreByte c = s.foreseen.coreByte c) : t.races a = s.races a := by
  have hpi : t.pendingInstr = s.pendingInstr := by simp only [State.pendingInstr, h0]
  unfold State.races at hc ⊢
  rw [hpi]
  cases h : s.pendingInstr with
  | none => rfl
  | some i =>
    simp only
    rw [footprint_congr i (s := s.foreseen) (t := t.foreseen) hx hp hi hb ha]
    intro c hcr
    refine hc c ?_
    simp only [h, Footprint.all]
    rw [inRegions_iff] at hcr ⊢
    obtain ⟨r, hr, hrc⟩ := hcr
    exact ⟨r, List.mem_append_left _ hr, hrc⟩

/-- A move that is no write of buffer memory and no end of a command leaves every race as it was. -/
theorem State.races_congr_of_mem {s t : State} (a : Nat) (h0 : t.pending = s.pending) (hx : t.x = s.x)
    (hp : t.params = s.params) (hi : t.hdrInfo = s.hdrInfo) (hb : t.hdrPbase = s.hdrPbase)
    (ha : t.hdrPavail = s.hdrPavail) (hm : t.mem = s.mem) (ht : t.tick = s.tick)
    (hw : ∀ c, t.foreseen.hostWrote c = s.foreseen.hostWrote c) : t.races a = s.races a :=
  State.races_congr a h0 hx hp hi hb ha fun c _ => by
    have : t.foreseen.byteAt c = s.foreseen.byteAt c := by
      change (Memory.find? t.mem c).getD _ = (Memory.find? s.mem c).getD _
      rw [hm]
    have htick : t.foreseen.tick = s.foreseen.tick := ht
    simp only [State.coreByte, hw, this, htick]

theorem State.hostWrote_foreseen (s : State) (c : Nat) : s.foreseen.hostWrote c =
    (writesAhead s.schedule ++ s.touched).any (fun t => t.wrote && decide (t.addr = c)) := rfl

/-- A host write that comes next is a race or not whether or not it is counted as one still to come: whether the
command reads a byte depends on the bytes before it only. -/
theorem State.races_next_write {s : State} {addr : Word} {b : Byte} {rest : List Event}
    (hs : s.schedule = .memWrite addr b :: rest) :
    State.races { s with schedule := rest } addr.toNat = s.races addr.toNat := by
  have same : ∀ c, c ≠ addr.toNat →
      State.coreByte (State.foreseen { s with schedule := rest }) c = s.foreseen.coreByte c := by
    intro c hc
    have hw : State.hostWrote (State.foreseen { s with schedule := rest }) c = s.foreseen.hostWrote c := by
      rw [State.hostWrote_foreseen, State.hostWrote_foreseen, hs, writesAhead]
      simp [Ne.symm hc]
    simp only [State.coreByte, hw]
    rfl
  cases hr : s.races addr.toNat with
  | false =>
    rw [← hr]
    exact State.races_congr addr.toNat rfl rfl rfl rfl rfl rfl fun c hc => same c (by rintro rfl; rw [hr] at hc; cases hc)
  | true =>
    by_contra hn
    rw [Bool.not_eq_true] at hn
    have := State.races_congr (s := { s with schedule := rest }) (t := s) addr.toNat rfl rfl rfl rfl rfl rfl
      fun c hc => (same c (by rintro rfl; rw [hn] at hc; cases hc)).symm
    rw [hr, hn] at this
    cases this

/-! ## The host's accesses -/

/-- An MMIO read (R123) writes the host's own register and the free-value counter. -/
theorem hostMmioRead_next {off : BitVec 8} {width : AccessWidth} {s t : State} (h : hostMmioRead off width s = .next t) :
    ∃ v n, t = { s with hostRx := v, reads := n } := by
  unfold hostMmioRead at h
  split at h
  · cases h
  · split at h
    · exact ⟨_, _, (Host.Outcome.next.inj h).symm⟩
    · exact ⟨_, s.reads, (Host.Outcome.next.inj h).symm⟩

/-- A write of CMD, CONFIG or an X register, the ones that BUSY guards (R124). -/
def guardedOffset (off : Nat) : Prop := off = 0x08 ∨ off = 0x0C ∨ (0x40 ≤ off ∧ (off - 0x40) / 4 < 8)

/-- The rows of R124. -/
theorem State.mmioWrite_cases (s : State) (off : Nat) (v : Word) :
    (s.mmioWrite off v = s ∧ ¬ guardedOffset off ∧ off ≠ 0x04) ∨
    (off = 0x04 ∧ s.mmioWrite off v = { s with status := s.status.hostWrite v }) ∨
    (guardedOffset off ∧ s.status.busy = true ∧ s.mmioWrite off v = s.overrun) ∨
    (off = 0x08 ∧ s.status.busy = false ∧ s.mmioWrite off v = { s with hostBe := v.getLsbD 0 }) ∨
    (off = 0x0C ∧ s.status.busy = false ∧ s.mmioWrite off v = s.accept v) ∨
    (s.status.busy = false ∧ ∃ i : XReg, 0x40 ≤ off ∧ (off - 0x40) / 4 = i.val ∧ s.mmioWrite off v = s.setX i v) := by
  unfold State.mmioWrite State.guarded guardedOffset
  by_cases h4 : off = 0x04
  · exact .inr (.inl ⟨h4, by simp [h4]⟩)
  · by_cases h8 : off = 0x08
    · cases hb : s.status.busy
      · exact .inr (.inr (.inr (.inl ⟨h8, rfl, by simp [h8]⟩)))
      · exact .inr (.inr (.inl ⟨.inl h8, rfl, by simp [h8]⟩))
    · by_cases hc : off = 0x0C
      · cases hb : s.status.busy
        · exact .inr (.inr (.inr (.inr (.inl ⟨hc, rfl, by simp [hc]⟩))))
        · exact .inr (.inr (.inl ⟨.inr (.inl hc), rfl, by simp [hc]⟩))
      · by_cases hx : 0x40 ≤ off ∧ (off - 0x40) / 4 < 8
        · cases hb : s.status.busy
          · exact .inr (.inr (.inr (.inr (.inr ⟨rfl, ⟨_, hx.2⟩, hx.1, rfl, by
              rw [if_neg h4, if_neg h8, if_neg hc, dif_pos hx]; rfl⟩))))
          · exact .inr (.inr (.inl ⟨.inr (.inr hx), rfl, by
              rw [if_neg h4, if_neg h8, if_neg hc, dif_pos hx]; rfl⟩))
        · refine .inl ⟨?_, ?_, h4⟩
          · rw [if_neg h4, if_neg h8, if_neg hc, dif_neg hx]
          · rintro (h | h | h)
            · exact h8 h
            · exact hc h
            · exact hx h

/-- A read of a byte of memory (R55, R56) writes the host's own register, the race record and the counter. -/
theorem hostMemRead_next {addr : Word} {s t : State} (h : hostMemRead addr s = .next t) :
    addr.toNat < s.memBytes ∧
      ((s.races addr.toNat = true ∧ t = { s with
          hostRx := (Config.hostRaceByte s.reads addr.toNat).zeroExtend 32
          touched := ⟨addr.toNat, false⟩ :: s.touched
          reads := s.reads + 1 }) ∨
       (s.races addr.toNat = false ∧ t = { s with hostRx := (s.byteAt addr.toNat).zeroExtend 32 })) := by
  unfold hostMemRead at h
  split at h
  · cases h
  · refine ⟨by omega, ?_⟩
    cases hr : s.races addr.toNat with
    | true => rw [hr] at h; exact .inl ⟨rfl, (Host.Outcome.next.inj h).symm⟩
    | false => rw [hr] at h; exact .inr ⟨rfl, (Host.Outcome.next.inj h).symm⟩

/-- A write of a byte of memory (R55, R56). -/
theorem hostMemWrite_next {addr : Word} {b : Byte} {s t : State} (h : hostMemWrite addr b s = .next t) :
    addr.toNat < s.memBytes ∧
      ((s.races addr.toNat = true ∧
        t = { s.writeByte addr.toNat b with touched := ⟨addr.toNat, true⟩ :: s.touched }) ∨
       (s.races addr.toNat = false ∧ t = s.writeByte addr.toNat b)) := by
  unfold hostMemWrite at h
  split at h
  · cases h
  · refine ⟨by omega, ?_⟩
    cases hr : s.races addr.toNat with
    | true => rw [hr] at h; exact .inl ⟨rfl, (Host.Outcome.next.inj h).symm⟩
    | false => rw [hr] at h; exact .inr ⟨rfl, (Host.Outcome.next.inj h).symm⟩

/-- The host's own release (R53). -/
theorem hostRelease_next {addr : Word} {s t : State} (h : hostRelease addr s = .next t) :
    s.isLive addr.toNat = true ∧ t = { s with live := s.live.filter (fun r => decide (r.base ≠ addr.toNat)) } := by
  unfold hostRelease State.allocRelease at h
  cases hl : s.isLive addr.toNat with
  | true =>
    rw [hl] at h
    exact ⟨rfl, (Host.Outcome.next.inj h).symm⟩
  | false => rw [hl] at h; cases h

/-! ## Reset -/

/-- Scrambling the regions of a list changes memory only. -/
theorem SameButMem.scrambleAll (s : State) (rs : List Region) : SameButMem s (rs.foldl State.scramble s) :=
  SameButMem.foldl (fun t r => SameButMem.scramble t r) rs s

/-- Every byte after the regions of a list are scrambled (R144). -/
theorem State.byteAt_scrambleAll (s : State) (rs : List Region) (c : Nat) :
    (rs.foldl State.scramble s).byteAt c = if inRegions rs c then Config.resetLeftByte s.tick c else s.byteAt c := by
  induction rs generalizing s with
  | nil => simp [inRegions]
  | cons r rs ih =>
    rw [List.foldl_cons, ih, (SameButMem.scramble s r).tick, State.byteAt_scramble]
    cases h : inRegions rs c <;> cases h2 : r.contains c <;> simp [inRegions] at * <;> simp_all

/-- What a command cut short by reset changes (R144): memory in the bytes it would have written, and, in the allocator,
the answer and the allocation an ALLOC may have had, or the allocation a FREE may have released. -/
theorem abandon_next {i : Instr} {took : Bool} {s t : State} (h : abandon i took s = .next t) :
    (t = (footprint i s).writes.foldl State.scramble s) ∨
    (took = true ∧ (footprint i s).writes = [] ∧ ∃ rd w hh c size, i = .alloc rd w hh c size ∧
      (t = { s with answers := s.answers.tail } ∨
        ∃ b n, 0 < n ∧ s.contractOk b n = true ∧
          t = { s with answers := s.answers.tail, live := ⟨b.toNat, n⟩ :: s.live })) ∨
    (took = true ∧ (footprint i s).writes = [] ∧ ∃ base, i = .free base ∧
      t = { s with live := s.live.filter (fun r => decide (r.base ≠ s.natX base)) }) := by
  cases i with
  | cvtH2f rd rs1 => exact .inl (Host.Outcome.next.inj h).symm
  | cvtF2h rd rs1 => exact .inl (Host.Outcome.next.inj h).symm
  | cvtH2fBuf dst src count => exact .inl (Host.Outcome.next.inj h).symm
  | cvtF2hBuf dst src count => exact .inl (Host.Outcome.next.inj h).symm
  | bswap16 rd rs1 => exact .inl (Host.Outcome.next.inj h).symm
  | bswap16Buf addr count => exact .inl (Host.Outcome.next.inj h).symm
  | payloadIn dst count => exact .inl (Host.Outcome.next.inj h).symm
  | hdrParse base len =>
    refine .inl ((Host.Outcome.next.inj h).symm.trans ?_)
    simp only [footprint]
    split <;> rfl
  | csrr rd csr => exact .inl (Host.Outcome.next.inj h).symm
  | alloc rd w hh c size =>
    cases took with
    | false => exact .inl (Host.Outcome.next.inj h).symm
    | true =>
      simp only [abandon] at h
      cases hs : allocSize w hh c size s with
      | error e => rw [hs] at h; exact .inl (Host.Outcome.next.inj h).symm
      | ok p =>
        rw [hs] at h
        simp only at h
        refine .inr (.inl ⟨rfl, rfl, rd, w, hh, c, size, rfl, ?_⟩)
        rcases s.allocRequest_cases p.2 with e | ⟨b, hc, e⟩ | ⟨_, _, _, _, e⟩
        · rw [e] at h; exact .inl (Host.Outcome.next.inj h).symm
        · rw [e] at h; exact .inr ⟨b, p.2, allocSize_pos hs, hc, (Host.Outcome.next.inj h).symm⟩
        · rw [e] at h; cases h
  | free base =>
    simp only [abandon, State.allocRelease] at h
    split at h
    · rename_i hk
      cases hl : s.isLive (s.natX base) with
      | true =>
        rw [hl] at h
        exact .inr (.inr ⟨by simp_all, rfl, base, rfl, (Host.Outcome.next.inj h).symm⟩)
      | false => rw [hl] at h; cases h
    · exact .inl (Host.Outcome.next.inj h).symm

/-- Reset (R142, R144): an idle CORE is reset, a running command abandoned first. -/
theorem hostReset_next {took : Bool} {s t : State} (h : hostReset took s = .next t) :
    (s.pendingInstr = none ∧ t = s.resetRegisters) ∨
    ∃ i u, s.pendingInstr = some i ∧ abandon i took s = .next u ∧ t = u.resetRegisters := by
  unfold hostReset at h
  cases hp : s.pendingInstr with
  | none => rw [hp] at h; exact .inl ⟨rfl, (Host.Outcome.next.inj h).symm⟩
  | some i =>
    rw [hp] at h
    simp only at h
    cases ha : abandon i took s with
    | next u => rw [ha] at h; exact .inr ⟨i, u, rfl, ha, (Host.Outcome.next.inj h).symm⟩
    | fault f => rw [ha] at h; cases h
    | refused r => rw [ha] at h; cases h

/-- Whatever a reset abandons, every CORE register is at its reset value, and only memory, the live set, the answers
and the counter may differ from a reset of the idle machine. -/
theorem hostReset_registers {took : Bool} {s t : State} (h : hostReset took s = .next t) :
    t = { s.resetRegisters with mem := t.mem, live := t.live, answers := t.answers } := by
  rcases hostReset_next h with ⟨_, rfl⟩ | ⟨i, u, _, ha, rfl⟩
  · rfl
  · rcases abandon_next ha with rfl | ⟨_, _, _, _, _, _, _, _, rfl | ⟨_, _, _, _, rfl⟩⟩ | ⟨_, _, _, _, rfl⟩
    · have e := SameButMem.scrambleAll s (footprint i s).writes
      rw [SameButMem] at e
      rw [e]
      rfl
    · rfl
    · rfl
    · rfl

/-! ## A step -/

theorem step_nil {s : State} (h : s.schedule = []) : step s = coreStep s := by simp [step, moveNext, h]

theorem step_cons {s : State} {e : Event} {rest : List Event} (h : s.schedule = e :: rest) :
    step s = act e { s with schedule := rest } := by simp [step, moveNext, h]

/-- A step is the CORE's move, on the state or on the state with the move taken off, or one of the host's moves. -/
theorem step_cases (s : State) :
    (step s = coreStep s ∧ s.schedule = []) ∨ ∃ e rest, s.schedule = e :: rest ∧ step s = act e { s with schedule := rest } := by
  cases h : s.schedule with
  | nil => exact .inl ⟨step_nil h, rfl⟩
  | cons e rest => exact .inr ⟨e, rest, rfl, step_cons h⟩

/-- No move changes the parameters or the moves to come. -/
theorem act_kept {e : Event} {s t : State} (h : act e s = .next t) : t.params = s.params ∧ t.schedule = s.schedule := by
  cases e with
  | core =>
    rcases coreStep_finish h with ⟨rfl, _⟩ | ⟨_, u, c, rfl, k, _⟩
    · exact ⟨rfl, rfl⟩
    · exact ⟨k.params, k.schedule⟩
  | mmioRead off width =>
    obtain ⟨v, n, rfl⟩ := hostMmioRead_next h
    exact ⟨rfl, rfl⟩
  | mmioWrite off width v =>
    change hostMmioWrite off width v s = .next t at h
    unfold hostMmioWrite at h
    split at h
    · cases h
    · cases h
      rcases s.mmioWrite_cases off.toNat v with ⟨e, _⟩ | ⟨_, e⟩ | ⟨_, _, e⟩ | ⟨_, _, e⟩ | ⟨_, _, e⟩ | ⟨_, _, _, _, e⟩ <;>
        rw [e] <;> exact ⟨rfl, rfl⟩
  | memRead addr =>
    rcases hostMemRead_next h with ⟨_, ⟨_, rfl⟩ | ⟨_, rfl⟩⟩ <;> exact ⟨rfl, rfl⟩
  | memWrite addr b =>
    rcases hostMemWrite_next h with ⟨_, ⟨_, rfl⟩ | ⟨_, rfl⟩⟩ <;> exact ⟨rfl, rfl⟩
  | reserve r => cases h; exact ⟨rfl, rfl⟩
  | unreserve r => cases h; exact ⟨rfl, rfl⟩
  | answer a => cases h; exact ⟨rfl, rfl⟩
  | release addr => obtain ⟨_, rfl⟩ := hostRelease_next h; exact ⟨rfl, rfl⟩
  | reset took =>
    have e := hostReset_registers h
    rw [e]
    exact ⟨rfl, rfl⟩

end Sys2Proof.Machine
end

