-- ==== Sys2Proof/Tests/Slice0.lean ====
section
/-! SUPPORT. The model's own tests: what WellFormed refuses, words written out from the spec's encodings, at most two steps per instruction with results from 95_test_vectors, and for every obligation with hypotheses a witness that meets them. -/
set_option Elab.async false

namespace Sys2Proof.Tests
open Sys2Proof Sys2Proof.Machine

/-! ## Helpers -/

/-- The machine of the test vectors (95_test_vectors, conventions): reset, MEM_BYTES = 0x10000, HOST_BE = 0. -/
def lab : State := { State.reset with params := ⟨0xFFFF, false⟩, hostBe := false }

/-- The machine with bytes stored from an address on. -/
def poke (s : State) (a : Nat) : List Byte → State
  | [] => s
  | b :: l => poke (s.writeByte a b) (a + 1) l

/-- The bytes at a .. a+n-1. -/
def peek (s : State) (a n : Nat) : List Byte := (List.range n).map (fun k => s.byteAt (a + k))

/-- The step answers a next state that passes the test. -/
def ends (o : Host.Outcome State Fault Refusal) (p : State → Bool) : Bool :=
  match o with
  | .next t => p t
  | .fault _ => false
  | .refused _ => false

/-- A step that passes a test has a next state that does. -/
theorem ends_next {o : Host.Outcome State Fault Refusal} {p : State → Bool} (h : ends o p = true) :
    ∃ t, o = .next t ∧ p t = true := by
  cases o with
  | next t => exact ⟨t, rfl, h⟩
  | fault _ => cases h
  | refused _ => cases h

/-- The command completes with the code, and the state after it passes the test. -/
def completes (s : State) (w : Word) (code : BitVec 4) (p : State → Bool) : Bool :=
  ends (step (s.accept w)) fun t => t.pending == none && !t.status.busy && t.status.lastcode == code && p t

/-- The machine with X registers set. -/
def withX (s : State) (vs : List (XReg × Word)) : State := vs.foldl (fun t v => t.setX v.1 v.2) s

/-! ## WellFormed -/

theorem test_csr_13_is_legal : (Instr.csrr 7 13).wf = true := by decide
theorem test_csr_14_is_refused : (Instr.csrr 7 14).wf = false := by decide
theorem test_csr_15_is_refused : (Instr.csrr 0 15).wf = false := by decide

/-! ## Decoding (95_test_vectors section 4 and section 2.9) -/

theorem test_decode_cvtH2f : decode 0b00000101000100000000000000000000 = .legal (.cvtH2f 2 1) := by decide
theorem test_decode_cvtF2h : decode 0b00001001101000000000000000000000 = .legal (.cvtF2h 3 2) := by decide
theorem test_decode_cvtH2fBuf : decode 0b00001100000101001100000000000000 = .legal (.cvtH2fBuf 1 2 3) := by decide
theorem test_decode_cvtF2hBuf : decode 0b00010000000101001100000000000000 = .legal (.cvtF2hBuf 1 2 3) := by decide
theorem test_decode_bswap16 : decode 0b00100010001100000000000000000000 = .legal (.bswap16 4 3) := by decide
theorem test_decode_bswap16Buf : decode 0b00100100000101000000000000000000 = .legal (.bswap16Buf 1 2) := by decide
theorem test_decode_payloadIn : decode 0b00101000001110000000000000000000 = .legal (.payloadIn 3 4) := by decide
theorem test_decode_hdrParse : decode 0b01000000000101000000000000000000 = .legal (.hdrParse 1 2) := by decide
theorem test_decode_alloc_half : decode 0b01100010100101001100000000000000 = .legal (.alloc 5 1 2 3 .half) := by decide
theorem test_decode_alloc_float : decode 0b01100010100101001110000000000000 = .legal (.alloc 5 1 2 3 .float) := by decide
theorem test_decode_free : decode 0b01100100010100000000000000000000 = .legal (.free 5) := by decide
theorem test_decode_csrr : decode 0b10000011000000000001000000000000 = .legal (.csrr 6 4) := by decide

/-- The reserved opcodes of 95_test_vectors section 2.9. -/
theorem test_decode_reserved_opcode :
    [0x00000000, 0x14000000, 0xFC000000, 0xFFFFFFFF].map decode = List.replicate 4 (.illegal .reservedOpcode) := by decide +kernel

/-- The words of 95_test_vectors section 2.9 with a must-be-0 field that is not 0. -/
theorem test_decode_reserved_field :
    [0x04000001, 0x04020000, 0x04004000, 0x05102000, 0x0C800000, 0x60001000, 0x80100000, 0x80000001, 0x64900000,
      0x41140000, 0x24144000].map decode = List.replicate 11 (.illegal .reservedField) := by
  decide +kernel

/-- CSRR of the two reserved numbers (R68). -/
theorem test_decode_reserved_csr :
    [0x83803800, 0x83003C00].map decode = List.replicate 2 (.illegal .reservedCsr) := by decide +kernel

/-- From reset, a command word that is accepted runs as the very next step. -/
theorem test_first_step_after_reset :
    [0x05100000, 0x09A00000, 0x0C14C000, 0x1014C000, 0x22300000, 0x24140000, 0x28380000, 0x40140000, 0x6294C000,
      0x64500000, 0x83001000].all (fun w => ends (step (State.reset.withFetchWord 32 w)) (fun t => t.pending == none)) =
      true := by
  decide +kernel

/-! ## One step of each instruction -/

/-- 95_test_vectors section 2.1, register forms: only the low half is read, rd = rs1. -/
theorem test_cvtH2f_in_place :
    completes (withX lab [(1, 0xFFFF3C00)]) 0x04900000 0 (fun t => t.x[1] == 0x3F800000) = true := by decide +kernel

/-- 95_test_vectors section 2.1: denormals, infinity, a signaling NaN. -/
theorem test_h2f_corners :
    [0x0001, 0x8001, 0x03FF, 0x0400, 0x7BFF, 0xFC00, 0x7C01, 0xFFFF].map h2f =
      [0x33800000, 0xB3800000, 0x387FC000, 0x38800000, 0x477FE000, 0xFF800000, 0x7F802000, 0xFFFFE000] := by
  decide +kernel

/-- 95_test_vectors section 2.2, register forms: overflow by the carry, zero-extended, rd = rs1. -/
theorem test_cvtF2h_in_place :
    completes (withX lab [(2, 0x477FF000)]) 0x09200000 0 (fun t => t.x[2] == 0x00007C00) = true := by decide +kernel

/-- 95_test_vectors section 2.2: ties, denormals, underflow, NaN. -/
theorem test_f2h_corners :
    [0x3F801000, 0x3F800FFF, 0x3FFFF000, 0x387FE000, 0x33000000, 0x32FFFFFF, 0xFFFFFFFF, 0x807FFFFF].map f2h =
      [0x3C01, 0x3C00, 0x4000, 0x0400, 0x0001, 0x0000, 0xFE00, 0x8000] := by decide +kernel

/-- 95_test_vectors section 2.4: the upper half is ignored. -/
theorem test_bswap16 :
    completes (withX lab [(3, 0xABCD1234)]) 0x22300000 0 (fun t => t.x[4] == 0x00003412) = true := by decide +kernel

/-- 95_test_vectors section 2.4: no alignment is needed. -/
theorem test_bswap16Buf_unaligned :
    completes (poke (withX lab [(1, 0x301), (2, 1)]) 0x300 [0x3C, 0x00, 0xBC, 0x00]) 0x24140000 0
      (fun t => peek t 0x300 4 == [0x3C, 0xBC, 0x00, 0x00]) = true := by decide +kernel

/-- 95_test_vectors section 2.4: the last two bytes of memory, and one byte past them. -/
theorem test_bswap16Buf_top_of_memory :
    completes (poke (withX lab [(1, 0xFFFE), (2, 1)]) 0xFFFE [0x01, 0x02]) 0x24140000 0
      (fun t => peek t 0xFFFE 2 == [0x02, 0x01]) = true ∧
    completes (withX lab [(1, 0xFFFF), (2, 1)]) 0x24140000 1 (fun t => t.mem == [] && t.status.err) = true := by
  decide +kernel

/-- 95_test_vectors section 2.5: a little-endian host, in place, where later samples read what earlier ones wrote. -/
theorem test_cvtH2fBuf_in_place :
    completes (poke (withX lab [(1, 0x100), (2, 0x100), (3, 4)]) 0x100 [0x00, 0x3C, 0x00, 0x38, 0x00, 0xBC, 0x00, 0x40])
      0x0C14C000 0 (fun t => peek t 0x100 16 == [0x00, 0x00, 0x80, 0x3F, 0x00, 0x00, 0xF0, 0x3F, 0x00, 0x00, 0x00, 0x00,
        0x00, 0x00, 0xFE, 0x3F]) = true := by decide +kernel

/-- 95_test_vectors section 2.5: a big-endian host. -/
theorem test_cvtH2fBuf_big_endian :
    completes (poke (withX { lab with hostBe := true } [(1, 0x200), (2, 0x100), (3, 2)]) 0x100 [0x3C, 0x00, 0xBC, 0x00])
      0x0C14C000 0 (fun t => peek t 0x200 8 == [0x3F, 0x80, 0x00, 0x00, 0xBF, 0x80, 0x00, 0x00]) = true := by
  decide +kernel

/-- 95_test_vectors section 2.5: 0.5 and -2.0 on a little-endian host. -/
theorem test_cvtF2hBuf :
    completes (poke (withX lab [(1, 0x200), (2, 0x100), (3, 2)]) 0x100 [0x00, 0x00, 0x00, 0x3F, 0x00, 0x00, 0x00, 0xC0])
      0x1014C000 0 (fun t => peek t 0x200 4 == [0x00, 0x38, 0x00, 0xC0]) = true := by decide +kernel

/-- 95_test_vectors section 2.5: a base of 0 fails even with n = 0; n = 0 with bases that are not 0 writes nothing. -/
theorem test_cvtF2hBuf_no_samples :
    completes (withX lab [(1, 0x200)]) 0x1014C000 1 (fun t => t.mem == []) = true ∧
    completes (withX lab [(1, 0x200), (2, 0x100)]) 0x1014C000 0 (fun t => t.mem == []) = true := by decide +kernel

/-- The bytes of the file "Ph\n2 2\n-1\n" and 8 payload bytes (95_test_vectors P2). -/
def fileP2 : List Byte :=
  [0x50, 0x68, 0x0A, 0x32, 0x20, 0x32, 0x0A, 0x2D, 0x31, 0x0A, 0x00, 0x00, 0x00, 0x38, 0x00, 0x3C, 0x00, 0xBC]

/-- That file at 0x1000, its base and length in X1 and X2. -/
def labP2 : State := poke (withX lab [(1, 0x1000), (2, 18)]) 0x1000 fileP2

/-- 95_test_vectors P2, step 1. -/
theorem test_hdrParse :
    completes labP2 0x40140000 0 (fun t => t.hdrWidth == 2 && t.hdrHeight == 2 && t.hdrChannels == 1 &&
      t.hdrInfo == ⟨true, false⟩ && t.hdrLen == 10 && t.hdrPbase == 0x100A && t.hdrPavail == 8) = true := by
  decide +kernel

/-- 95_test_vectors section 2.3: width 0 is FORMAT_ERROR: VALID is cleared, the rest is kept. -/
theorem test_hdrParse_width_0 :
    completes (poke (withX { lab with hdrInfo := ⟨true, true⟩, hdrWidth := 7 } [(1, 0x1000), (2, 9)]) 0x1000
      [0x50, 0x68, 0x0A, 0x30, 0x20, 0x31, 0x0A, 0x31, 0x0A]) 0x40140000 3
      (fun t => t.hdrInfo == ⟨false, true⟩ && t.hdrWidth == 7) = true := by decide +kernel

/-- The payload 3C 00 38 00 BC 00 at 0x100B, stored big-endian, under a parsed header (95_test_vectors section 2.6),
destination 0x2000, n samples. -/
def labPayload (n : Word) : State :=
  poke (withX { lab with
      hdrWidth := 1, hdrHeight := 1, hdrChannels := 3, hdrInfo := ⟨true, true⟩, hdrLen := 11, hdrPbase := 0x100B,
      hdrPavail := 6 } [(3, 0x2000), (4, n)]) 0x100B [0x3C, 0x00, 0x38, 0x00, 0xBC, 0x00]

/-- 95_test_vectors section 2.6: swapped on a little-endian host, copied on a big-endian one. -/
theorem test_payloadIn :
    completes (labPayload 3) 0x28380000 0 (fun t => peek t 0x2000 6 == [0x00, 0x3C, 0x00, 0x38, 0x00, 0xBC]) = true ∧
    completes { labPayload 3 with hostBe := true } 0x28380000 0
      (fun t => peek t 0x2000 6 == [0x3C, 0x00, 0x38, 0x00, 0xBC, 0x00]) = true := by decide +kernel

/-- 95_test_vectors section 2.6: a payload too short, and no valid header. -/
theorem test_payloadIn_errors :
    completes (labPayload 4) 0x28380000 5 (fun t => t.mem == (labPayload 4).mem) = true ∧
    completes (withX lab [(3, 0x2000)]) 0x28380000 1 (fun t => t.mem == []) = true := by decide +kernel

/-- The geometry w × h × c in X1, X2, X3, the allocator's next answer Ok(0x2000), 0xDEAD in X5 (95_test_vectors section
2.7). -/
def labAlloc (w h c : Word) : State :=
  { withX lab [(1, w), (2, h), (3, c), (5, 0xDEAD)] with answers := [.ok 0x2000] }

/-- 95_test_vectors section 2.7: 3 × 2 × 3 half samples. -/
theorem test_alloc :
    completes (labAlloc 3 2 3) 0x6294C000 0 (fun t => t.x[5] == 0x2000 && t.allocBase == 0x2000 && t.allocCount == 18 &&
      t.allocBytes == 36 && t.live == [⟨0x2000, 36⟩]) = true := by decide +kernel

/-- 95_test_vectors section 2.7: two channels, and a size of 2^32 bytes; no answer is used up. -/
theorem test_alloc_errors :
    completes (labAlloc 1 1 2) 0x6294C000 4 (fun t => t.x[5] == 0xDEAD && t.answers == [.ok 0x2000]) = true ∧
    completes (labAlloc 32768 32768 1) 0x6294E000 7 (fun t => t.x[5] == 0xDEAD && t.answers == [.ok 0x2000]) = true := by
  decide +kernel

/-- One live allocation, its base in X5. -/
def labFree : State := { withX lab [(5, 0x2000)] with live := [⟨0x3000, 4⟩, ⟨0x2000, 8⟩] }

/-- 95_test_vectors section 2.7: a live base is released; 0 is INVALID_ARGUMENT. -/
theorem test_free :
    completes labFree 0x64500000 0 (fun t => t.live == [⟨0x3000, 4⟩]) = true ∧
    completes labFree 0x64000000 1 (fun t => t.live == labFree.live) = true := by decide +kernel

/-- 95_test_vectors section 2.8: ID, and STATUS, which shows the CSRR itself running. -/
theorem test_csrr :
    completes lab 0x83000000 0 (fun t => t.x[6] == 0x50484D01) = true ∧
    completes lab 0x83000400 0 (fun t => t.x[6] == 0x00000001) = true := by decide +kernel

/-- 95_test_vectors section 2.8: a reserved number. -/
theorem test_csrr_reserved :
    completes (withX lab [(6, 5)]) 0x83003800 8 (fun t => t.x[6] == 5 && t.status.err) = true := by decide +kernel

/-- 95_test_vectors section 2.8: STATUS = 0x506 and a host write of 0x2. -/
theorem test_status_write_one_clears :
    ends (hostMmioWrite 0x04 .word 0x2 { lab with status := ⟨false, true, true, 5⟩ })
      (fun t => t.status.word == 0x504) = true := by decide +kernel

/-- 95_test_vectors section 2.8: X1 while BUSY = 1 is dropped and sets CMDOVR. -/
theorem test_busy_write_is_dropped :
    ends (hostMmioWrite 0x44 .word 7 (lab.accept 0x83000000)) (fun t => t.x[1] == 0 && t.status.cmdovr) = true := by
  decide +kernel

/-! ## Witnesses: states and operands that meet the hypotheses of the obligations -/

theorem test_witness_DecodeOfEncodeIsTheCommand : (Instr.csrr 6 13).wf = true ∧ (Instr.alloc 7 6 5 4 .float).wf = true := by
  decide

theorem test_witness_EncodeOfDecodeIsTheWord : decode 0x83003400 = .legal (.csrr 6 13) := by decide +kernel

theorem test_witness_DecoderFollowsTheOpcodeMap :
    (⟨.cvtH2f, 0x04000000, 0xFC0FFFFF⟩ : Row) ∈ opcodeMap ∧ (0x05100000 : Word) &&& 0xFC0FFFFF = 0x04000000 := by decide

/-- The two ways in which the CORE moves next: nothing scheduled, and its move at the head. -/
theorem test_witness_CoreMoves (w : Word) :
    CoreMoves (lab.accept w) (lab.accept w) ∧ CoreMoves (issueNext lab w) (lab.accept w) :=
  ⟨.inl ⟨rfl, rfl⟩, .inr ⟨[], rfl, rfl⟩⟩

/-- One pending word for each clause of R68; the CORE's move is `test_witness_CoreMoves`. -/
theorem test_witness_IllegalCommandsOnlyWriteStatus :
    (issueNext lab 0x00000000).pending = some 0x00000000 ∧ (lab.accept 0x00000000).pending = some 0x00000000 ∧
    decode 0x00000000 = .illegal .reservedOpcode ∧ decode 0x04000001 = .illegal .reservedField ∧
    decode 0x83003800 = .illegal .reservedCsr ∧ decode 0x83003C00 = .illegal .reservedCsr := by decide +kernel

theorem test_witness_StepRunsThePendingCommand :
    (lab.accept 0x05100000).schedule = [] ∧ (lab.accept 0x05100000).pending = some 0x05100000 ∧
    (issueNext lab 0x05100000).schedule = .core :: [] ∧ (issueNext lab 0x05100000).pending = some 0x05100000 ∧
    decode 0x05100000 = .legal (.cvtH2f 2 1) ∧ lab.schedule = [] ∧ lab.pending = none ∧
    decodeTableWord 32 0x05100000 = some (.cvtH2f 2 1) := by decide +kernel

theorem test_witness_PendingCommandCompletes : (issueNext lab 0x05100000).pending = some 0x05100000 := by decide +kernel

theorem test_witness_CsrrCopiesTheRegister : (0 : Fin 16).val ≤ 13 ∧ (13 : Fin 16).val ≤ 13 := by decide

theorem test_witness_CsrrOfStatusSeesItselfBusy :
    (lab.accept 0x83000400).BusyInv ∧ (issueNext lab 0x83000400).BusyInv ∧
    (issueNext lab 0x83000400).pending = some 0x83000400 ∧ (lab.accept 0x83000400).pending = some 0x83000400 ∧ decode 0x83000400 = .legal (.csrr 6 1) := by decide +kernel

/-- Infinity and a NaN. -/
theorem test_witness_H2fOfInfAndNan :
    (0xFC00 : Half).extractLsb' 10 5 = 31 ∧ (0xFC00 : Half).extractLsb' 0 10 = 0 ∧
    (0x7C01 : Half).extractLsb' 10 5 = 31 ∧ (0x7C01 : Half).extractLsb' 0 10 ≠ 0 := by decide

/-- Exponent fields 1 and 30. -/
theorem test_witness_H2fOfNormals :
    ((0x0400 : Half).extractLsb' 10 5).toNat = 1 ∧ ((0x7BFF : Half).extractLsb' 10 5).toNat = 30 := by decide

theorem test_witness_H2fIsExactAndInjective :
    (halfIsNan 0x7C00 = false ∧ halfIsInf 0x7C00 = true) ∧ (halfIsNan 0x03FF = false ∧ halfIsInf 0x03FF = false) ∧
    (h2f 0x8000).extractLsb' 23 8 = 0 ∧ (0x83FF : Half).extractLsb' 10 5 = 0 := by decide +kernel

theorem test_witness_F2hOfZeroInfAndNan :
    (0x807FFFFF : Word).extractLsb' 23 8 = 0 ∧
    ((0xFF800000 : Word).extractLsb' 23 8 = 255 ∧ (0xFF800000 : Word).extractLsb' 0 23 = 0) ∧
    ((0x7F800001 : Word).extractLsb' 23 8 = 255 ∧ (0x7F800001 : Word).extractLsb' 0 23 ≠ 0) := by decide

/-- A float32 that is an exact tie, with the infinity's pattern and with 0 as the other half. -/
theorem test_witness_F2hRoundsToNearestTiesAway :
    (0x477FF000 : Word).extractLsb' 23 8 ≠ 255 ∧ (0x7C00 : Half).toNat ≤ 0x7C00 ∧ (0x0000 : Half).toNat ≤ 0x7C00 := by decide

theorem test_witness_HalfSurvivesTheRoundTrip : halfIsNan 0x7C00 = false ∧ halfIsNan 0xFC01 = true := by decide

theorem test_witness_AccessesUseTheHostOrder : lab.touched = [] := by decide +kernel

/-- A base of 0, and a region that ends one byte past memory, for each operand of each command. -/
theorem test_witness_BadRegionsAreInvalidArguments :
    let s := withX lab [(1, 0xFFFD), (2, 0x100), (3, 1), (4, 0xFFFF), (5, 0xF001), (6, 0x1000)]
    ¬ (s.x[4].toNat ≠ 0 ∧ s.x[4].toNat + 2 * s.x[3].toNat ≤ s.memBytes) ∧
    ¬ (s.x[1].toNat ≠ 0 ∧ s.x[1].toNat + 4 * s.x[3].toNat ≤ s.memBytes) ∧
    ¬ (s.x[0].toNat ≠ 0 ∧ s.x[0].toNat + 4 * s.x[0].toNat ≤ s.memBytes) ∧
    ¬ (s.x[0].toNat ≠ 0 ∧ s.x[0].toNat + 2 * s.x[0].toNat ≤ s.memBytes) ∧
    ¬ (s.x[5].toNat ≠ 0 ∧ s.x[5].toNat + s.x[6].toNat ≤ s.memBytes) := by decide +kernel

/-- A destination that ends at the end of memory. -/
def labBuf : State := poke (withX lab [(1, 0xFFF8), (2, 0x100), (3, 2)]) 0x100 [0x00, 0x3C, 0x00, 0xBC]

theorem test_witness_CvtH2fBufConvertsEverySample :
    0xFFF8 = labBuf.x[1].toNat ∧ 0x100 = labBuf.x[2].toNat ∧ 2 = labBuf.x[3].toNat ∧ 0x100 ≠ 0 ∧
    0x100 + 2 * 2 ≤ labBuf.memBytes ∧ 0xFFF8 ≠ 0 ∧ 0xFFF8 + 4 * 2 ≤ labBuf.memBytes ∧ 0x100 + 2 * 2 ≤ 0xFFF8 ∧
    labBuf.Quiet [⟨0x100, 2 * 2⟩, ⟨0xFFF8, 4 * 2⟩] := by decide +kernel

/-- The two sides of the apartness: dst before src, and dst where src ends. -/
theorem test_witness_CvtH2fBufConvertsEverySample_apart :
    let s := withX lab [(1, 0x104), (2, 0x100), (3, 2), (4, 0xF8)]
    (s.x[2].toNat + 2 * s.x[3].toNat ≤ s.x[1].toNat) ∧ (s.x[4].toNat + 4 * s.x[3].toNat ≤ s.x[2].toNat) := by
  decide +kernel

/-- In place at the end of memory. -/
theorem test_witness_CvtF2hBufPacksInPlace :
    0xFFF8 = labBuf.x[1].toNat ∧ 2 = labBuf.x[3].toNat ∧ 0xFFF8 ≠ 0 ∧ 0xFFF8 + 4 * 2 ≤ labBuf.memBytes ∧
    0xFFF8 + 2 * 2 ≤ labBuf.memBytes ∧ 0xFFF8 ≤ 0xFFF8 ∧ labBuf.Quiet [⟨0xFFF8, 4 * 2⟩, ⟨0xFFF8, 2 * 2⟩] := by
  decide +kernel

theorem test_witness_Bswap16BufSwapsEveryPair :
    0x100 = labBuf.x[2].toNat ∧ 2 = labBuf.x[3].toNat ∧ 0x100 ≠ 0 ∧ 0x100 + 2 * 2 ≤ labBuf.memBytes ∧
    labBuf.Quiet [⟨0x100, 2 * 2⟩] := by decide +kernel

/-- The parsed header of `labPayload` meets the header invariant. -/
theorem test_witness_HdrInv : (labPayload 3).HdrInv where
  channels := by decide +kernel
  width := by decide +kernel
  height := by decide +kernel
  length := by decide +kernel
  payload := by decide +kernel

/-- With `test_witness_HdrInv`: the whole payload, to a destination past it. -/
theorem test_witness_PayloadInGivesLogicalSamples :
    0x2000 = (labPayload 3).x[3].toNat ∧ 0x100B = (labPayload 3).hdrPbase.toNat ∧ 3 = (labPayload 3).x[4].toNat ∧
    (labPayload 3).hdrInfo.valid = true ∧ 0x2000 ≠ 0 ∧ 0x2000 + 2 * 3 ≤ (labPayload 3).memBytes ∧
    2 * 3 ≤ (labPayload 3).hdrPavail.toNat ∧ 0x100B + 2 * 3 ≤ 0x2000 ∧
    (labPayload 3).Quiet [⟨0x100B, 2 * 3⟩, ⟨0x2000, 2 * 3⟩] := by decide +kernel

/-- In place: the destination is the payload itself. -/
theorem test_witness_PayloadInGivesLogicalSamples_in_place :
    let s := (labPayload 3).setX 3 0x100B
    0x100B = s.x[3].toNat ∧ 0x100B = s.hdrPbase.toNat ∧ 3 = s.x[4].toNat ∧ s.hdrInfo.valid = true ∧ 0x100B ≠ 0 ∧
    0x100B + 2 * 3 ≤ s.memBytes ∧ 2 * 3 ≤ s.hdrPavail.toNat ∧ 0x100B ≤ 0x100B ∧
    s.Quiet [⟨0x100B, 2 * 3⟩, ⟨0x100B, 2 * 3⟩] := by decide +kernel

/-- Overlapping source and destination, for the two conversions; the payload clause is met by the state of
`test_witness_PayloadInGivesLogicalSamples`. -/
theorem test_witness_BufferCommandsRunElementByElement :
    let s := withX lab [(1, 0x102), (2, 0x100), (3, 4)]
    0x102 = s.x[1].toNat ∧ 0x100 = s.x[2].toNat ∧ 4 = s.x[3].toNat ∧ 0x102 ≠ 0 ∧ 0x100 ≠ 0 ∧
    0x100 + 2 * 4 ≤ s.memBytes ∧ 0x102 + 4 * 4 ≤ s.memBytes ∧ s.Quiet [⟨0x100, 2 * 4⟩, ⟨0x102, 4 * 4⟩] ∧
    0x100 + 4 * 4 ≤ s.memBytes ∧ 0x102 + 2 * 4 ≤ s.memBytes ∧ s.Quiet [⟨0x100, 4 * 4⟩, ⟨0x102, 2 * 4⟩] := by
  decide +kernel

/-- A host write of 0x100 while BSWAP16.BUF x2, x3 runs. -/
def labRace : State := { labBuf.accept 0x24260000 with touched := [⟨0x100, true⟩] }

theorem test_witness_RacedBytesHoldAnyValue :
    (∃ t, exec (.bswap16Buf 2 3) labRace = .next t ∧ (t.pending == none) = true) ∧
    inRegions (footprint (.bswap16Buf 2 3) labRace).all 0x100 = true ∧ ∃ u ∈ labRace.touched, u.addr = 0x100 := by
  refine ⟨ends_next (by decide +kernel), by decide +kernel, ⟨0x100, true⟩, ?_, rfl⟩
  show (⟨0x100, true⟩ : Touch) ∈ [⟨0x100, true⟩]
  decide

/-- The LF of line 1, which HDR.PARSE reads, and which the host has read. -/
theorem test_witness_RacedBytesHoldAnyValue_hdrParse :
    let s : State := { labP2 with touched := [⟨0x1002, false⟩] }
    (∃ t, exec (.hdrParse 1 2) s = .next t ∧ (t.status.lastcode == 0) = true) ∧
    inRegions (footprint (.hdrParse 1 2) s).all 0x1002 = true ∧ ∃ u ∈ s.touched, u.addr = 0x1002 :=
  ⟨ends_next (by decide +kernel), by decide +kernel, ⟨0x1002, false⟩, List.mem_singleton.mpr rfl, rfl⟩

/-- In every state there is a `read` as the statement asks for. -/
theorem test_witness_CommandsReadRacedBytesFreely (s : State) : ∃ read : Nat → Byte,
    (∀ c, (∃ u ∈ s.touched, u.wrote = true ∧ u.addr = c) → read c = Config.coreRaceByte s.tick c) ∧
    (∀ c, (∀ u ∈ s.touched, u.addr = c → u.wrote = false) → read c = s.byteAt c) := by
  refine ⟨s.coreByte, fun c h => ?_, fun c h => ?_⟩
  · simp [State.coreByte, State.hostWrote, h]
  · have : s.hostWrote c = false := by
      simp only [State.hostWrote, List.any_eq_false, Bool.and_eq_true, decide_eq_true_eq]
      rintro u hu ⟨hw, hc⟩
      rw [h u hu hc] at hw
      cases hw
    simp [State.coreByte, this]

/-- A source byte that the host wrote, a quiet destination; each side of the apartness. -/
theorem test_witness_CommandsReadRacedBytesFreely_buffers :
    (0xFFF8 = labRace.x[1].toNat ∧ 0x100 = labRace.x[2].toNat ∧ 2 = labRace.x[3].toNat ∧
      0xFFF8 + 4 * 2 ≤ labRace.memBytes ∧ 0x100 + 4 * 2 ≤ 0xFFF8 ∧ labRace.Quiet [⟨0xFFF8, 4 * 2⟩] ∧
      labRace.Quiet [⟨0xFFF8, 2 * 2⟩] ∧ ∀ u ∈ labRace.touched, u.addr ≠ 0x101) ∧
    (let s := labRace.setX 1 0xF8; 0xF8 = s.x[1].toNat ∧ 0xF8 + 4 * 2 ≤ 0x100 ∧ s.Quiet [⟨0xF8, 4 * 2⟩]) ∧
    (let s : State := { labPayload 3 with touched := [⟨0x100C, true⟩] };
      s.hdrInfo.valid = true ∧ 0x2000 = s.x[3].toNat ∧ 0x100B + 2 * 3 ≤ 0x2000 ∧ s.Quiet [⟨0x2000, 2 * 3⟩]) := by
  decide +kernel

/-! ### The header parser -/

/-- The text of the header "Ph\n2 2\n-1\n". -/
def textP2 : HeaderText :=
  { rgb := false, width := [0x32], seps := [0x20], height := [0x32],
    marker := { sign := some 0x2D, whole := [0x31], fraction := none, exponent := none } }

theorem test_witness_HdrParseAcceptsTheGrammar :
    0x1000 = labP2.x[1].toNat ∧ 18 = labP2.x[2].toNat ∧ 0x1000 ≠ 0 ∧ 0x1000 + 18 ≤ labP2.memBytes ∧
    labP2.Quiet [⟨0x1000, 18⟩] ∧ textP2.ok = true ∧
    (List.range 18).map (fun k => labP2.byteAt (0x1000 + k)) =
      textP2.bytes ++ [0x00, 0x00, 0x00, 0x38, 0x00, 0x3C, 0x00, 0xBC] ∧
    0x1000 + textP2.bytes.length < 2 ^ 32 := by decide +kernel

/-- A payload byte that the host has written: the text of the header stands, whatever the command reads there. -/
theorem test_witness_CommandsReadRacedBytesFreely_hdrParse :
    let s : State := { labP2 with touched := [⟨0x100A, true⟩] }
    0x1000 = s.x[1].toNat ∧ 18 = s.x[2].toNat ∧ 0x1000 + 18 ≤ s.memBytes ∧ textP2.ok = true ∧
    (List.range 18).map (fun k => s.coreByte (0x1000 + k)) =
      textP2.bytes ++ (s.coreByte 0x100A :: [0x00, 0x00, 0x38, 0x00, 0x3C, 0x00, 0xBC]) :=
  ⟨by decide +kernel, by decide +kernel, by decide +kernel, by decide +kernel, by rfl⟩

/-- HDR.PARSE pending, the host about to write the first payload byte. -/
def labParsing : State := { labP2.accept 0x40140000 with schedule := [.memWrite 0x100A 0x77] }

theorem test_witness_HdrParseReadsOnlyTheHeader :
    0x1000 = labParsing.x[1].toNat ∧ 18 = labParsing.x[2].toNat ∧ 0x1000 + 18 ≤ labParsing.memBytes ∧
    (List.range 18).map (fun k => labParsing.byteAt (0x1000 + k)) =
      textP2.bytes ++ [0x00, 0x00, 0x00, 0x38, 0x00, 0x3C, 0x00, 0xBC] ∧
    (∀ u ∈ writesAhead labParsing.schedule ++ labParsing.touched,
      u.wrote = true → u.addr < 0x1000 ∨ 0x1000 + textP2.bytes.length ≤ u.addr) ∧
    labParsing.pending = some 0x40140000 ∧ decode 0x40140000 = .legal (.hdrParse 1 2) ∧
    0x1000 + textP2.bytes.length ≤ (0x100A : Word).toNat ∧ (0x100A : Word).toNat < labParsing.memBytes ∧
    (∃ u, exec (.hdrParse 1 2) labParsing = .next u ∧ (u.status.lastcode == 0) = true) :=
  ⟨by decide +kernel, by decide +kernel, by decide +kernel, by decide +kernel, by decide +kernel, by decide +kernel,
    by decide +kernel, by decide +kernel, by decide +kernel, ends_next (by decide +kernel)⟩

/-- Another memory that agrees on what HDR.PARSE reads: the payload byte after the write. -/
theorem test_witness_HdrParseReadsOnlyTheHeader_memory :
    ∀ c, inRegions (footprint (.hdrParse 1 2) labParsing).all c = true →
      (labParsing.writeByte 0x100A 0x77).byteAt c = labParsing.byteAt c := by
  intro c hc
  have e : (footprint (.hdrParse 1 2) labParsing).all = [⟨0x1000, 10⟩] := by decide +kernel
  rw [e] at hc
  simp [inRegions, Region.contains] at hc
  exact State.byteAt_writeByte_other _ _ _ _ (by omega)

/-- The host's access to a header byte is a race and to a payload byte is none (R56, R98); a host write to come of the
LF of line 1 leaves open how far the parser reads. -/
theorem test_payload_byte_is_no_race :
    labParsing.races 0x1009 = true ∧ labParsing.races 0x100A = false ∧
    ends (step labParsing) (fun t => t.touched == [] && t.byteAt 0x100A == 0x77) = true := by decide +kernel

/-- The file image "PX". -/
theorem test_witness_HdrParseRejectsAllElse :
    let s := poke (withX lab [(1, 0xFFFE), (2, 2)]) 0xFFFE [0x50, 0x58]
    0xFFFE = s.x[1].toNat ∧ 2 = s.x[2].toNat ∧ 0xFFFE ≠ 0 ∧ 0xFFFE + 2 ≤ s.memBytes ∧ s.Quiet [⟨0xFFFE, 2⟩] ∧
    ¬ ∃ (text : HeaderText) (payload : List Byte), text.ok = true ∧
      (List.range 2).map (fun k => s.byteAt (0xFFFE + k)) = text.bytes ++ payload := by
  refine ⟨by decide +kernel, by decide +kernel, by decide, by decide +kernel, by decide +kernel, ?_⟩
  rintro ⟨text, payload, _, h⟩
  have e : (List.range 2).map
      (fun k => (poke (withX lab [(1, 0xFFFE), (2, 2)]) 0xFFFE [0x50, 0x58]).byteAt (0xFFFE + k)) = [0x50, 0x58] := by
    decide +kernel
  have := congrArg List.length (e.symm.trans h)
  simp [HeaderText.bytes] at this

theorem test_witness_SuccessfulParseInvariants :
    (∃ t, exec (.hdrParse 1 2) labP2 = .next t ∧ (t.status.lastcode == 0 && t.hdrLen == 10) = true) ∧
    labP2.x[1].toNat + 10 < 2 ^ 32 := ⟨ends_next (by decide +kernel), by decide +kernel⟩

theorem test_witness_FailedParseBlocksPayloadIn :
    ∃ t, exec (.hdrParse 0 2) (labPayload 3) = .next t ∧ (t.status.lastcode != 0) = true := ends_next (by decide +kernel)

/-- The same file image parsed again after other registers have changed. -/
theorem test_witness_HdrParseTwiceGivesTheSame :
    let t : State := withX { labP2 with hostBe := true, tick := 7 } [(6, 0x1000), (7, 18)]
    t.x[6] = labP2.x[1] ∧ t.x[7] = labP2.x[2] ∧ t.params = labP2.params ∧ labP2.Quiet [⟨0x1000, 18⟩] ∧
    t.Quiet [⟨0x1000, 18⟩] ∧ t.mem = labP2.mem ∧ labP2.Quiet [⟨labP2.x[1].toNat, labP2.x[2].toNat⟩] ∧
    (∃ u, exec (.hdrParse 1 2) labP2 = .next u ∧ (u.status.lastcode == 0) = true) :=
  ⟨by decide +kernel, by decide +kernel, by decide +kernel, by decide +kernel, by decide +kernel, by decide +kernel,
    by decide +kernel, ends_next (by decide +kernel)⟩

/-! ### The allocator -/

/-- A buffer of 8 bytes that ends at the end of memory. -/
theorem test_witness_AllocGrantsTheBuffer :
    let s : State := { labAlloc 2 2 1 with answers := [.ok 0xFFF8], live := [⟨0xFFF0, 8⟩], hostRegions := [⟨0x100, 4⟩] }
    2 = s.x[1].toNat ∧ 2 = s.x[2].toNat ∧ 1 = s.x[3].toNat ∧ 2 * 2 * 1 * 2 ≤ 2 ^ 32 - 1 ∧
    s.answers = .ok 0xFFF8 :: [] ∧ (0xFFF8 : Word).toNat ≠ 0 ∧ (0xFFF8 : Word).toNat % 4 = 0 ∧
    (0xFFF8 : Word).toNat + 2 * 2 * 1 * 2 ≤ s.memBytes ∧
    (∀ r ∈ s.live ++ s.hostRegions, r.base + r.len ≤ (0xFFF8 : Word).toNat ∨ (0xFFF8 : Word).toNat + 2 * 2 * 1 * 2 ≤ r.base) := by
  decide +kernel

/-- Width 0, a negative height, two channels. -/
theorem test_witness_AllocValidatesTheGeometry :
    ¬ (0 < (labAlloc 0 1 1).x[1].toInt) ∧ ¬ (0 < (labAlloc 1 0xFFFFFFFF 1).x[2].toInt) ∧
    ¬ ((labAlloc 1 1 2).x[3].toInt = 1 ∨ (labAlloc 1 1 2).x[3].toInt = 3) ∧
    ∃ t, exec (.alloc 5 1 2 3 .half) (labAlloc 1 1 2) = .next t ∧ (t.status.lastcode == 4) = true :=
  ⟨by decide +kernel, by decide +kernel, by decide +kernel, ends_next (by decide +kernel)⟩

/-- A size of 2^32 bytes, and an allocation that succeeds. -/
theorem test_witness_AllocSizesAreExact :
    (32768 = (labAlloc 32768 32768 1).x[1].toNat ∧ 32768 = (labAlloc 32768 32768 1).x[2].toNat ∧
      1 = (labAlloc 32768 32768 1).x[3].toNat ∧ 2 ^ 32 - 1 < 32768 * 32768 * 1 * 4) ∧
    ∃ t, exec (.alloc 5 1 2 3 .half) (labAlloc 2 2 1) = .next t ∧ (t.status.lastcode == 0) = true :=
  ⟨by decide +kernel, ends_next (by decide +kernel)⟩

theorem test_witness_AllocCompletesWhateverTheDraw :
    lab.answers = [] ∧ ({ labAlloc 1 1 1 with answers := [.fail] } : State).answers = .fail :: [] ∧
    0 < (labAlloc 1 1 1).x[1].toInt ∧ 0 < (labAlloc 1 1 1).x[2].toInt ∧ (labAlloc 1 1 1).x[3].toInt = 1 ∧
    (labAlloc 1 1 1).x[1].toInt * (labAlloc 1 1 1).x[2].toInt * (labAlloc 1 1 1).x[3].toInt * 2 ≤ 2 ^ 32 - 1 := by
  decide +kernel

/-- A live base, 0, and an address that is no live base. -/
theorem test_witness_FreeReleasesTheBuffer :
    (⟨0x2000, 8⟩ ∈ labFree.live ∧ 0x2000 = labFree.x[5].toNat ∧ 0x2000 ≠ 0) ∧ labFree.x[0] = 0 ∧
    ((withX labFree [(1, 0x2004)]).x[1] ≠ 0 ∧
      ∀ r ∈ (withX labFree [(1, 0x2004)]).live, r.base ≠ (withX labFree [(1, 0x2004)]).x[1].toNat) ∧
    (⟨0x3000, 4⟩ ∈ labFree.live ∧ 0x3000 = (0x3000 : Word).toNat) ∧
    (∀ r ∈ labFree.live, r.base ≠ (0x2004 : Word).toNat) := by decide +kernel

/-! ### Every command -/

/-- A command that succeeds and one that fails: the hypotheses of EveryCommandWritesStatus, FailingCommandsChangeOnlyStatus,
CommandsWriteOnlyTheirRegisters and CommandsWriteOnlyTheirRegions (its first clause). -/
theorem test_witness_commands_complete :
    (∃ t, exec (.cvtH2fBuf 1 2 3) labBuf = .next t ∧ (t.status.lastcode == 0) = true) ∧
    (∃ t, exec (.cvtH2fBuf 0 2 3) labBuf = .next t ∧ (t.status.lastcode != 0) = true) ∧
    (∃ t, exec (.hdrParse 0 2) labP2 = .next t ∧ (t.status.lastcode != 0) = true) :=
  ⟨ends_next (by decide +kernel), ends_next (by decide +kernel), ends_next (by decide +kernel)⟩

/-- The end of EveryCommandWritesStatus's step clause, with a move scheduled after the CORE's. -/
theorem test_witness_EveryCommandWritesStatus :
    ∃ t, step { issueNext lab 0x00000000 with schedule := [.core, .reset false] } = .next t ∧
      (t.status.lastcode == 8 && t.status.err && t.schedule == [.reset false]) = true := ends_next (by decide +kernel)

/-- The first and last bytes that each buffer command accesses race while it is pending and their neighbours do not:
CVT.H2F.BUF x1, x2, x3 and CVT.F2H.BUF x1, x2, x3 with 2 samples from 0x100 to 0xFFF8, BSWAP16.BUF x2, x3 and
PAYLOAD.IN x3, x4 with 3 samples from 0x100B to 0x2000 (R39, R56). -/
theorem test_witness_CommandsWriteOnlyTheirRegions :
    decode 0x0C14C000 = .legal (.cvtH2fBuf 1 2 3) ∧ decode 0x1014C000 = .legal (.cvtF2hBuf 1 2 3) ∧
    decode 0x24260000 = .legal (.bswap16Buf 2 3) ∧ decode 0x28380000 = .legal (.payloadIn 3 4) ∧
    [0xFF, 0x100, 0x103, 0x104, 0xFFF7, 0xFFF8, 0xFFFF].map (labBuf.accept 0x0C14C000).races =
      [false, true, true, false, false, true, true] ∧
    [0xFF, 0x100, 0x107, 0x108, 0xFFF7, 0xFFF8, 0xFFFB, 0xFFFC].map (labBuf.accept 0x1014C000).races =
      [false, true, true, false, false, true, true, false] ∧
    [0xFF, 0x100, 0x103, 0x104].map (labBuf.accept 0x24260000).races = [false, true, true, false] ∧
    [0x100A, 0x100B, 0x1010, 0x1011, 0x1FFF, 0x2000, 0x2005, 0x2006].map ((labPayload 3).accept 0x28380000).races =
      [false, true, true, false, false, true, true, false] ∧
    labBuf.pending = none ∧ labBuf.races 0x100 = false ∧ (labBuf.accept 0x00000000).races 0x100 = false := by
  decide +kernel

/-- The clauses for PAYLOAD.IN: no valid header, a bad region, a payload one sample too short. -/
theorem test_witness_FirstErrorIsReported_payloadIn :
    lab.hdrInfo.valid = false ∧
    ((labPayload 3).hdrInfo.valid = true ∧ (labPayload 3).regionOk (labPayload 3).x[0].toNat (2 * (labPayload 3).x[4].toNat) = false) ∧
    ((labPayload 4).hdrInfo.valid = true ∧
      (labPayload 4).regionOk (labPayload 4).x[3].toNat (2 * (labPayload 4).x[4].toNat) = true ∧
      (labPayload 4).hdrPavail.toNat < 2 * (labPayload 4).x[4].toNat) := by decide +kernel

/-- The clauses for HDR.PARSE, ALLOC and the commands of one error; the illegal word is that of
`test_witness_IllegalCommandsOnlyWriteStatus`. -/
theorem test_witness_FirstErrorIsReported :
    (∃ t, exec (.hdrParse 0 2) labP2 = .next t ∧ (t.status.lastcode == 1) = true) ∧
    (∃ t, exec (.alloc 5 1 2 3 .half) (labAlloc 1 1 2) = .next t ∧ (t.status.lastcode == 4) = true) ∧
    (∃ t, exec (.alloc 5 1 2 3 .float) (labAlloc 32768 32768 1) = .next t ∧ (t.status.lastcode == 7) = true) ∧
    (∃ t, exec (.free 0) labFree = .next t ∧ (t.status.lastcode == 1) = true) ∧
    (∃ t, exec (.csrr 1 13) labFree = .next t ∧ (t.status.lastcode == 0) = true) :=
  ⟨ends_next (by decide +kernel), ends_next (by decide +kernel), ends_next (by decide +kernel),
    ends_next (by decide +kernel), ends_next (by decide +kernel)⟩

/-- The two stops of CommandsFaultOnlyOnBadRelease, the second for 2 × 2 × 1 half samples; its hypothesis is
`test_witness_HdrInv`. -/
theorem test_witness_CommandsFaultOnlyOnBadRelease :
    exec (.free 1) (withX labFree [(1, 0x2004)]) = .fault .badRelease ∧
    exec (.alloc 5 1 2 3 .half) { labAlloc 2 2 1 with answers := [.ok 0x2002] } = .refused .allocContract ∧
    (labAlloc 2 2 1).contractOk 0x2002 8 = false :=
  ⟨by rfl, by rfl, by decide +kernel⟩

/-! ### Invariants and steps -/

/-- A pending conversion that writes memory, in a machine with a parsed header, a race and two live allocations. -/
def labBusy : State :=
  poke { withX { lab with
      hdrWidth := 1, hdrHeight := 1, hdrChannels := 3, hdrInfo := ⟨true, true⟩, hdrLen := 11, hdrPbase := 0x100B,
      hdrPavail := 6 } [(1, 0xFFF8), (2, 0x100), (3, 2)] with
    status := ⟨true, true, false, 5⟩, pending := some 0x0C14C000, live := [⟨0x3000, 4⟩, ⟨0x2000, 8⟩],
    touched := [⟨0x103, false⟩] } 0x100 [0x00, 0x3C, 0x00, 0xBC]

theorem test_witness_StepKeepsBusyWithPending : labBusy.BusyInv ∧ ∃ t, step labBusy = .next t ∧ (t.pending == none) = true :=
  ⟨by decide +kernel, ends_next (by decide +kernel)⟩

theorem test_witness_StepKeepsInvariants : labBusy.CodeInv ∧ labBusy.MemInv ∧ labBusy.RaceInv := by decide +kernel

theorem test_witness_StepKeepsHeaderInvariant : labBusy.HdrInv where
  channels := by decide +kernel
  width := by decide +kernel
  height := by decide +kernel
  length := by decide +kernel
  payload := by decide +kernel

theorem test_witness_StepKeepsLiveAllocationsApart : labBusy.LiveInv where
  base := by decide +kernel
  size := by decide +kernel
  apart := by
    show [(⟨0x3000, 4⟩ : Region), ⟨0x2000, 8⟩].Pairwise Apart
    refine .cons (fun q hq => ?_) (.cons (fun q hq => by cases hq) .nil)
    rw [List.mem_singleton.mp hq]
    rintro a ⟨h1, h2⟩
    simp [Region.contains] at h1 h2
    omega

/-- A host write of ones to STATUS, and a reset, with ERR and CMDOVR set. -/
def labSticky (e : Event) : State := { lab with status := ⟨false, true, true, 5⟩, schedule := [e] }

theorem test_witness_ErrIsSticky :
    (∃ t, step labBusy = .next t ∧ (t.status.lastcode == 0 && t.status.err) = true) ∧
    (∃ t, step (issueNext lab 0x00000000) = .next t ∧ (t.status.lastcode != 0) = true) ∧
    labBusy.schedule = [] ∧ labBusy.pending = some 0x0C14C000 ∧ (0x2 : Word).getLsbD 1 = true ∧
    (∃ t, step (labSticky (.mmioWrite 0x04 .word 0x2)) = .next t ∧ (!t.status.err) = true) ∧
    (∃ t, step (labSticky (.reset false)) = .next t ∧ (!t.status.err) = true) ∧
    (labSticky (.reset false)).status.err = true :=
  ⟨ends_next (by decide +kernel), ends_next (by decide +kernel), by decide +kernel, by decide +kernel, by decide,
    ends_next (by decide +kernel), ends_next (by decide +kernel), by decide +kernel⟩

theorem test_witness_CmdovrIsSticky :
    labBusy.status.busy = true ∧ ((0x5C : BitVec 8).toNat % 4 = 0 ∧ 0x40 ≤ (0x5C : BitVec 8).toNat ∧ (0x5C : BitVec 8).toNat < 0x60) ∧
    labBusy.status.cmdovr = false ∧ (0x4 : Word).getLsbD 2 = true ∧
    (∃ t, step { labBusy with schedule := [.mmioWrite 0x5C .word 1] } = .next t ∧ t.status.cmdovr = true) ∧
    (∃ t, step (labSticky (.mmioWrite 0x04 .word 0x4)) = .next t ∧ (!t.status.cmdovr) = true) :=
  ⟨by decide +kernel, by decide, by decide +kernel, by decide, ends_next (by decide +kernel), ends_next (by decide +kernel)⟩

/-! ### The host -/

/-- The ends of each range of offsets, and the two ends of the X registers. -/
theorem test_witness_HostWriteTable :
    ((0x00 : BitVec 8).toNat % 4 = 0) ∧
    ((0x10 : BitVec 8).toNat % 4 = 0 ∧ 0x10 ≤ (0x10 : BitVec 8).toNat ∧ (0x3C : BitVec 8).toNat < 0x40) ∧
    ((0x60 : BitVec 8).toNat % 4 = 0 ∧ 0x60 ≤ (0x60 : BitVec 8).toNat ∧ 0x60 ≤ (0xFC : BitVec 8).toNat) ∧
    lab.status.busy = false ∧ labBusy.status.busy = true ∧ BitVec.ofNat 8 (0x40 + 4 * (0 : XReg).val) = 0x40 ∧
    BitVec.ofNat 8 (0x40 + 4 * (7 : XReg).val) = 0x5C := by decide +kernel

theorem test_witness_HostReadTable :
    (0x5C : BitVec 8).toNat % 4 = 0 ∧ (0x5C : BitVec 8).toNat = 0x40 + 4 * (7 : XReg).val ∧
    labBusy.status.busy = true ∧ (0x5C : BitVec 8) ≠ 0x00 ∧ (0x5C : BitVec 8) ≠ 0x04 ∧ lab.status.busy = false := by
  decide +kernel

theorem test_witness_MmioRefusesOtherWidths : AccessWidth.byte ≠ .word ∧ (0x06 : BitVec 8).toNat % 4 ≠ 0 := by decide

/-- The last byte of memory, a raced byte at the end of the destination, and the first address that does not exist. -/
theorem test_witness_HostMemoryAccess :
    ((0xFFFF : Word).toNat < lab.memBytes ∧ lab.races (0xFFFF : Word).toNat = false) ∧
    ((0xFFFF : Word).toNat < labBusy.memBytes ∧ labBusy.races (0xFFFF : Word).toNat = true) ∧
    lab.memBytes ≤ (0x10000 : Word).toNat := by decide +kernel

theorem test_witness_ResetValues :
    (∃ t, hostReset true labBusy = .next t ∧ (t.pending == none) = true) ∧ lab.pending = none :=
  ⟨ends_next (by decide +kernel), by decide +kernel⟩

/-- An illegal word, a conversion, a FREE and an ALLOC cut short by reset. -/
theorem test_witness_ResetAbandonsThePendingCommand :
    ((lab.accept 0x00000000).pending = some 0x00000000 ∧ decode 0x00000000 = .illegal .reservedOpcode) ∧
    (labBusy.pending = some 0x0C14C000 ∧ decode 0x0C14C000 = .legal (.cvtH2fBuf 1 2 3) ∧
      ∃ t, hostReset true labBusy = .next t ∧ (t.pending == none) = true) ∧
    (decode 0x64500000 = .legal (.free 5) ∧
      ∃ t, hostReset true (labFree.accept 0x64500000) = .next t ∧ (t.live == [⟨0x3000, 4⟩]) = true) ∧
    (decode 0x6294C000 = .legal (.alloc 5 1 2 3 .half) ∧
      ∃ t, hostReset true ((labAlloc 2 2 1).accept 0x6294C000) = .next t ∧ (t.live == [⟨0x2000, 8⟩]) = true) :=
  ⟨by decide +kernel, ⟨by decide +kernel, by decide +kernel, ends_next (by decide +kernel)⟩,
    ⟨by decide +kernel, ends_next (by decide +kernel)⟩, ⟨by decide +kernel, ends_next (by decide +kernel)⟩⟩

end Sys2Proof.Tests
end

section
/-! The family of 10_state.md: what each move of an agent does to STATUS and PENDING (R15 to R18, R34), and which
registers each command writes (R12, R14). -/
namespace Sys2Proof.Machine

/-! ## Whose move it is -/

/-- Where the CORE moves next, a step is its move. -/
theorem CoreMoves.step_eq {s s₀ : State} (h : CoreMoves s s₀) : step s = coreStep s₀ := by
  rcases h with ⟨hs, rfl⟩ | ⟨rest, hs, rfl⟩
  · exact step_nil hs
  · exact step_cons hs

/-- Taking the CORE's move off the schedule leaves STATUS and PENDING. -/
theorem CoreMoves.kept {s s₀ : State} (h : CoreMoves s s₀) : s₀.status = s.status ∧ s₀.pending = s.pending := by
  rcases h with ⟨_, rfl⟩ | ⟨_, _, rfl⟩ <;> exact ⟨rfl, rfl⟩

/-- Where the CORE moves next with a command pending, the command completes with a code of R132 (R126, R130). -/
theorem CoreMoves.completes {s s₀ t : State} {w : Word} (hm : CoreMoves s s₀) (hp : s.pending = some w)
    (h : step s = .next t) : ∃ c, reportedCode c.bits = true ∧ t.status = s.status.complete c ∧ t.pending = none := by
  obtain ⟨hst, hpe⟩ := hm.kept
  rw [hm.step_eq] at h
  rcases coreStep_finish h with ⟨_, hnone⟩ | ⟨_, u, c, rfl, k, hc⟩
  · rw [hpe, hp] at hnone
    cases hnone
  · exact ⟨c, hc, by rw [State.finish_status, k.status, hst], rfl⟩

/-! ## The host's MMIO writes -/

/-- An MMIO write that answers is an aligned 32-bit one (R127), with the effect of its row (R124). -/
theorem hostMmioWrite_next {off : BitVec 8} {width : AccessWidth} {v : Word} {s t : State}
    (h : hostMmioWrite off width v s = .next t) :
    width = .word ∧ off.toNat % 4 = 0 ∧ t = s.mmioWrite off.toNat v := by
  unfold hostMmioWrite at h
  cases hl : mmioLegal off width with
  | false => simp [hl] at h
  | true =>
    obtain ⟨hw, ha⟩ : width = .word ∧ off.toNat % 4 = 0 := by simpa [mmioLegal] using hl
    exact ⟨hw, ha, by simpa [hl] using h.symm⟩

/-- An aligned 32-bit MMIO write takes effect (R124). -/
theorem hostMmioWrite_word {off : BitVec 8} (v : Word) (s : State) (h : off.toNat % 4 = 0) :
    hostMmioWrite off .word v s = .next (s.mmioWrite off.toNat v) := by
  simp [hostMmioWrite, mmioLegal, h]

/-- A host write of STATUS writes its W1C bits (R15, R124). -/
theorem hostMmioWrite_status (v : Word) (s : State) :
    hostMmioWrite 0x04 .word v s = .next { s with status := s.status.hostWrite v } := hostMmioWrite_word v s rfl

/-- The guarded offsets as the map of R33 gives them: CMD, CONFIG and the eight X registers. -/
theorem guardedOffset_iff (off : BitVec 8) : guardedOffset off.toNat ↔
    off = 0x08 ∨ off = 0x0C ∨ (0x40 ≤ off.toNat ∧ off.toNat < 0x60) := by
  have h8 : off = 0x08 ↔ off.toNat = 8 := BitVec.toNat_inj.symm
  have hC : off = 0x0C ↔ off.toNat = 12 := BitVec.toNat_inj.symm
  rw [h8, hC, guardedOffset]
  omega

/-- While BUSY = 1 a guarded write is dropped and sets CMDOVR (R18). -/
theorem State.mmioWrite_dropped {s : State} {off : Nat} (v : Word) (hg : guardedOffset off)
    (hb : s.status.busy = true) : s.mmioWrite off v = s.overrun := by
  have busy_ne : s.status.busy ≠ false := by simp [hb]
  rcases s.mmioWrite_cases off v with ⟨_, hn, _⟩ | ⟨h4, _⟩ | ⟨_, _, e⟩ | ⟨_, hn, _⟩ | ⟨_, hn, _⟩ | ⟨hn, _⟩
  · exact absurd hg hn
  · unfold guardedOffset at hg
    omega
  · exact e
  · exact absurd hn busy_ne
  · exact absurd hn busy_ne
  · exact absurd hn busy_ne

/-! ## STATUS and PENDING -/

/-- Every flag of STATUS and LASTCODE are 0 after reset (R142). -/
theorem hostReset_status {took : Bool} {s t : State} (h : hostReset took s = .next t) :
    t.status = ⟨false, false, false, 0⟩ ∧ t.pending = none := by
  rw [hostReset_registers h]
  exact ⟨rfl, rfl⟩

/-- What a move may do to STATUS and PENDING, from `st` and `p` to `st'` and `p'`: the moves as a transition system over
the two alone. -/
inductive StatusMove (st : Status) (p : Option Word) (st' : Status) (p' : Option Word) : Event → Prop
  /-- Neither is written. -/
  | kept (e : Event) (hst : st' = st) (hp : p' = p) : StatusMove st p st' p' e
  /-- A pending command completes (R126, R130). -/
  | completed (c : ResultCode) (hc : reportedCode c.bits = true) (hpend : p.isSome = true)
      (hst : st' = st.complete c) (hp : p' = none) : StatusMove st p st' p' .core
  /-- The host writes STATUS (R124). -/
  | cleared (v : Word) (hst : st' = st.hostWrite v) (hp : p' = p) : StatusMove st p st' p' (.mmioWrite 0x04 .word v)
  /-- A guarded write is dropped (R18). -/
  | dropped (off : BitVec 8) (v : Word) (hoff : guardedOffset off.toNat) (hbusy : st.busy = true)
      (hst : st' = st.overrun) (hp : p' = p) : StatusMove st p st' p' (.mmioWrite off .word v)
  /-- A command word is accepted (R125). -/
  | accepted (v : Word) (hidle : st.busy = false) (hst : st' = st.accept) (hp : p' = some v) :
      StatusMove st p st' p' (.mmioWrite 0x0C .word v)
  /-- Reset (R142). -/
  | reset (took : Bool) (hst : st' = ⟨false, false, false, 0⟩) (hp : p' = none) : StatusMove st p st' p' (.reset took)

/-- The effect of an MMIO write on STATUS and PENDING, row by row of R124. -/
theorem mmioWrite_statusMove (off : BitVec 8) (v : Word) (s : State) :
    StatusMove s.status s.pending (s.mmioWrite off.toNat v).status (s.mmioWrite off.toNat v).pending
      (.mmioWrite off .word v) := by
  rcases s.mmioWrite_cases off.toNat v with
    ⟨e, _, _⟩ | ⟨hoff, e⟩ | ⟨hg, hb, e⟩ | ⟨_, _, e⟩ | ⟨hoff, hb, e⟩ | ⟨_, i, _, _, e⟩ <;> rw [e]
  · exact .kept _ rfl rfl
  · obtain rfl : off = 0x04 := BitVec.eq_of_toNat_eq hoff
    exact .cleared v rfl rfl
  · exact .dropped off v hg hb rfl rfl
  · exact .kept _ rfl rfl
  · obtain rfl : off = 0x0C := BitVec.eq_of_toNat_eq hoff
    exact .accepted v hb rfl rfl
  · exact .kept _ rfl rfl

/-- Every move does to STATUS and PENDING what `StatusMove` says. -/
theorem act_statusMove {e : Event} {s t : State} (h : act e s = .next t) :
    StatusMove s.status s.pending t.status t.pending e := by
  cases e with
  | core =>
    rcases coreStep_finish h with ⟨rfl, _⟩ | ⟨hp, u, c, rfl, k, hc⟩
    · exact .kept _ rfl rfl
    · exact .completed c hc hp (congrArg (·.complete c) k.status) rfl
  | mmioRead off width =>
    obtain ⟨_, _, rfl⟩ := hostMmioRead_next h
    exact .kept _ rfl rfl
  | mmioWrite off width v =>
    obtain ⟨rfl, _, rfl⟩ := hostMmioWrite_next h
    exact mmioWrite_statusMove off v s
  | memRead addr =>
    obtain ⟨_, ⟨_, rfl⟩ | ⟨_, rfl⟩⟩ := hostMemRead_next h <;> exact .kept _ rfl rfl
  | memWrite addr b =>
    obtain ⟨_, ⟨_, rfl⟩ | ⟨_, rfl⟩⟩ := hostMemWrite_next h <;> exact .kept _ rfl rfl
  | reserve r => cases h; exact .kept _ rfl rfl
  | unreserve r => cases h; exact .kept _ rfl rfl
  | answer a => cases h; exact .kept _ rfl rfl
  | release addr =>
    obtain ⟨_, rfl⟩ := hostRelease_next h
    exact .kept _ rfl rfl
  | reset took => exact .reset took (hostReset_status h).1 (hostReset_status h).2

/-- A step does to STATUS and PENDING what `StatusMove` says of the move it takes: the head of the schedule, or the CORE's
where nothing is scheduled. -/
theorem step_statusMove {s t : State} (h : step s = .next t) :
    ∃ e, (e ≠ .core → ∃ rest, s.schedule = e :: rest) ∧ StatusMove s.status s.pending t.status t.pending e := by
  rcases step_cases s with ⟨hstep, _⟩ | ⟨e, rest, hs, hstep⟩
  · exact ⟨.core, fun hne => absurd rfl hne, act_statusMove (e := .core) (hstep.symm.trans h)⟩
  · exact ⟨e, fun _ => ⟨rest, hs⟩, act_statusMove (s := { s with schedule := rest }) (hstep.symm.trans h)⟩

section
variable {st st' : Status} {p p' : Option Word} {e : Event} (h : StatusMove st p st' p' e)
include h

/-- A move keeps BUSY in agreement with PENDING (R34). -/
theorem StatusMove.keeps_busy (hi : st.busy = p.isSome) : st'.busy = p'.isSome := by
  cases h with
  | kept _ hst hp => rw [hst, hp, hi]
  | completed c _ _ hst hp => rw [hst, hp]; rfl
  | cleared v hst hp => rw [hst, hp, Status.hostWrite_busy, hi]
  | dropped off v _ _ hst hp => rw [hst, hp, Status.overrun_busy, hi]
  | accepted v _ hst hp => rw [hst, hp]; rfl
  | reset took hst hp => rw [hst, hp]; rfl

/-- Only a host write of 1 to bit 1 of STATUS, and reset, clear ERR (R17). -/
theorem StatusMove.clears_err (h1 : st.err = true) (h0 : st'.err = false) :
    (∃ v, e = .mmioWrite 0x04 .word v ∧ v.getLsbD 1 = true) ∨ ∃ took, e = .reset took := by
  cases h with
  | kept _ hst _ => simp [hst, h1] at h0
  | completed c _ _ hst _ => simp [hst, h1] at h0
  | cleared v hst _ => exact .inl ⟨v, rfl, by simpa [hst, h1] using h0⟩
  | dropped off v _ _ hst _ => simp [hst, h1] at h0
  | accepted v _ hst _ => simp [hst, h1] at h0
  | reset took _ _ => exact .inr ⟨took, rfl⟩

/-- Only a guarded write that is dropped while BUSY = 1 sets CMDOVR (R18). -/
theorem StatusMove.sets_cmdovr (h0 : st.cmdovr = false) (h1 : st'.cmdovr = true) :
    st.busy = true ∧ ∃ off v, e = .mmioWrite off .word v ∧ guardedOffset off.toNat := by
  cases h with
  | kept _ hst _ => simp [hst, h0] at h1
  | completed c _ _ hst _ => simp [hst, h0] at h1
  | cleared v hst _ => simp [hst, h0] at h1
  | dropped off v hoff hbusy _ _ => exact ⟨hbusy, off, v, rfl, hoff⟩
  | accepted v _ hst _ => simp [hst, h0] at h1
  | reset took hst _ => simp [hst] at h1

/-- Only a host write of 1 to bit 2 of STATUS, and reset, clear CMDOVR (R18). -/
theorem StatusMove.clears_cmdovr (h1 : st.cmdovr = true) (h0 : st'.cmdovr = false) :
    (∃ v, e = .mmioWrite 0x04 .word v ∧ v.getLsbD 2 = true) ∨ ∃ took, e = .reset took := by
  cases h with
  | kept _ hst _ => simp [hst, h1] at h0
  | completed c _ _ hst _ => simp [hst, h1] at h0
  | cleared v hst _ => exact .inl ⟨v, rfl, by simpa [hst, h1] using h0⟩
  | dropped off v _ _ hst _ => simp [hst] at h0
  | accepted v _ hst _ => simp [hst, h1] at h0
  | reset took _ _ => exact .inr ⟨took, rfl⟩

end

/-- ERR after a command completes (R17): 1 for a code that is not OK, as it was for OK. -/
theorem Status.complete_err_sticky (st : Status) (c : ResultCode) :
    ((st.complete c).lastcode ≠ 0 → (st.complete c).err = true) ∧
      ((st.complete c).lastcode = 0 → (st.complete c).err = st.err) := by
  simp only [Status.complete_lastcode, Status.complete_err, ne_eq, ResultCode.bits_eq_zero]
  exact ⟨fun h => by simp [h], fun h => by simp [h]⟩

/-- A step that takes a host write of STATUS or a reset finds it at the head of the schedule. -/
theorem scheduled_statusWrite_or_reset {s : State} {e : Event} {bit : Nat}
    (hsch : e ≠ .core → ∃ rest, s.schedule = e :: rest)
    (h : (∃ v, e = .mmioWrite 0x04 .word v ∧ v.getLsbD bit = true) ∨ ∃ took, e = .reset took) :
    (∃ v rest, s.schedule = .mmioWrite 0x04 .word v :: rest ∧ v.getLsbD bit = true) ∨
      ∃ took rest, s.schedule = .reset took :: rest := by
  rcases h with ⟨v, rfl, hv⟩ | ⟨took, rfl⟩
  · obtain ⟨rest, hs⟩ := hsch (by simp)
    exact .inl ⟨v, rest, hs, hv⟩
  · obtain ⟨rest, hs⟩ := hsch (by simp)
    exact .inr ⟨took, rest, hs⟩

/-! ## The registers a command writes -/

/-- The X register a command writes, its rd (R65). -/
def destinationReg : Instr → Option XReg
  | .cvtH2f rd _ | .cvtF2h rd _ | .bswap16 rd _ | .alloc rd _ _ _ _ | .csrr rd _ => some rd
  | .cvtH2fBuf _ _ _ | .cvtF2hBuf _ _ _ | .bswap16Buf _ _ | .payloadIn _ _ | .hdrParse _ _ | .free _ => none

/-- The HDR_* registers are the same (R23 to R29). -/
abbrev SameHeader (s t : State) : Prop :=
  t.hdrWidth = s.hdrWidth ∧ t.hdrHeight = s.hdrHeight ∧ t.hdrChannels = s.hdrChannels ∧ t.hdrInfo = s.hdrInfo ∧
    t.hdrLen = s.hdrLen ∧ t.hdrPbase = s.hdrPbase ∧ t.hdrPavail = s.hdrPavail

theorem SameHeader.refl (s : State) : SameHeader s s := ⟨rfl, rfl, rfl, rfl, rfl, rfl, rfl⟩

/-- From s to t, the registers and the live set changed only where the command may write them. -/
structure WritesOnly (i : Instr) (s t : State) : Prop where
  x      : ∀ k, destinationReg i ≠ some k → t.x[k] = s.x[k]
  header : (∀ base len, i ≠ .hdrParse base len) → SameHeader s t
  alloc  : (∀ rd rw rh rc size, i ≠ .alloc rd rw rh rc size) →
    t.allocBase = s.allocBase ∧ t.allocCount = s.allocCount ∧ t.allocBytes = s.allocBytes ∧ t.answers = s.answers
  live   : (∀ rd rw rh rc size, i ≠ .alloc rd rw rh rc size) → (∀ base, i ≠ .free base) → t.live = s.live

theorem WritesOnly.refl (i : Instr) (s : State) : WritesOnly i s s where
  x _ _ := rfl
  header _ := .refl s
  alloc _ := ⟨rfl, rfl, rfl, rfl⟩
  live _ _ := rfl

theorem WritesOnly.setX {i : Instr} {rd : XReg} (h : destinationReg i = some rd) (s : State) (v : Word) :
    WritesOnly i s (s.setX rd v) where
  x k hk := s.getX_setX_other rd k v fun e => hk (e ▸ h)
  header _ := .refl s
  alloc _ := ⟨rfl, rfl, rfl, rfl⟩
  live _ _ := rfl

theorem WritesOnly.sameButMem {i : Instr} {s t u : State} (h : WritesOnly i s t) (k : SameButMem t u) :
    WritesOnly i s u := by
  rw [SameButMem] at k
  rw [k]
  exact ⟨h.x, h.header, h.alloc, h.live⟩

theorem WritesOnly.finish {i : Instr} {s t : State} (h : WritesOnly i s t) (c : ResultCode) :
    WritesOnly i s (t.finish c) := ⟨h.x, h.header, h.alloc, h.live⟩

/-- HDR.PARSE may write HDR_*. -/
theorem WritesOnly.setHdr (base len : XReg) (s : State) {width height channels length pbase pavail : Word}
    {info : HdrInfo} :
    WritesOnly (.hdrParse base len) s { s with
      hdrWidth := width, hdrHeight := height, hdrChannels := channels, hdrInfo := info
      hdrLen := length, hdrPbase := pbase, hdrPavail := pavail } where
  x _ _ := rfl
  header h := absurd rfl (h base len)
  alloc _ := ⟨rfl, rfl, rfl, rfl⟩
  live _ _ := rfl

/-- ALLOC may write its rd, ALLOC_*, the answers and the live set. -/
theorem WritesOnly.ofAlloc {rd rw rh rc : XReg} {size : SampleSize} {s t : State}
    (hx : ∀ k, k ≠ rd → t.x[k] = s.x[k]) (hh : SameHeader s t) :
    WritesOnly (.alloc rd rw rh rc size) s t where
  x k hk := hx k fun e => hk (e ▸ rfl)
  header _ := hh
  alloc h := absurd rfl (h rd rw rh rc size)
  live h := absurd rfl (h rd rw rh rc size)

/-- FREE may write the live set. -/
theorem WritesOnly.setLive (base : XReg) (s : State) (l : List Region) :
    WritesOnly (.free base) s { s with live := l } where
  x _ _ := rfl
  header _ := .refl s
  alloc _ := ⟨rfl, rfl, rfl, rfl⟩
  live _ h := absurd rfl (h base)

/-- CSRR (R122, R68): the register's value for a legal number, ILLEGAL_COMMAND for 14 and 15. -/
theorem execCsrr_eq (rd : XReg) (csr : Fin 16) (s : State) : execCsrr rd csr s =
    .next (if csrLegal csr then (s.setX rd (s.csr csr.val)).finish .ok else s.finish .illegalCommand) := by
  unfold execCsrr done raise
  split <;> rfl

/-- Every command that answers a next state keeps to the registers it may write. -/
theorem exec_writesOnly {i : Instr} {s t : State} (h : exec i s = .next t) : WritesOnly i s t := by
  cases i with
  | cvtH2f rd rs1 =>
    rw [← Host.Outcome.next.inj h]
    exact (WritesOnly.setX rfl s _).finish .ok
  | cvtF2h rd rs1 =>
    rw [← Host.Outcome.next.inj h]
    exact (WritesOnly.setX rfl s _).finish .ok
  | bswap16 rd rs1 =>
    rw [← Host.Outcome.next.inj h]
    exact (WritesOnly.setX rfl s _).finish .ok
  | csrr rd csr =>
    rw [← Host.Outcome.next.inj ((execCsrr_eq rd csr s).symm.trans h)]
    split
    · exact (WritesOnly.setX rfl s _).finish .ok
    · exact (WritesOnly.refl _ s).finish .illegalCommand
  | cvtH2fBuf dst src count =>
    rw [← Host.Outcome.next.inj ((execCvtH2fBuf_eq dst src count s).symm.trans h)]
    split
    · exact ((WritesOnly.refl _ s).sameButMem (s.afterH2fBuf_same _ _ _)).finish .ok
    · exact (WritesOnly.refl _ s).finish .invalidArgument
  | cvtF2hBuf dst src count =>
    rw [← Host.Outcome.next.inj ((execCvtF2hBuf_eq dst src count s).symm.trans h)]
    split
    · exact ((WritesOnly.refl _ s).sameButMem (s.afterF2hBuf_same _ _ _)).finish .ok
    · exact (WritesOnly.refl _ s).finish .invalidArgument
  | bswap16Buf addr count =>
    rw [← Host.Outcome.next.inj ((execBswap16Buf_eq addr count s).symm.trans h)]
    split
    · exact ((WritesOnly.refl _ s).sameButMem (s.afterBswapBuf_same _ _)).finish .ok
    · exact (WritesOnly.refl _ s).finish .invalidArgument
  | payloadIn dst count =>
    rcases execPayloadIn_cases dst count s with ⟨c, _, e⟩ | ⟨_, _, e⟩ | ⟨_, _, e⟩ <;> cases e.symm.trans h
    · exact (WritesOnly.refl _ s).finish c
    · exact ((WritesOnly.refl _ s).sameButMem (s.afterPayloadIn_same _ _)).finish .ok
  | hdrParse base len =>
    rcases execHdrParse_cases base len s with ⟨_, e⟩ | ⟨_, _, _, e⟩ | ⟨_, _, _, _, e⟩ <;> cases e.symm.trans h
    · exact (WritesOnly.setHdr base len s).finish .invalidArgument
    · exact ((WritesOnly.setHdr base len s).sameButMem (.settle s.invalidate _)).finish .formatError
    · exact ((WritesOnly.setHdr base len s).sameButMem (.settle (s.setHeader _ _ _ _) _)).finish .ok
  | alloc rd width height channels size =>
    rcases execAlloc_cases rd width height channels size s with
      ⟨c, _, e⟩ | ⟨_, _, _, _, e⟩ | ⟨_, _, b, _, _, _, e⟩ | ⟨_, _, _, _, _, _, _, e⟩ <;> cases e.symm.trans h
    · exact (WritesOnly.refl _ s).finish c
    · exact .ofAlloc (fun _ _ => rfl) (.refl s)
    · exact .ofAlloc (fun k hk => s.getX_setX_other rd k b hk) (.refl s)
  | free base =>
    rcases execFree_cases base s with ⟨_, e⟩ | ⟨_, _, e⟩ | ⟨_, _, e⟩ <;> cases e.symm.trans h
    · exact (WritesOnly.refl _ s).finish .invalidArgument
    · exact (WritesOnly.setLive base s _).finish .ok

/-! ## The obligations -/

/-- Settles O46: the agreement is a property of STATUS and PENDING alone, and every `StatusMove` keeps it. -/
theorem stepKeepsBusyWithPending : Obligations.StepKeepsBusyWithPending := by
  intro s t hi h
  obtain ⟨_, _, hm⟩ := step_statusMove h
  exact hm.keeps_busy hi

/-- Settles O53, by the end of a command, the host's write of STATUS, reset, and the moves that clear ERR. -/
theorem errIsSticky : Obligations.ErrIsSticky := by
  refine ⟨fun s s₀ t w hm hp h => ?_, fun s v hv => ?_, fun s t took h => ?_, fun s t h h1 h0 => ?_⟩
  · obtain ⟨c, _, hst, _⟩ := hm.completes hp h
    rw [hst]
    exact s.status.complete_err_sticky c
  · exact ⟨_, hostMmioWrite_status v s, by simp [hv]⟩
  · rw [(hostReset_status h).1]
  · obtain ⟨_, hsch, hm⟩ := step_statusMove h
    exact scheduled_statusWrite_or_reset hsch (hm.clears_err h1 h0)

/-- Settles O54, by the dropped write, the host's write of STATUS, reset, and the moves that set or clear CMDOVR. -/
theorem cmdovrIsSticky : Obligations.CmdovrIsSticky := by
  refine ⟨fun s off v hb ha hoff => ?_, fun s t h h0 h1 => ?_, fun s v hv => ?_, fun s t took h => ?_,
    fun s t h h1 h0 => ?_⟩
  · rw [hostMmioWrite_word v s ha, State.mmioWrite_dropped v ((guardedOffset_iff off).mpr hoff) hb]
    rfl
  · obtain ⟨_, hsch, hm⟩ := step_statusMove h
    obtain ⟨hb, off, v, rfl, hg⟩ := hm.sets_cmdovr h0 h1
    obtain ⟨rest, hs⟩ := hsch (by simp)
    exact ⟨hb, off, .word, v, rest, hs, (guardedOffset_iff off).mp hg⟩
  · exact ⟨_, hostMmioWrite_status v s, by simp [hv]⟩
  · rw [(hostReset_status h).1]
  · obtain ⟨_, hsch, hm⟩ := step_statusMove h
    exact scheduled_statusWrite_or_reset hsch (hm.clears_cmdovr h1 h0)

/-- Settles O43, by the fields every command keeps until it completes and the frame of each command. -/
theorem commandsWriteOnlyTheirRegisters : Obligations.CommandsWriteOnlyTheirRegisters := by
  intro i s t h
  have w := exec_writesOnly h
  refine ⟨?_, fun k hk => w.x k ?_, w.header, fun ha => ?_⟩
  · obtain ⟨u, c, rfl, k, _⟩ := exec_finish h
    exact ⟨k.params, k.hostBe, congrArg (·.cmdovr) k.status, k.hostRegions, k.schedule, k.hostRx, k.reads⟩
  · cases i <;> simp_all [destinationReg, eq_comm]
  · obtain ⟨hb, hc, hy, hans⟩ := w.alloc ha
    exact ⟨hb, hc, hy, hans, w.live ha⟩

end Sys2Proof.Machine
end

section
/-! The family of 20_memory.md: what commands and the host's accesses read and write of buffer memory (R36 to R45),
the allocator's live set (R50 to R52), and races (R56). -/
namespace Sys2Proof.Machine

/-! ## Regions -/

theorem inRegions_append (rs qs : List Region) (c : Nat) :
    inRegions (rs ++ qs) c = (inRegions rs c || inRegions qs c) := List.any_append

theorem inRegions_singleton (a n c : Nat) : inRegions [⟨a, n⟩] c = true ↔ Within a n c := by
  simp [inRegions, Region.contains, Within]

/-- The host has touched no byte of a quiet region. -/
theorem State.Quiet.untouched {s : State} {a n c : Nat} (h : s.Quiet [⟨a, n⟩]) (hc : Within a n c) :
    ∀ u ∈ s.touched, u.addr ≠ c := by
  rintro u hu rfl
  have := (inRegions_singleton a n u.addr).mpr hc
  rw [h u hu] at this
  cases this

/-! ## Settling -/

/-- A byte that the host has not touched is not settled (R56). -/
theorem State.byteAt_settle_untouched {s : State} {c : Nat} (h : ∀ u ∈ s.touched, u.addr ≠ c) (rs : List Region) :
    (s.settle rs).byteAt c = s.byteAt c := by
  rw [State.byteAt_settle, if_neg]
  rintro ⟨_, u, hu, e⟩
  exact h u hu e

/-- A byte outside the regions is not settled (R56). -/
theorem State.byteAt_settle_outside {s : State} {rs : List Region} {c : Nat} (h : inRegions rs c = false) :
    (s.settle rs).byteAt c = s.byteAt c := by
  rw [State.byteAt_settle, if_neg]
  simp [h]

/-- With no region to settle, nothing is settled. -/
theorem State.settle_nil (s : State) : s.settle [] = s := s.settle_quiet [] fun _ _ => rfl

/-- A free value where the host wrote, memory's byte elsewhere: the two clauses determine what a command reads
(R56, U4). -/
theorem State.eq_coreByte {s : State} {read : Nat → Byte}
    (hfree : ∀ c, (∃ u ∈ s.touched, u.wrote = true ∧ u.addr = c) → read c = Config.coreRaceByte s.tick c)
    (hkept : ∀ c, (∀ u ∈ s.touched, u.addr = c → u.wrote = false) → read c = s.byteAt c) : read = s.coreByte := by
  funext c
  unfold State.coreByte
  split
  · rename_i h
    exact hfree c (by simpa [State.hostWrote] using h)
  · rename_i h
    refine hkept c fun u hu e => ?_
    by_contra hw
    exact h (by simpa [State.hostWrote] using ⟨u, hu, by simpa using hw, e⟩)

/-! ## Element loops (D18) -/

/-- Element i of a loop writes memory only, and of it only the w bytes from d + w·i on. -/
structure WritesElement (d w : Nat) (body : Nat → State → State) : Prop where
  same      : ∀ i t, SameButMem t (body i t)
  frame     : ∀ i t c, c < d + w * i ∨ d + w * i + w ≤ c → (body i t).byteAt c = t.byteAt c
  canonical : ∀ i t, MemOk t → d + w * i + w ≤ t.memBytes → MemOk (body i t)

theorem WritesElement.h2fSample (d a : Nat) : WritesElement d 4 (h2fSample d a) where
  same i t := .h2fSample d a i t
  frame i t := (h2fSample_stores d a i t).2
  canonical _ _ ht hb := ht.memWrite _ _ _ hb

theorem WritesElement.f2hSample (d a : Nat) : WritesElement d 2 (f2hSample d a) where
  same i t := .f2hSample d a i t
  frame i t := (f2hSample_stores d a i t).2
  canonical _ _ ht hb := ht.memWrite _ _ _ hb

theorem WritesElement.payloadSample (swap : Bool) (d a : Nat) : WritesElement d 2 (payloadSample swap d a) where
  same i t := .payloadSample swap d a i t
  frame i t c hc := by rw [Machine.payloadSample, byteAt_copyPair, if_neg (by omega), if_neg (by omega)]
  canonical _ _ ht hb := ht.copyPair _ _ _ hb

theorem WritesElement.bswapSample (a : Nat) : WritesElement a 2 (bswapSample a) := .payloadSample true a a

/-- The elements before the n-th end where it begins. -/
theorem element_end_le {i n : Nat} (d w : Nat) (h : i < n) : d + w * i + w ≤ d + w * n := by
  have := Nat.mul_le_mul_left w (Nat.succ_le_of_lt h)
  rw [Nat.mul_succ] at this
  omega

section
variable {d w : Nat} {body : Nat → State → State} (h : WritesElement d w body)
include h

theorem WritesElement.loop_same (n : Nat) (s : State) : SameButMem s (ascending body n s) := .ascending h.same n s

/-- A loop leaves every byte outside its elements. -/
theorem WritesElement.loop_frame (n : Nat) (s : State) {c : Nat} (hc : c < d ∨ d + w * n ≤ c) :
    (ascending body n s).byteAt c = s.byteAt c := by
  refine ascending_induct (fun _ t => t.byteAt c = s.byteAt c) rfl fun i t hi ht => ?_
  have := element_end_le d w hi
  exact (h.frame i t c (by omega)).trans ht

theorem WritesElement.loop_canonical {n : Nat} {s : State} (hs : MemOk s) (hd : d + w * n ≤ s.memBytes) :
    MemOk (ascending body n s) :=
  hs.ascending n h.same fun i t hi hb ht => h.canonical i t ht (by have := element_end_le d w hi; omega)

/-- What a loop leaves at its elements, `get` reading one: element i finds memory from its own place on as it was before
the loop, and what it stores there stays. -/
theorem WritesElement.loop_get {V : Type} {get : (Nat → Byte) → Nat → V} {v : Nat → V} {n : Nat} {s : State}
    (hget : ∀ m m' a, (∀ k < w, m (a + k) = m' (a + k)) → get m a = get m' a)
    (hv : ∀ i t, SameButMem s t → (∀ c, c < d ∨ d + w * i ≤ c → t.byteAt c = s.byteAt c) → i < n →
      get (body i t).byteAt (d + w * i) = v i) :
    ∀ i < n, get (ascending body n s).byteAt (d + w * i) = v i := by
  induction n with
  | zero => exact fun i hi => absurd hi (Nat.not_lt_zero i)
  | succ n ih =>
    intro i hi
    by_cases e : i = n
    · subst e
      exact hv i _ (h.loop_same i s) (fun c hc => h.loop_frame i s hc) hi
    · have hin : i < n := by omega
      rw [← ih (fun j t ht hf hj => hv j t ht hf (Nat.lt_succ_of_lt hj)) i hin]
      refine hget _ _ _ fun k hk => h.frame n _ _ (.inl ?_)
      have := element_end_le d w hin
      omega

end

/-! ## The bytes a command accesses (R39) -/

theorem h2fBufOk_iff_checked (dst src count : XReg) (s : State) :
    h2fBufOk dst src count s = true ↔ AccessChecked (.cvtH2fBuf dst src count) s := by
  rw [h2fBufOk_iff, and_assoc]; rfl

theorem f2hBufOk_iff_checked (dst src count : XReg) (s : State) :
    f2hBufOk dst src count s = true ↔ AccessChecked (.cvtF2hBuf dst src count) s := by
  rw [f2hBufOk_iff, and_assoc]; rfl

theorem payloadInCheck_iff_checked (dst count : XReg) (s : State) :
    payloadInCheck dst count s = none ↔ AccessChecked (.payloadIn dst count) s := by
  rw [payloadInCheck_none, and_assoc]; rfl

/-- The footprint of a buffer command whose checks pass; HDR.PARSE's is the bytes of its image that it reads. -/
def checkedFootprint : Instr → State → Footprint
  | .cvtH2fBuf dst src count, s => h2fBufFootprint dst src count s
  | .cvtF2hBuf dst src count, s => f2hBufFootprint dst src count s
  | .bswap16Buf addr count, s => bswapBufFootprint addr count s
  | .payloadIn dst count, s => payloadInFootprint dst count s
  | .hdrParse base len, s => hdrParseFootprint base len s
  | .cvtH2f _ _, _ | .cvtF2h _ _, _ | .bswap16 _ _, _ | .alloc _ _ _ _ _, _ | .free _, _ | .csrr _ _, _ => .empty

/-- A command accesses memory only where its checks pass (R129). -/
theorem footprint_of_checked {i : Instr} {s : State} (h : AccessChecked i s) :
    footprint i s = checkedFootprint i s := by
  cases i with
  | cvtH2fBuf dst src count => exact if_pos ((h2fBufOk_iff_checked _ _ _ _).mpr h)
  | cvtF2hBuf dst src count => exact if_pos ((f2hBufOk_iff_checked _ _ _ _).mpr h)
  | bswap16Buf addr count => exact if_pos ((bswapBufOk_iff _ _ _).mpr h)
  | payloadIn dst count => exact if_pos ((payloadInCheck_iff_checked _ _ _).mpr h)
  | hdrParse base len => exact if_pos ((hdrParseOk_iff _ _ _).mpr h)
  | _ => rfl

theorem footprint_of_not_checked {i : Instr} {s : State} (h : ¬ AccessChecked i s) : footprint i s = .empty := by
  cases i with
  | cvtH2fBuf dst src count => exact if_neg (mt (h2fBufOk_iff_checked _ _ _ _).mp h)
  | cvtF2hBuf dst src count => exact if_neg (mt (f2hBufOk_iff_checked _ _ _ _).mp h)
  | bswap16Buf addr count => exact if_neg (mt (bswapBufOk_iff _ _ _).mp h)
  | payloadIn dst count => exact if_neg (mt (payloadInCheck_iff_checked _ _ _).mp h)
  | hdrParse base len => exact if_neg (mt (hdrParseOk_iff _ _ _).mp h)
  | _ => rfl

/-- The bytes that a command whose checks pass reads and writes, by its operands; of its image, HDR.PARSE reads some. -/
theorem inRegions_checkedFootprint (i : Instr) (s : State) (c : Nat) :
    (inRegions (checkedFootprint i s).writes c = true ↔ DestinationByte i s c) ∧
    (inRegions (checkedFootprint i s).reads c = true → SourceByte i s c) ∧
    ((∀ base len, i ≠ .hdrParse base len) → SourceByte i s c → inRegions (checkedFootprint i s).reads c = true) := by
  cases i with
  | cvtH2fBuf _ _ _ | cvtF2hBuf _ _ _ | bswap16Buf _ _ | payloadIn _ _ =>
    exact ⟨inRegions_singleton _ _ c, (inRegions_singleton _ _ c).mp, fun _ => (inRegions_singleton _ _ c).mpr⟩
  | hdrParse base len =>
    refine ⟨by simp [checkedFootprint, hdrParseFootprint, inRegions, DestinationByte], fun hc => ?_,
      fun hne => absurd rfl (hne base len)⟩
    obtain ⟨hlo, hhi⟩ := (inRegions_singleton _ _ c).mp hc
    have hle := bytesRead_le (s.image (s.natX base) (s.natX len))
    rw [State.image_length] at hle
    exact ⟨hlo, by change c < s.natX base + s.natX len; omega⟩
  | _ => simp [checkedFootprint, Footprint.empty, inRegions, DestinationByte, SourceByte]

/-- The bytes of a command's footprint (R39, R129). -/
theorem footprint_bytes (i : Instr) (s : State) (c : Nat) :
    (inRegions (footprint i s).writes c = true ↔ AccessChecked i s ∧ DestinationByte i s c) ∧
    (inRegions (footprint i s).reads c = true → AccessChecked i s ∧ SourceByte i s c) ∧
    ((∀ base len, i ≠ .hdrParse base len) → AccessChecked i s → SourceByte i s c →
      inRegions (footprint i s).reads c = true) := by
  by_cases h : AccessChecked i s
  · obtain ⟨hw, hr, hs⟩ := inRegions_checkedFootprint i s c
    rw [footprint_of_checked h]
    exact ⟨hw.trans (and_iff_right h).symm, fun hc => ⟨h, hr hc⟩, fun hi _ => hs hi⟩
  · rw [footprint_of_not_checked h]
    exact ⟨⟨nofun, fun hc => absurd hc.1 h⟩, nofun, fun _ hc => absurd hc h⟩

/-- The regions a command may write, by its operands. -/
theorem footprint_writes (i : Instr) (s : State) : ∀ r ∈ (footprint i s).writes, r ∈ (checkedFootprint i s).writes := by
  by_cases h : AccessChecked i s
  · rw [footprint_of_checked h]
    exact fun _ => id
  · rw [footprint_of_not_checked h]
    nofun

/-! ## What a command does to memory -/

/-- u is the state a command leaves before its races are settled and it completes. -/
structure BeforeSettling (i : Instr) (s u : State) : Prop where
  kept      : Kept s u
  frame     : ∀ c, inRegions (footprint i s).writes c = false → u.byteAt c = s.byteAt c
  unwritten : (footprint i s).writes = [] → u.mem = s.mem
  canonical : MemOk s → MemOk u

theorem State.memBytes_congr {s t : State} (hp : t.params = s.params) : t.memBytes = s.memBytes := by
  simp only [State.memBytes, hp]

/-- A state with the memory and the parameters of a canonical one is canonical. -/
theorem MemOk.congr {s t : State} (hs : MemOk s) (hm : t.mem = s.mem) (hp : t.params = s.params) : MemOk t := by
  unfold MemOk
  rw [hm, State.memBytes_congr hp]
  exact hs

theorem State.byteAt_congr {s t : State} (hm : t.mem = s.mem) (c : Nat) : t.byteAt c = s.byteAt c := by
  simp only [State.byteAt, hm]

/-- A command that writes no memory. -/
theorem BeforeSettling.ofMem {i : Instr} {s u : State} (k : Kept s u) (hm : u.mem = s.mem) : BeforeSettling i s u where
  kept := k
  frame c _ := State.byteAt_congr hm c
  unwritten _ := hm
  canonical hs := hs.congr hm k.params

/-- A command that runs an element loop over its destination. -/
theorem BeforeSettling.ofLoop {i : Instr} {s : State} {d w n : Nat} {body : Nat → State → State}
    (hw : (footprint i s).writes = [⟨d, w * n⟩]) (hd : d + w * n ≤ s.memBytes) (h : WritesElement d w body) :
    BeforeSettling i s (ascending body n s) where
  kept := .ofSameButMem (h.loop_same n s)
  frame c hc := by
    rw [hw, ← Bool.not_eq_true, inRegions_singleton] at hc
    exact h.loop_frame n s (by simp only [Within] at hc; omega)
  unwritten he := by simp [hw] at he
  canonical hs := h.loop_canonical hs hd

/-- A command that completes without reaching memory. -/
theorem settled_of_no_footprint {i : Instr} {s u : State} (c : ResultCode) (hf : footprint i s = .empty) (k : Kept s u)
    (hm : u.mem = s.mem) :
    ∃ u' c', u.finish c = (u'.settle (footprint i s).all).finish c' ∧ BeforeSettling i s u' :=
  ⟨u, c, by rw [hf]; exact congrArg (·.finish c) (u.settle_nil).symm, .ofMem k hm⟩

/-- A buffer command whose checks pass. -/
theorem settled_of_loop {i : Instr} {s : State} {f : Footprint} {d w n : Nat} {body : Nat → State → State}
    (hf : footprint i s = f) (hw : f.writes = [⟨d, w * n⟩]) (hd : d + w * n ≤ s.memBytes) (h : WritesElement d w body) :
    ∃ u c, ((ascending body n s).settle f.all).finish .ok = (u.settle (footprint i s).all).finish c ∧
      BeforeSettling i s u :=
  ⟨_, .ok, by rw [hf], .ofLoop (by rw [hf, hw]) hd h⟩

/-- Every command that answers a next state settles the races of its footprint as it completes (R56), and has written
nothing but its destination before. -/
theorem exec_settled {i : Instr} {s t : State} (h : exec i s = .next t) :
    ∃ u c, t = (u.settle (footprint i s).all).finish c ∧ BeforeSettling i s u := by
  cases i with
  | cvtH2f _ _ | cvtF2h _ _ | bswap16 _ _ =>
    rw [← Host.Outcome.next.inj h]
    exact settled_of_no_footprint .ok rfl (.setX _ _ _) rfl
  | csrr rd csr =>
    rw [← Host.Outcome.next.inj ((execCsrr_eq rd csr s).symm.trans h)]
    split
    · exact settled_of_no_footprint .ok rfl (.setX _ _ _) rfl
    · exact settled_of_no_footprint .illegalCommand rfl (.refl s) rfl
  | cvtH2fBuf dst src count =>
    rw [← Host.Outcome.next.inj ((execCvtH2fBuf_eq dst src count s).symm.trans h)]
    split
    · rename_i hk
      obtain ⟨_, _, hd⟩ := (h2fBufOk_iff _ _ _ _).mp hk
      exact settled_of_loop (if_pos hk) rfl hd (.h2fSample _ _)
    · rename_i hk
      exact settled_of_no_footprint _ (if_neg hk) (.refl s) rfl
  | cvtF2hBuf dst src count =>
    rw [← Host.Outcome.next.inj ((execCvtF2hBuf_eq dst src count s).symm.trans h)]
    split
    · rename_i hk
      obtain ⟨_, _, hd⟩ := (f2hBufOk_iff _ _ _ _).mp hk
      exact settled_of_loop (if_pos hk) rfl hd (.f2hSample _ _)
    · rename_i hk
      exact settled_of_no_footprint _ (if_neg hk) (.refl s) rfl
  | bswap16Buf addr count =>
    rw [← Host.Outcome.next.inj ((execBswap16Buf_eq addr count s).symm.trans h)]
    split
    · rename_i hk
      obtain ⟨_, hd⟩ := (bswapBufOk_iff _ _ _).mp hk
      exact settled_of_loop (if_pos hk) rfl hd (.bswapSample _)
    · rename_i hk
      exact settled_of_no_footprint _ (if_neg hk) (.refl s) rfl
  | payloadIn dst count =>
    rcases execPayloadIn_cases dst count s with ⟨c, hk, e⟩ | ⟨hk, _, e⟩ | ⟨_, _, e⟩ <;> cases e.symm.trans h
    · exact settled_of_no_footprint c (if_neg (by simp [hk])) (.refl s) rfl
    · obtain ⟨_, ⟨_, hd⟩, _⟩ := (payloadInCheck_none _ _ _).mp hk
      exact settled_of_loop (if_pos hk) rfl hd (.payloadSample _ _ _)
  | hdrParse base len =>
    rcases execHdrParse_cases base len s with ⟨hk, e⟩ | ⟨hk, _, _, e⟩ | ⟨hk, hd, p, _, e⟩ <;> cases e.symm.trans h
    · exact settled_of_no_footprint _ (if_neg (by simp [hk])) (.invalidate s) rfl
    · exact ⟨_, _, by rw [show footprint (.hdrParse base len) s = _ from if_pos hk], .ofMem (.invalidate s) rfl⟩
    · exact ⟨_, _, by rw [show footprint (.hdrParse base len) s = _ from if_pos hk], .ofMem (.setHeader s _ _ _ _) rfl⟩
  | alloc rd width height channels size =>
    rcases execAlloc_cases rd width height channels size s with
      ⟨c, _, e⟩ | ⟨_, _, _, _, e⟩ | ⟨_, _, b, _, _, _, e⟩ | ⟨_, _, _, _, _, _, _, e⟩ <;> cases e.symm.trans h
    · exact settled_of_no_footprint c rfl (.refl s) rfl
    · exact settled_of_no_footprint _ rfl ⟨rfl, rfl, rfl, rfl, rfl, rfl, rfl, rfl, rfl, rfl⟩ rfl
    · exact settled_of_no_footprint _ rfl ⟨rfl, rfl, rfl, rfl, rfl, rfl, rfl, rfl, rfl, rfl⟩ rfl
  | free base =>
    rcases execFree_cases base s with ⟨_, e⟩ | ⟨_, _, e⟩ | ⟨_, _, e⟩ <;> cases e.symm.trans h
    · exact settled_of_no_footprint _ rfl (.refl s) rfl
    · exact settled_of_no_footprint _ rfl ⟨rfl, rfl, rfl, rfl, rfl, rfl, rfl, rfl, rfl, rfl⟩ rfl

/-- A command changes a byte only if it writes it, or if it reads it and the host has touched it (R39, R42, R56). -/
theorem exec_byteAt {i : Instr} {s t : State} (h : exec i s = .next t) {c : Nat}
    (hw : inRegions (footprint i s).writes c = false)
    (hr : inRegions (footprint i s).reads c = true → ∀ u ∈ s.touched, u.addr ≠ c) : t.byteAt c = s.byteAt c := by
  obtain ⟨u, _, rfl, hb⟩ := exec_settled h
  rw [State.finish_byteAt, ← hb.frame c hw]
  cases hrd : inRegions (footprint i s).reads c with
  | true => exact State.byteAt_settle_untouched (by rw [hb.kept.touched]; exact hr hrd) _
  | false => exact State.byteAt_settle_outside (by rw [Footprint.all, inRegions_append, hrd, hw]; rfl)

/-- A command with no footprint leaves memory (R42). -/
theorem exec_mem {i : Instr} {s t : State} (h : exec i s = .next t) (hf : (footprint i s).all = []) :
    t.mem = s.mem := by
  obtain ⟨u, _, rfl, hb⟩ := exec_settled h
  rw [State.finish_mem, hf, State.settle_nil]
  exact hb.unwritten (List.append_eq_nil_iff.mp hf).2

/-! ## Every step keeps memory canonical -/

/-- A command keeps memory canonical: it writes its destination, which its checks have put inside memory, and settles
the bytes of its footprint, which lies in memory while the header invariant holds. -/
theorem exec_memOk {i : Instr} {s t : State} (hs : MemOk s) (hh : s.HdrInv) (h : exec i s = .next t) : MemOk t := by
  obtain ⟨u, c, rfl, hu⟩ := exec_settled h
  exact (hu.canonical hs).settle _ (by rw [State.memBytes_congr hu.kept.params]; exact footprint_inMemory i s hh)

/-- Scrambling regions inside memory keeps it canonical (R144). -/
theorem MemOk.scrambleAll {s : State} (h : MemOk s) (rs : List Region) (hr : ∀ r ∈ rs, r.base + r.len ≤ s.memBytes) :
    MemOk (rs.foldl State.scramble s) := by
  induction rs generalizing s with
  | nil => exact h
  | cons r rs ih =>
    refine ih (h.scramble r (hr r (by simp))) fun q hq => ?_
    rw [(SameButMem.scramble s r).memBytes]
    exact hr q (by simp [hq])

/-- A reset keeps memory canonical: it scrambles what the command it abandons would have written (R144). -/
theorem hostReset_memOk {took : Bool} {s t : State} (hs : MemOk s) (hh : s.HdrInv) (h : hostReset took s = .next t) :
    MemOk t := by
  rcases hostReset_next h with ⟨_, rfl⟩ | ⟨i, u, _, ha, rfl⟩
  · exact hs
  · change MemOk u
    rcases abandon_next ha with rfl | ⟨_, _, _, _, _, _, _, _, rfl | ⟨_, _, _, _, rfl⟩⟩ | ⟨_, _, _, _, rfl⟩
    · exact hs.scrambleAll _ fun r hr => footprint_inMemory i s hh r (List.mem_append_right _ hr)
    · exact hs
    · exact hs
    · exact hs

/-- An MMIO write reaches registers only (R124): not memory, the allocator, or the race record. -/
theorem State.mmioWrite_kept (s : State) (off : Nat) (v : Word) :
    (s.mmioWrite off v).mem = s.mem ∧ (s.mmioWrite off v).params = s.params ∧ (s.mmioWrite off v).live = s.live ∧
      (s.mmioWrite off v).touched = s.touched := by
  rcases s.mmioWrite_cases off v with ⟨e, _⟩ | ⟨_, e⟩ | ⟨_, _, e⟩ | ⟨_, _, e⟩ | ⟨_, _, e⟩ | ⟨_, _, _, _, e⟩ <;>
    rw [e] <;> exact ⟨rfl, rfl, rfl, rfl⟩

/-- Every move keeps memory canonical. -/
theorem act_memOk {e : Event} {s t : State} (hs : MemOk s) (hh : s.HdrInv) (h : act e s = .next t) : MemOk t := by
  cases e with
  | core =>
    rcases coreStep_cases s with ⟨_, k⟩ | ⟨_, _, _, _, k⟩ | ⟨_, i, _, _, k⟩
    · cases k.symm.trans h
      exact hs
    · cases k.symm.trans h
      exact hs
    · exact exec_memOk hs hh (k.symm.trans h)
  | mmioRead off width =>
    obtain ⟨_, _, rfl⟩ := hostMmioRead_next h
    exact hs
  | mmioWrite off width v =>
    obtain ⟨_, _, rfl⟩ := hostMmioWrite_next h
    obtain ⟨hm, hp, _⟩ := s.mmioWrite_kept off.toNat v
    exact hs.congr hm hp
  | memRead addr =>
    obtain ⟨_, ⟨_, rfl⟩ | ⟨_, rfl⟩⟩ := hostMemRead_next h <;> exact hs
  | memWrite addr b =>
    obtain ⟨ha, ⟨_, rfl⟩ | ⟨_, rfl⟩⟩ := hostMemWrite_next h <;> exact hs.writeByte _ _ ha
  | reserve _ | unreserve _ | answer _ =>
    cases h
    exact hs
  | release addr =>
    obtain ⟨_, rfl⟩ := hostRelease_next h
    exact hs
  | reset took => exact hostReset_memOk hs hh h

/-! ## The live allocations (R51, R52) -/

/-- What a move may do to the live set: nothing, release a base, or grant a region that meets the contract. -/
inductive LiveMove (s t : State) : Prop
  | kept (h : t.live = s.live)
  | released (a : Nat) (h : t.live = s.live.filter (fun r => decide (r.base ≠ a)))
  | granted (b : Word) (n : Nat) (hn : 0 < n) (hc : s.contractOk b n = true) (h : t.live = ⟨b.toNat, n⟩ :: s.live)

/-- A live set that meets the contract still does after a move (R51). -/
theorem LiveMove.keeps_inv {s t : State} (h : LiveMove s t) (hp : t.params = s.params) (hi : s.LiveInv) :
    t.LiveInv := by
  have hb := State.memBytes_congr hp
  cases h with
  | kept h =>
    exact ⟨by rw [h]; exact hi.base, by rw [h, hb]; exact hi.size, by rw [h]; exact hi.apart⟩
  | released a h =>
    have sub : ∀ r ∈ t.live, r ∈ s.live := fun r hr => List.mem_of_mem_filter (h ▸ hr)
    exact ⟨fun r hr => hi.base r (sub r hr), fun r hr => hb ▸ hi.size r (sub r hr), by rw [h]; exact hi.apart.filter _⟩
  | granted b n hn hc h =>
    obtain ⟨hne, hal, hfit, hdis⟩ := (s.contractOk_iff b n).mp hc
    refine ⟨?_, ?_, ?_⟩
    · rw [h, List.forall_mem_cons]
      exact ⟨⟨hne, hal⟩, hi.base⟩
    · rw [h, hb, List.forall_mem_cons]
      exact ⟨⟨hn, hfit⟩, hi.size⟩
    · rw [h, List.pairwise_cons]
      exact ⟨fun r hr => Region.disjoint_apart _ r (hdis r (List.mem_append_left _ hr)), hi.apart⟩

/-- ALLOC may grant a region, FREE release one; no other command reaches the live set (R53). -/
theorem exec_liveMove {i : Instr} {s t : State} (h : exec i s = .next t) : LiveMove s t := by
  cases i with
  | alloc rd width height channels size =>
    rcases execAlloc_cases rd width height channels size s with
      ⟨_, _, e⟩ | ⟨_, _, _, _, e⟩ | ⟨_, n, b, hsz, hc, _, e⟩ | ⟨_, _, _, _, _, _, _, e⟩ <;> cases e.symm.trans h
    · exact .kept rfl
    · exact .kept rfl
    · exact .granted b n (allocSize_pos hsz) hc rfl
  | free base =>
    rcases execFree_cases base s with ⟨_, e⟩ | ⟨_, _, e⟩ | ⟨_, _, e⟩ <;> cases e.symm.trans h
    · exact .kept rfl
    · exact .released _ rfl
  | _ => exact .kept ((exec_writesOnly h).live nofun nofun)

/-- What every move does to the live set. -/
theorem act_liveMove {e : Event} {s t : State} (h : act e s = .next t) : LiveMove s t := by
  cases e with
  | core =>
    rcases coreStep_cases s with ⟨_, k⟩ | ⟨_, _, _, _, k⟩ | ⟨_, i, _, _, k⟩
    · cases k.symm.trans h
      exact .kept rfl
    · cases k.symm.trans h
      exact .kept rfl
    · exact exec_liveMove (k.symm.trans h)
  | mmioRead off width =>
    obtain ⟨_, _, rfl⟩ := hostMmioRead_next h
    exact .kept rfl
  | mmioWrite off width v =>
    obtain ⟨_, _, rfl⟩ := hostMmioWrite_next h
    obtain ⟨_, _, hl, _⟩ := s.mmioWrite_kept off.toNat v
    exact .kept hl
  | memRead addr =>
    obtain ⟨_, ⟨_, rfl⟩ | ⟨_, rfl⟩⟩ := hostMemRead_next h <;> exact .kept rfl
  | memWrite addr b =>
    obtain ⟨_, ⟨_, rfl⟩ | ⟨_, rfl⟩⟩ := hostMemWrite_next h <;> exact .kept rfl
  | reserve _ | unreserve _ | answer _ =>
    cases h
    exact .kept rfl
  | release addr =>
    obtain ⟨_, rfl⟩ := hostRelease_next h
    exact .released _ rfl
  | reset took =>
    rcases hostReset_next h with ⟨_, rfl⟩ | ⟨i, u, _, ha, rfl⟩
    · exact .kept rfl
    · rcases abandon_next ha with rfl | ⟨_, _, _, _, _, _, _, _, rfl | ⟨b, n, hn, hc, rfl⟩⟩ | ⟨_, _, _, _, rfl⟩
      · exact .kept (SameButMem.scrambleAll s _).live
      · exact .kept rfl
      · exact .granted b n hn hc rfl
      · exact .released _ rfl

/-! ## The race record (R56; log entry 8) -/

theorem State.races_idle {s : State} (h : s.pending = none) (c : Nat) : s.races c = false := by
  simp [State.races, State.pendingInstr, h]

theorem State.races_illegal {s : State} {w : Word} {why : Illegal} (h : s.pending = some w)
    (hd : decode w = .illegal why) (c : Nat) : s.races c = false := by
  simp [State.races, State.pendingInstr, h, hd]

theorem State.races_legal {s : State} {w : Word} {i : Instr} (h : s.pending = some w) (hd : decode w = .legal i)
    (c : Nat) :
    s.races c = inRegions (footprint i s.foreseen).all c := by
  simp [State.races, State.pendingInstr, h, hd]

/-- A race depends on a command's operands as the command itself does: the host's writes to come are no operand. -/
theorem accessed_foreseen (i : Instr) (s : State) (c : Nat) :
    AccessChecked i s.foreseen = AccessChecked i s ∧ SourceByte i s.foreseen c = SourceByte i s c ∧
      DestinationByte i s.foreseen c = DestinationByte i s c := by
  cases i <;> exact ⟨rfl, rfl, rfl⟩

/-- A byte that the pending command accesses is one that it reads or writes, by its operands (R56). -/
theorem State.races_iff {s : State} {w : Word} {i : Instr} (hp : s.pending = some w) (hd : decode w = .legal i)
    (c : Nat) :
    (s.races c = true → AccessChecked i s ∧ (SourceByte i s c ∨ DestinationByte i s c)) ∧
    ((∀ base len, i ≠ .hdrParse base len) → AccessChecked i s → SourceByte i s c ∨ DestinationByte i s c →
      s.races c = true) := by
  obtain ⟨hw, hr, hs⟩ := footprint_bytes i s.foreseen c
  obtain ⟨ea, es, ed⟩ := accessed_foreseen i s c
  rw [ea, es] at hr hs
  rw [ea, ed] at hw
  rw [State.races_legal hp hd, Footprint.all, inRegions_append, Bool.or_eq_true, hw]
  refine ⟨fun h => ?_, fun hi hk h => ?_⟩
  · rcases h with h | ⟨hk, hdst⟩
    · exact (hr h).imp_right .inl
    · exact ⟨hk, .inr hdst⟩
  · exact h.imp (hs hi hk) (⟨hk, ·⟩)

/-- While the CORE is idle the race record is empty. -/
theorem State.RaceInv.untouched_of_idle {s : State} (hi : s.RaceInv) (h : s.pending = none) : s.touched = [] := by
  refine List.eq_nil_iff_forall_not_mem.mpr fun u hu => ?_
  have := hi u hu
  rw [State.races_idle h] at this
  cases this

theorem State.RaceInv.of_untouched {s : State} (h : s.touched = []) : s.RaceInv := by
  intro u hu
  rw [h] at hu
  cases hu

/-- A move that leaves every race as it was, and records no more than one of them, keeps the race record. -/
theorem State.RaceInv.congr {s t : State} (hi : s.RaceInv) (hr : ∀ c, t.races c = s.races c)
    (ht : ∀ u ∈ t.touched, u ∈ s.touched ∨ s.races u.addr = true) : t.RaceInv := by
  intro u hu
  rw [hr]
  exact (ht u hu).elim (hi u) id

/-- Writes of STATUS and of the fields of the host and the allocator, and the record of a host read, leave every race as
it was. -/
theorem State.races_unchanged {s : State} {status : Status} {live hostRegions : List Region}
    {answers : List AllocAnswer} {hostRx : Word} {touched : List Touch} {reads : Nat}
    (ht : ∀ c, touched.any (fun u => u.wrote && decide (u.addr = c)) = s.hostWrote c) (c : Nat) :
    State.races { s with
      status := status, live := live, hostRegions := hostRegions, answers := answers
      hostRx := hostRx, touched := touched, reads := reads } c = s.races c :=
  State.races_congr_of_mem c rfl rfl rfl rfl rfl rfl rfl rfl fun c => by
    rw [State.hostWrote_foreseen, State.hostWrote_foreseen, List.any_append, List.any_append, ht c]
    rfl

/-- A move that reaches no more than STATUS and the fields of the host and the allocator keeps the race record. -/
theorem State.RaceInv.unrecorded {s : State} (hi : s.RaceInv) {status : Status} {live hostRegions : List Region}
    {answers : List AllocAnswer} {hostRx : Word} {reads : Nat} :
    State.RaceInv { s with
      status := status, live := live, hostRegions := hostRegions, answers := answers
      hostRx := hostRx, reads := reads } :=
  hi.congr (State.races_unchanged fun _ => rfl) fun _ hu => .inl hu

/-- s with the move e before those of its schedule. -/
def State.expecting (s : State) (e : Event) : State := { s with schedule := e :: s.schedule }

theorem State.eq_expecting {s : State} {e : Event} {rest : List Event} (h : s.schedule = e :: rest) :
    s = State.expecting { s with schedule := rest } e := by
  rw [State.expecting, ← h]

/-- Taking a move off the schedule that writes no memory and ends no command leaves the race record. -/
theorem State.RaceInv.ofExpecting {s : State} {e : Event} (hi : (s.expecting e).RaceInv)
    (he : writesAhead (e :: s.schedule) = writesAhead s.schedule) : s.RaceInv := by
  refine hi.congr (fun c => State.races_congr_of_mem c rfl rfl rfl rfl rfl rfl rfl rfl fun c => ?_) fun _ hu => .inl hu
  rw [State.hostWrote_foreseen, State.hostWrote_foreseen, State.expecting, he]

/-- A write by the host leaves every race as it was when the write was still to come: where the command reads the byte,
it reads a free value of it before and after. -/
theorem State.races_after_write {s : State} {addr : Word} {b : Byte} {touched : List Touch}
    (ht : touched = if s.races addr.toNat then ⟨addr.toNat, true⟩ :: s.touched else s.touched) (c : Nat) :
    State.races { s.writeByte addr.toNat b with touched := touched } c = (s.expecting (.memWrite addr b)).races c := by
  have next : s.races addr.toNat = (s.expecting (.memWrite addr b)).races addr.toNat :=
    State.races_next_write (s := s.expecting (.memWrite addr b)) rfl
  refine State.races_congr c rfl rfl rfl rfl rfl rfl fun a ha => ?_
  have wrote : (State.foreseen { s.writeByte addr.toNat b with touched := touched }).hostWrote a =
      (s.expecting (.memWrite addr b)).foreseen.hostWrote a := by
    rw [State.hostWrote_foreseen, State.hostWrote_foreseen, State.expecting, writesAhead, ht]
    by_cases e : addr.toNat = a
    · subst e
      simp [next, ha]
    · split <;> simp [e]
  by_cases e : a = addr.toNat
  · subst e
    have free : (s.expecting (.memWrite addr b)).foreseen.hostWrote addr.toNat = true := by
      simp [State.hostWrote_foreseen, State.expecting, writesAhead]
    simp only [State.coreByte, wrote, free, if_true]
    rfl
  · have same : (State.foreseen { s.writeByte addr.toNat b with touched := touched }).byteAt a =
        (s.expecting (.memWrite addr b)).foreseen.byteAt a := s.byteAt_writeByte_other _ _ _ e
    simp only [State.coreByte, wrote, same]
    rfl

theorem hostMemWrite_raceInv {addr : Word} {b : Byte} {s t : State} (hi : (s.expecting (.memWrite addr b)).RaceInv)
    (h : hostMemWrite addr b s = .next t) : t.RaceInv := by
  obtain ⟨_, ⟨hr, rfl⟩ | ⟨hr, rfl⟩⟩ := hostMemWrite_next h
  · refine hi.congr (State.races_after_write (by rw [hr]; rfl)) fun u hu => ?_
    rcases List.mem_cons.mp hu with rfl | hu
    · exact .inr ((State.races_next_write (s := s.expecting (.memWrite addr b)) rfl).symm.trans hr)
    · exact .inl hu
  · exact hi.congr (State.races_after_write (by rw [hr]; rfl)) fun _ hu => .inl hu

theorem hostMemRead_raceInv {addr : Word} {s t : State} (hi : s.RaceInv) (h : hostMemRead addr s = .next t) :
    t.RaceInv := by
  obtain ⟨_, ⟨hr, rfl⟩ | ⟨_, rfl⟩⟩ := hostMemRead_next h
  · refine hi.congr (State.races_unchanged fun c => by simp [State.hostWrote]) fun u hu => ?_
    rcases List.mem_cons.mp hu with rfl | hu
    · exact .inr hr
    · exact .inl hu
  · exact hi.unrecorded

/-- While a command runs, an MMIO write reaches STATUS only; while none runs, the record is empty. -/
theorem State.RaceInv.mmioWrite {s : State} (hb : s.BusyInv) (hi : s.RaceInv) (off : Nat) (v : Word) :
    (s.mmioWrite off v).RaceInv := by
  cases hp : s.pending with
  | none =>
    obtain ⟨_, _, _, ht⟩ := s.mmioWrite_kept off v
    exact .of_untouched (ht.trans (hi.untouched_of_idle hp))
  | some w =>
    have busy : s.status.busy ≠ false := by rw [hb, hp]; simp
    rcases s.mmioWrite_cases off v with ⟨e, _⟩ | ⟨_, e⟩ | ⟨_, _, e⟩ | ⟨_, idle, _⟩ | ⟨_, idle, _⟩ | ⟨idle, _⟩
    · rw [e]; exact hi
    · rw [e]; exact hi.unrecorded
    · rw [e]; exact hi.unrecorded
    · exact absurd idle busy
    · exact absurd idle busy
    · exact absurd idle busy

/-- With the command its race record ends (R126). -/
theorem coreStep_raceInv {s t : State} (ht : s.pending = none → s.touched = []) (h : coreStep s = .next t) :
    t.RaceInv := by
  rcases coreStep_finish h with ⟨rfl, hp⟩ | ⟨_, _, _, rfl, _⟩
  · exact .of_untouched (ht hp)
  · exact .of_untouched rfl

/-- Every move keeps the race record to accesses of the running command's bytes. -/
theorem act_raceInv {e : Event} {s t : State} (hb : s.BusyInv) (hi : (s.expecting e).RaceInv) (h : act e s = .next t) :
    t.RaceInv := by
  cases e with
  | core => exact coreStep_raceInv (s := s) hi.untouched_of_idle h
  | memWrite addr b => exact hostMemWrite_raceInv hi h
  | reset took =>
    rw [hostReset_registers h]
    exact .of_untouched rfl
  | mmioRead off width =>
    obtain ⟨_, _, rfl⟩ := hostMmioRead_next h
    exact (hi.ofExpecting rfl).unrecorded
  | mmioWrite off width v =>
    obtain ⟨_, _, rfl⟩ := hostMmioWrite_next h
    exact (hi.ofExpecting rfl).mmioWrite hb _ _
  | memRead addr => exact hostMemRead_raceInv (hi.ofExpecting rfl) h
  | reserve _ | unreserve _ | answer _ =>
    cases h
    exact (hi.ofExpecting rfl).unrecorded
  | release addr =>
    obtain ⟨_, rfl⟩ := hostRelease_next h
    exact (hi.ofExpecting rfl).unrecorded

/-! ## Accesses of the host to memory (R55, R56) -/

/-- A byte in the host's register. -/
theorem zeroExtend_byte (b : Byte) : b.zeroExtend 32 = BitVec.ofNat 32 b.toNat := (BitVec.ofNat_toNat 32 b).symm

section
variable {s : State} {addr : Word}

theorem hostMemory_absent (h : s.memBytes ≤ addr.toNat) (b : Byte) :
    hostMemRead addr s = .fault .noSuchAddress ∧ hostMemWrite addr b s = .fault .noSuchAddress :=
  ⟨if_pos h, if_pos h⟩

variable (h : addr.toNat < s.memBytes)
include h

theorem hostMemRead_exact (hr : s.races addr.toNat = false) :
    hostMemRead addr s = .next { s with hostRx := BitVec.ofNat 32 (s.byteAt addr.toNat).toNat } := by
  simp only [hostMemRead, Nat.not_le.mpr h, hr, zeroExtend_byte, if_false, Bool.false_eq_true]

theorem hostMemRead_raced (hr : s.races addr.toNat = true) :
    hostMemRead addr s = .next { s with
      hostRx := BitVec.ofNat 32 (Config.hostRaceByte s.reads addr.toNat).toNat
      touched := ⟨addr.toNat, false⟩ :: s.touched, reads := s.reads + 1 } := by
  simp only [hostMemRead, Nat.not_le.mpr h, hr, zeroExtend_byte, if_false, if_true]

theorem hostMemWrite_exact (hr : s.races addr.toNat = false) (b : Byte) :
    hostMemWrite addr b s = .next (s.writeByte addr.toNat b) := by
  simp only [hostMemWrite, Nat.not_le.mpr h, hr, if_false, Bool.false_eq_true]

theorem hostMemWrite_raced (hr : s.races addr.toNat = true) (b : Byte) :
    hostMemWrite addr b s = .next { s.writeByte addr.toNat b with touched := ⟨addr.toNat, true⟩ :: s.touched } := by
  simp only [hostMemWrite, Nat.not_le.mpr h, hr, if_false, if_true]

end

/-! ## Commands that raise -/

theorem State.finish_invalidArgument (s : State) : s.finish .invalidArgument = failedWith 1 s :=
  s.finish_error _ (by decide)

theorem execCvtH2fBuf_badRegion {dst src count : XReg} {s : State} (h : ¬ AccessChecked (.cvtH2fBuf dst src count) s) :
    execCvtH2fBuf dst src count s = .next (failedWith 1 s) := by
  rw [execCvtH2fBuf_eq, if_neg (mt (h2fBufOk_iff_checked _ _ _ _).mp h), State.finish_invalidArgument]

theorem execCvtF2hBuf_badRegion {dst src count : XReg} {s : State} (h : ¬ AccessChecked (.cvtF2hBuf dst src count) s) :
    execCvtF2hBuf dst src count s = .next (failedWith 1 s) := by
  rw [execCvtF2hBuf_eq, if_neg (mt (f2hBufOk_iff_checked _ _ _ _).mp h), State.finish_invalidArgument]

theorem execBswap16Buf_badRegion {addr count : XReg} {s : State} (h : ¬ AccessChecked (.bswap16Buf addr count) s) :
    execBswap16Buf addr count s = .next (failedWith 1 s) := by
  rw [execBswap16Buf_eq, if_neg (mt (bswapBufOk_iff _ _ _).mp h), State.finish_invalidArgument]

/-- PAYLOAD.IN raises the code of its checks (R114). -/
theorem execPayloadIn_raises {dst count : XReg} {s : State} {c : ResultCode} (h : payloadInCheck dst count s = some c) :
    execPayloadIn dst count s = .next (s.finish c) := by
  rcases execPayloadIn_cases dst count s with ⟨c', hc, e⟩ | ⟨hn, _⟩ | ⟨hn, _⟩
  · cases hc.symm.trans h
    exact e
  · cases hn.symm.trans h
  · cases hn.symm.trans h

/-- A bad destination is INVALID_ARGUMENT whether a header is valid or not (R114). -/
theorem payloadInCheck_badRegion {dst count : XReg} {s : State}
    (h : s.regionOk (s.natX dst) (2 * s.natX count) = false) :
    payloadInCheck dst count s = some .invalidArgument := by
  unfold payloadInCheck
  cases s.hdrInfo.valid
  · rfl
  · rw [if_neg (by decide), if_pos h]

theorem execHdrParse_badRegion {base len : XReg} {s : State} (h : ¬ AccessChecked (.hdrParse base len) s) :
    execHdrParse base len s = .next (s.invalidate.finish .invalidArgument) := by
  have hk := mt (hdrParseOk_iff base len s).mp h
  rcases execHdrParse_cases base len s with ⟨_, e⟩ | ⟨hk', _⟩ | ⟨hk', _⟩
  · exact e
  · exact absurd hk' hk
  · exact absurd hk' hk

/-! ## ALLOC and its draw (R50, R119) -/

/-- With no answer stated, ALLOC completes, whatever the free draw (log entry 6). -/
theorem execAlloc_unstated (rd width height channels : XReg) (size : SampleSize) {s : State} (hn : s.answers = []) :
    ∃ t, execAlloc rd width height channels size s = .next t ∧
      (t.status.lastcode = 0 ∨ t.status.lastcode = 4 ∨ t.status.lastcode = 7) := by
  rcases execAlloc_cases rd width height channels size s with
    ⟨code, hsz, e⟩ | ⟨_, _, _, _, e⟩ | ⟨_, _, _, _, _, _, e⟩ | ⟨_, _, _, _, _, hstated, _⟩
  · refine ⟨_, e, ?_⟩
    rcases allocSize_cases width height channels size s with ⟨_, k⟩ | ⟨_, _, k⟩ | ⟨_, _, k⟩ <;> cases k.symm.trans hsz
    · exact .inr (.inl rfl)
    · exact .inr (.inr rfl)
  · exact ⟨_, e, .inr (.inr rfl)⟩
  · exact ⟨_, e, .inl rfl⟩
  · cases hn.symm.trans hstated

/-- A stated Fail for a geometry and a size that pass their checks is the allocator's draw. -/
theorem execAlloc_statedFail (rd : XReg) {width height channels : XReg} {size : SampleSize} {s : State}
    {rest : List AllocAnswer} (hans : s.answers = .fail :: rest)
    (hg : geometryOk (s.intX width) (s.intX height) (s.intX channels) = true)
    (hb : (s.intX width * s.intX height * s.intX channels).toNat * sampleBytes size ≤ 2 ^ 32 - 1) :
    execAlloc rd width height channels size s = .next { failedWith 7 s with answers := rest } := by
  rcases execAlloc_cases rd width height channels size s with
    ⟨_, hsz, _⟩ | ⟨_, _, _, _, e⟩ | ⟨_, bytes, _, _, _, hgrant, _⟩ | ⟨_, _, _, _, _, hstated, _⟩
  · rcases allocSize_cases width height channels size s with ⟨hg', _⟩ | ⟨_, hb', _⟩ | ⟨_, _, k⟩
    · cases hg.symm.trans hg'
    · omega
    · cases k.symm.trans hsz
  · rw [e, State.finish_error _ _ (by decide), hans]
    rfl
  · cases (s.allocRequest_stated_fail bytes rest hans).symm.trans hgrant
  · cases hans.symm.trans hstated

/-! ## What the element loops compute -/

/-- A half depends on the two bytes at its address. -/
theorem halfAt_congr_bytes (be : Bool) (m m' : Nat → Byte) (a : Nat) (h : ∀ k < 2, m (a + k) = m' (a + k)) :
    halfAt be m a = halfAt be m' a := halfAt_congr be m m' a a (h 0 (by decide)) (h 1 (by decide))

/-- What stands at an element of a quiet destination is not settled. -/
theorem State.Quiet.get_settle {s : State} {d w n : Nat} (h : s.Quiet [⟨d, w * n⟩]) (rs : List Region) {V : Type}
    {get : (Nat → Byte) → Nat → V} (hget : ∀ m m' a, (∀ k < w, m (a + k) = m' (a + k)) → get m a = get m' a)
    {i : Nat} (hi : i < n) : get (s.settle rs).byteAt (d + w * i) = get s.byteAt (d + w * i) :=
  hget _ _ _ fun k hk => State.byteAt_settle_untouched
    (h.untouched ⟨by omega, by have := element_end_le d w hi; omega⟩) rs

/-- CVT.H2F.BUF converts every sample as it is before the command, where dst lies past src or ends before it (R85). -/
theorem h2fBuf_loop {s : State} {d a n : Nat} (h : a + 2 * n ≤ d ∨ d + 4 * n ≤ a) :
    ∀ i < n, floatAt s.hostBe (ascending (h2fSample d a) n s).byteAt (d + 4 * i) =
      h2f (halfAt s.hostBe s.coreByte (a + 2 * i)) := by
  refine (WritesElement.h2fSample d a).loop_get (fun m m' c => floatAt_congr _ m m' c c) fun i t ht hf hi => ?_
  have stored := (h2fSample_stores d a i t).1
  rw [ht.hostBe] at stored
  rw [stored, halfAt_congr _ _ s.coreByte _ _ (ht.coreByte _ (hf _ (by omega))) (ht.coreByte _ (hf _ (by omega)))]

/-- CVT.F2H.BUF converts every sample as it is before the command, where dst lies at or before src or past it (R97). -/
theorem f2hBuf_loop {s : State} {d a n : Nat} (h : d ≤ a ∨ a + 4 * n ≤ d) :
    ∀ i < n, halfAt s.hostBe (ascending (f2hSample d a) n s).byteAt (d + 2 * i) =
      f2h (floatAt s.hostBe s.coreByte (a + 4 * i)) := by
  refine (WritesElement.f2hSample d a).loop_get (fun m m' c => halfAt_congr_bytes _ m m' c) fun i t ht hf hi => ?_
  have stored := (f2hSample_stores d a i t).1
  rw [ht.hostBe] at stored
  rw [stored, floatAt_congr _ _ s.coreByte _ _ fun k hk => ht.coreByte _ (hf _ (by omega))]

/-- PAYLOAD.IN gives every sample's logical value as it is before the command, where dst lies at or before the payload
or past it (R114, R115). -/
theorem payloadIn_loop {s : State} {d a n : Nat} (h : d ≤ a ∨ a + 2 * n ≤ d) :
    ∀ i < n, halfAt s.hostBe (ascending (payloadSample s.swapNeeded d a) n s).byteAt (d + 2 * i) =
      halfAt s.hdrInfo.storedBe s.coreByte (a + 2 * i) := by
  refine (WritesElement.payloadSample s.swapNeeded d a).loop_get (fun m m' c => halfAt_congr_bytes _ m m' c)
    fun i t ht hf hi => ?_
  have stored := (payloadSample_stores d a i t).1
  rw [show t.swapNeeded = s.swapNeeded by simp only [State.swapNeeded, ht.hdrInfo, ht.hostBe], ht.hostBe, ht.hdrInfo]
    at stored
  rw [stored, halfAt_congr _ _ s.coreByte _ _ (ht.coreByte _ (hf _ (by omega))) (ht.coreByte _ (hf _ (by omega)))]

/-- BSWAP16.BUF exchanges every pair (R113). -/
theorem bswapBuf_loop {s : State} {a n : Nat} : ∀ i < n,
    (ascending (bswapSample a) n s).byteAt (a + 2 * i) = s.coreByte (a + 2 * i + 1) ∧
    (ascending (bswapSample a) n s).byteAt (a + 2 * i + 1) = s.coreByte (a + 2 * i) := by
  intro i hi
  refine Prod.mk.inj ((WritesElement.bswapSample a).loop_get (get := fun m c => (m c, m (c + 1)))
    (v := fun i => (s.coreByte (a + 2 * i + 1), s.coreByte (a + 2 * i)))
    (fun m m' c hm => Prod.ext (hm 0 (by decide)) (hm 1 (by decide))) (fun i t ht hf _ => ?_) i hi)
  simp only [bswapSample, byteAt_copyPair, if_true, Nat.succ_ne_self, if_false]
  rw [ht.coreByte _ (hf _ (by omega)), ht.coreByte _ (hf _ (by omega))]

/-! ## The buffer commands where the host may have touched the source (R56) -/

/-- CVT.H2F.BUF with a quiet destination (R85). -/
theorem execCvtH2fBuf_reads {dst src count : XReg} {s : State} (hk : AccessChecked (.cvtH2fBuf dst src count) s)
    (hsep : s.natX src + 2 * s.natX count ≤ s.natX dst ∨ s.natX dst + 4 * s.natX count ≤ s.natX src)
    (hq : s.Quiet [⟨s.natX dst, 4 * s.natX count⟩]) :
    ∃ t, execCvtH2fBuf dst src count s = .next t ∧ WroteMemoryOnly s t ∧
      ∀ i < s.natX count, floatAt s.hostBe t.byteAt (s.natX dst + 4 * i) =
        h2f (halfAt s.hostBe s.coreByte (s.natX src + 2 * i)) := by
  refine ⟨_, (execCvtH2fBuf_eq ..).trans (by rw [if_pos ((h2fBufOk_iff_checked _ _ _ _).mpr hk)]),
    (s.afterH2fBuf_same _ _ _).finish_ok, fun i hi => ?_⟩
  have hql := ((WritesElement.h2fSample (s.natX dst) (s.natX src)).loop_same (s.natX count) s).quiet hq
  exact (hql.get_settle _ (fun m m' c => floatAt_congr _ m m' c c) hi).trans (h2fBuf_loop hsep i hi)

/-- CVT.F2H.BUF with a quiet destination (R97). -/
theorem execCvtF2hBuf_reads {dst src count : XReg} {s : State} (hk : AccessChecked (.cvtF2hBuf dst src count) s)
    (hsep : s.natX dst ≤ s.natX src ∨ s.natX src + 4 * s.natX count ≤ s.natX dst)
    (hq : s.Quiet [⟨s.natX dst, 2 * s.natX count⟩]) :
    ∃ t, execCvtF2hBuf dst src count s = .next t ∧ WroteMemoryOnly s t ∧
      ∀ i < s.natX count, halfAt s.hostBe t.byteAt (s.natX dst + 2 * i) =
        f2h (floatAt s.hostBe s.coreByte (s.natX src + 4 * i)) := by
  refine ⟨_, (execCvtF2hBuf_eq ..).trans (by rw [if_pos ((f2hBufOk_iff_checked _ _ _ _).mpr hk)]),
    (s.afterF2hBuf_same _ _ _).finish_ok, fun i hi => ?_⟩
  have hql := ((WritesElement.f2hSample (s.natX dst) (s.natX src)).loop_same (s.natX count) s).quiet hq
  exact (hql.get_settle _ (fun m m' c => halfAt_congr_bytes _ m m' c) hi).trans (f2hBuf_loop hsep i hi)

/-- The payload of a valid header lies in memory (R114; log entry 11). -/
theorem payloadExists_of_checked {dst count : XReg} {s : State} (hh : s.HdrInv)
    (hk : AccessChecked (.payloadIn dst count) s) : s.payloadExists (s.natX count) = true := by
  obtain ⟨hv, _, havail⟩ := (payloadInCheck_none dst count s).mp ((payloadInCheck_iff_checked dst count s).mpr hk)
  have hfit := hh.payload hv
  simp only [State.payloadExists, Bool.or_eq_true, decide_eq_true_eq]
  omega

/-- While the header invariant holds, PAYLOAD.IN completes where its checks pass (R114). -/
theorem execPayloadIn_completes {dst count : XReg} {s : State} (hh : s.HdrInv)
    (hk : AccessChecked (.payloadIn dst count) s) :
    execPayloadIn dst count s = .next ((s.afterPayloadIn dst count).finish .ok) := by
  have hc := (payloadInCheck_iff_checked dst count s).mpr hk
  rcases execPayloadIn_cases dst count s with ⟨_, hc', _⟩ | ⟨_, _, e⟩ | ⟨_, hp, _⟩
  · cases hc.symm.trans hc'
  · exact e
  · rw [payloadExists_of_checked hh hk] at hp
    cases hp

/-- PAYLOAD.IN with a quiet destination (R114, R115). -/
theorem execPayloadIn_reads {dst count : XReg} {s : State} (hh : s.HdrInv) (hk : AccessChecked (.payloadIn dst count) s)
    (hsep : s.natX dst ≤ s.hdrPbase.toNat ∨ s.hdrPbase.toNat + 2 * s.natX count ≤ s.natX dst)
    (hq : s.Quiet [⟨s.natX dst, 2 * s.natX count⟩]) :
    ∃ t, execPayloadIn dst count s = .next t ∧ WroteMemoryOnly s t ∧
      ∀ i < s.natX count, halfAt s.hostBe t.byteAt (s.natX dst + 2 * i) =
        halfAt s.hdrInfo.storedBe s.coreByte (s.hdrPbase.toNat + 2 * i) := by
  refine ⟨_, execPayloadIn_completes hh hk, (s.afterPayloadIn_same _ _).finish_ok, fun i hi => ?_⟩
  have same := (WritesElement.payloadSample s.swapNeeded (s.natX dst) s.hdrPbase.toNat).loop_same (s.natX count) s
  have hql := same.quiet hq
  exact (hql.get_settle _ (fun m m' c => halfAt_congr_bytes _ m m' c) hi).trans (payloadIn_loop hsep i hi)

/-- BSWAP16.BUF where the host may have touched its region (R113). -/
theorem execBswap16Buf_reads {addr count : XReg} {s : State} (hk : AccessChecked (.bswap16Buf addr count) s) :
    ∃ t, execBswap16Buf addr count s = .next t ∧ WroteMemoryOnly s t ∧
      ∀ i < s.natX count,
        ((∀ u ∈ s.touched, u.addr ≠ s.natX addr + 2 * i + 1) →
          t.byteAt (s.natX addr + 2 * i + 1) = s.coreByte (s.natX addr + 2 * i)) ∧
        ((∀ u ∈ s.touched, u.addr ≠ s.natX addr + 2 * i) →
          t.byteAt (s.natX addr + 2 * i) = s.coreByte (s.natX addr + 2 * i + 1)) := by
  refine ⟨_, (execBswap16Buf_eq ..).trans (by rw [if_pos ((bswapBufOk_iff _ _ _).mpr hk)]),
    (s.afterBswapBuf_same _ _).finish_ok, fun i hi => ?_⟩
  have touched := ((WritesElement.bswapSample (s.natX addr)).loop_same (s.natX count) s).touched
  obtain ⟨even, odd⟩ := bswapBuf_loop (s := s) (a := s.natX addr) i hi
  exact ⟨fun hu => (State.byteAt_settle_untouched (by rwa [touched]) _).trans odd,
    fun hu => (State.byteAt_settle_untouched (by rwa [touched]) _).trans even⟩

/-! ## HDR.PARSE (R107) -/

/-- HDR.PARSE of an image that begins with a header of the grammar. -/
theorem execHdrParse_accepts {base len : XReg} {s : State} {text : HeaderText} {payload : List Byte}
    (hk : AccessChecked (.hdrParse base len) s) (ht : text.ok = true)
    (himg : s.image (s.natX base) (s.natX len) = text.bytes ++ payload) :
    execHdrParse base len s = .next (((s.setHeader text.meaning (s.natX base) (s.natX len) text.bytes.length).settle
      (hdrParseFootprint base len s).all).finish .ok) := by
  have run := header_run ht payload
  have hlen := congrArg List.length himg
  rw [State.image_length, List.length_append] at hlen
  rcases execHdrParse_cases base len s with ⟨hk', _⟩ | ⟨_, l, he, _⟩ | ⟨_, hd, p, he, e⟩
  · rw [(hdrParseOk_iff base len s).mpr hk] at hk'
    cases hk'
  · rw [himg, run] at he
    cases he
  · rw [himg, run] at he
    cases he
    rw [e, show s.natX len - payload.length = text.bytes.length by omega]

/-- The registers that a header of k bytes in an image of n bytes leaves say what its text says (R100 to R105, R107). -/
theorem setHeader_meaning (s : State) {text : HeaderText} (ht : text.ok = true) (a : Nat) {n k : Nat} (hk : k ≤ n)
    (hn : n < 2 ^ 32) :
    (s.setHeader text.meaning a n k).hdrWidth.toNat = decimal text.width ∧
    (s.setHeader text.meaning a n k).hdrHeight.toNat = decimal text.height ∧
    (s.setHeader text.meaning a n k).hdrChannels = (if text.rgb then 3 else 1) ∧
    (s.setHeader text.meaning a n k).hdrLen.toNat = k ∧ (s.setHeader text.meaning a n k).hdrPavail.toNat = n - k := by
  obtain ⟨_, ⟨_, hw⟩, ⟨_, hh⟩⟩ := HeaderText.meaning_bounds ht
  have fits {v : Nat} (hv : v < 2 ^ 32) : (BitVec.ofNat 32 v).toNat = v := by
    rw [BitVec.toNat_ofNat, Nat.mod_eq_of_lt hv]
  refine ⟨fits (by omega), fits (by omega), ?_, fits (by omega), fits (by omega)⟩
  change BitVec.ofNat 32 (if text.rgb then 3 else 1) = _
  cases text.rgb <;> rfl

/-- The registers after HDR.PARSE of a header of the grammar. -/
theorem execHdrParse_registers {base len : XReg} {s : State} {text : HeaderText} {payload : List Byte}
    (hk : AccessChecked (.hdrParse base len) s) (ht : text.ok = true)
    (himg : s.image (s.natX base) (s.natX len) = text.bytes ++ payload) :
    ∃ t, execHdrParse base len s = .next t ∧ t.status.lastcode = 0 ∧
      t.hdrWidth.toNat = decimal text.width ∧ t.hdrHeight.toNat = decimal text.height ∧
      t.hdrChannels = (if text.rgb then 3 else 1) ∧ t.hdrInfo = { valid := true, storedBe := !text.marker.negative } ∧
      t.hdrLen.toNat = text.bytes.length ∧ t.hdrPavail.toNat = payload.length := by
  have hlen := congrArg List.length himg
  rw [State.image_length, List.length_append] at hlen
  obtain ⟨hw, hh, hc, hl, hp⟩ := setHeader_meaning s ht (s.natX base) (n := s.natX len) (k := text.bytes.length)
    (by omega) (s.getX len).isLt
  have same := SameButMem.settle (s.setHeader text.meaning (s.natX base) (s.natX len) text.bytes.length)
    (hdrParseFootprint base len s).all
  refine ⟨_, execHdrParse_accepts hk ht himg, rfl, ?_⟩
  simp only [State.finish_hdrWidth, State.finish_hdrHeight, State.finish_hdrChannels, State.finish_hdrInfo,
    State.finish_hdrLen, State.finish_hdrPavail, same.hdrWidth, same.hdrHeight, same.hdrChannels, same.hdrInfo,
    same.hdrLen, same.hdrPavail]
  exact ⟨hw, hh, hc, rfl, hl, by rw [hp]; omega⟩

/-- HDR.PARSE of any other image. -/
theorem execHdrParse_rejects {base len : XReg} {s : State} (hk : AccessChecked (.hdrParse base len) s)
    (hno : ¬ ∃ (text : HeaderText) (payload : List Byte), text.ok = true ∧
      s.image (s.natX base) (s.natX len) = text.bytes ++ payload) :
    execHdrParse base len s = .next ((s.invalidate.settle (hdrParseFootprint base len s).all).finish .formatError) := by
  rcases execHdrParse_cases base len s with ⟨hk', _⟩ | ⟨_, l, _, e⟩ | ⟨_, hd, p, he, _⟩
  · rw [(hdrParseOk_iff base len s).mpr hk] at hk'
    cases hk'
  · exact e
  · obtain ⟨text, ht, himg, _⟩ := header_ok he
    exact absurd ⟨text, p, ht, himg⟩ hno

/-! ## The obligations -/

/-- Settles O48, move by move: a command writes where its checks have passed, the host where memory exists. -/
theorem stepKeepsMemoryCanonical : Obligations.StepKeepsMemoryCanonical := by
  intro s t hs hh h
  rcases step_cases s with ⟨hstep, _⟩ | ⟨e, rest, _, hstep⟩
  · exact act_memOk (e := .core) hs hh (hstep.symm.trans h)
  · exact act_memOk (s := { s with schedule := rest }) hs ⟨hh.channels, hh.width, hh.height, hh.length, hh.payload⟩
      (hstep.symm.trans h)

/-- Settles O50: every move of the live set grants a region by the allocator's contract, releases one, or neither. -/
theorem stepKeepsLiveAllocationsApart : Obligations.StepKeepsLiveAllocationsApart := by
  intro s t hi h
  rcases step_cases s with ⟨hstep, _⟩ | ⟨e, rest, _, hstep⟩
  · have ha : act .core s = .next t := hstep.symm.trans h
    exact (act_liveMove ha).keeps_inv (act_kept ha).1 hi
  · have ha := hstep.symm.trans h
    exact (act_liveMove ha).keeps_inv (act_kept ha).1 ⟨hi.base, hi.size, hi.apart⟩

/-- Settles O51: a move leaves every race as it was and records no more than one of them, or leaves no record. -/
theorem stepKeepsTheRaceRecord : Obligations.StepKeepsTheRaceRecord := by
  intro s t hb hi h
  rcases step_cases s with ⟨hstep, _⟩ | ⟨e, rest, hs, hstep⟩
  · exact coreStep_raceInv hi.untouched_of_idle (hstep.symm.trans h)
  · have expected : State.RaceInv (State.expecting { s with schedule := rest } e) := by rwa [← State.eq_expecting hs]
    exact act_raceInv (s := { s with schedule := rest }) hb expected (hstep.symm.trans h)

/-- Settles O20, by MemRead and MemWrite of each size; a byte that the host has not touched reads as memory holds it. -/
theorem accessesUseTheHostOrder : Obligations.AccessesUseTheHostOrder := by
  intro s a h
  have read : s.coreByte = s.byteAt := funext fun c => s.coreByte_untouched c h
  refine ⟨?_, ?_, ?_, s.memWrite_one a, s.memWrite_two a, s.memWrite_four a⟩
  · rw [State.memRead_one, read]
  · rw [State.memRead_two, read]
  · rw [State.memRead_four, read]

/-- Settles O21: a region that fails its check makes the checks of the command fail, which raises at once. -/
theorem badRegionsAreInvalidArguments : Obligations.BadRegionsAreInvalidArguments := by
  refine ⟨State.regionOk_iff, fun dst src count s h => ?_, fun dst src count s h => ?_, fun addr count s h => ⟨?_, ?_⟩,
    fun base len s h => ?_⟩
  · exact execCvtH2fBuf_badRegion fun ⟨ha, hb, hc, hd⟩ => h.elim (· ⟨ha, hb⟩) (· ⟨hc, hd⟩)
  · exact execCvtF2hBuf_badRegion fun ⟨ha, hb, hc, hd⟩ => h.elim (· ⟨ha, hb⟩) (· ⟨hc, hd⟩)
  · exact execBswap16Buf_badRegion h
  · rw [← State.finish_invalidArgument]
    exact execPayloadIn_raises (payloadInCheck_badRegion (Bool.eq_false_iff.mpr (mt (State.regionOk_iff _ _ _).mp h)))
  · rw [← State.finish_invalidArgument]
    exact execHdrParse_badRegion h

/-- Settles O27: the command settles the races of its footprint as it completes. -/
theorem racedBytesHoldAnyValue : Obligations.RacedBytesHoldAnyValue := by
  intro i s t c h hc hu
  obtain ⟨u, code, rfl, hb⟩ := exec_settled h
  have writes : inRegions (footprint i s).all c = true ∧ ∃ v ∈ u.touched, v.addr = c := ⟨hc, by rwa [hb.kept.touched]⟩
  rw [State.finish_byteAt, State.byteAt_settle, if_pos writes, hb.kept.tick]

/-- Settles O28: `read` is what the commands read, and each result is computed from it. -/
theorem commandsReadRacedBytesFreely : Obligations.CommandsReadRacedBytesFreely := by
  intro s read hfree hkept
  obtain rfl := State.eq_coreByte hfree hkept
  refine ⟨?_, ?_, ?_, ?_⟩
  · rintro dst src count _ _ _ rfl rfl rfl ha hd
    exact ⟨fun hsrc hdst hsep hq => execCvtH2fBuf_reads ⟨ha, hsrc, hd, hdst⟩ hsep hq,
      fun hsrc hdst hsep hq => execCvtF2hBuf_reads ⟨ha, hsrc, hd, hdst⟩
        (hsep.symm.imp_left Nat.le_of_add_right_le) hq⟩
  · rintro dst count _ _ _ rfl rfl rfl hh hv hd hdst havail hsep hq
    exact execPayloadIn_reads hh ⟨hv, hd, hdst, havail⟩
      (hsep.symm.imp_left Nat.le_of_add_right_le) hq
  · rintro addr count _ _ rfl rfl ha hfit
    exact execBswap16Buf_reads ⟨ha, hfit⟩
  · rintro base len _ _ rfl rfl ha hfit
    have img : s.image (s.natX base) (s.natX len) =
        (List.range s.x[len].toNat).map fun k => s.coreByte (s.x[base].toNat + k) := State.image_eq s _ _
    refine ⟨fun text payload ht himg => execHdrParse_registers ⟨ha, hfit⟩ ht (img.trans himg), fun hno => ?_⟩
    rw [← img] at hno
    exact ⟨_, execHdrParse_rejects ⟨ha, hfit⟩ hno, rfl, congrArg (·.valid) (SameButMem.settle s.invalidate _).hdrInfo⟩

/-- Settles O38: with no answer stated the draw keeps the contract, and a stated Fail is drawn. -/
theorem allocCompletesWhateverTheDraw : Obligations.AllocCompletesWhateverTheDraw := by
  intro rd rw rh rc size s
  refine ⟨execAlloc_unstated rd rw rh rc size, fun rest hans hw hh hc hfit => ?_⟩
  refine execAlloc_statedFail rd hans ((geometryOk_iff _ _ _).mpr ⟨hw, hh, hc⟩) ?_
  change s.intX rw * s.intX rh * s.intX rc * _ ≤ _ at hfit
  generalize s.intX rw * s.intX rh * s.intX rc = count at hfit
  cases size <;> simp only [sampleBytes] at hfit ⊢ <;> omega

/-- Settles O44, by what a command does before its races settle, and its footprint by its operands. -/
theorem commandsWriteOnlyTheirRegions : Obligations.CommandsWriteOnlyTheirRegions := by
  refine ⟨fun i s t h => ⟨fun c hw hr => exec_byteAt h hw hr, exec_mem h, ?_⟩, footprint_bytes,
    fun s w i c hp hd => State.races_iff hp hd c, fun s c hp => State.races_idle hp c,
    fun s w why c hp hd => State.races_illegal hp hd c⟩
  have written := footprint_writes i s
  cases i with
  | cvtH2fBuf _ _ _ | cvtF2hBuf _ _ _ | bswap16Buf _ _ | payloadIn _ _ =>
    exact fun r hr => List.mem_singleton.mp (written r hr)
  | hdrParse _ _ => exact List.eq_nil_iff_forall_not_mem.mpr fun r hr => List.not_mem_nil (written r hr)
  | _ => rfl

/-- Settles O58, by the host's read and write of a byte that does not race, that races, and that does not exist. -/
theorem hostMemoryAccess : Obligations.HostMemoryAccess := by
  intro s addr b
  refine ⟨fun h hr => ⟨hostMemRead_exact h hr, _, hostMemWrite_exact h hr b, rfl, ?_⟩,
    fun h hr => ⟨hostMemRead_raced h hr, _, hostMemWrite_raced h hr b, rfl, ?_⟩, fun h => hostMemory_absent h b⟩
  · exact ⟨s.byteAt_writeByte_same _ b, fun c hc => s.byteAt_writeByte_other _ c b hc⟩
  · exact ⟨s.byteAt_writeByte_same _ b, fun c hc => s.byteAt_writeByte_other _ c b hc⟩

end Sys2Proof.Machine
end

section
/-! The family of 30_encoding.md: the fields that each row of the opcode map fixes (R61 to R66), the decoder by its rows
(R67), its agreement with the encoder (R70), and illegal words (R68). -/
namespace Sys2Proof
open Machine (Within)

/-! ## Bits of a field -/

/-- Two words agree in a field exactly when they agree in its bits (R61). -/
theorem field_eq_iff (v w : Word) (lo len : Nat) :
    v.extractLsb' lo len = w.extractLsb' lo len ↔ ∀ i, Within lo len i → v.getLsbD i = w.getLsbD i := by
  constructor
  · rintro h i ⟨hlo, hhi⟩
    have bit := congrArg (·.getLsbD (i - lo)) h
    have inside : i - lo < len := by omega
    simpa [BitVec.getLsbD_extractLsb', inside, Nat.add_sub_cancel' hlo] using bit
  · intro h
    refine BitVec.eq_of_getLsbD_eq fun i hi => ?_
    simp [BitVec.getLsbD_extractLsb', h (lo + i) ⟨by omega, by omega⟩]

/-- A field is 0 exactly when its bits are. -/
theorem field_zero_iff (w : Word) (lo len : Nat) :
    w.extractLsb' lo len = 0 ↔ ∀ i, Within lo len i → w.getLsbD i = false := by
  simpa using field_eq_iff w 0 lo len

/-! ## The rows of the opcode map by their fields -/

/-- The fields that R66 lists as "must be 0", each by its lowest bit and its width; the reserved bits of [13:0] are one
field. -/
def Op.zeroFields : Op → List (Nat × Nat)
  | .cvtH2f | .cvtF2h | .bswap16 => [(17, 3), (14, 3), (0, 14)]
  | .cvtH2fBuf | .cvtF2hBuf => [(23, 3), (0, 14)]
  | .bswap16Buf | .payloadIn | .hdrParse => [(23, 3), (14, 3), (0, 14)]
  | .alloc => [(0, 13)]
  | .free => [(23, 3), (17, 3), (14, 3), (0, 14)]
  | .csrr => [(20, 3), (17, 3), (14, 3), (0, 10)]

/-- The fields that R66 lists as used, each by its lowest bit and its width. -/
def Op.usedFields : Op → List (Nat × Nat)
  | .cvtH2f | .cvtF2h | .bswap16 => [(23, 3), (20, 3)]
  | .cvtH2fBuf | .cvtF2hBuf => [(20, 3), (17, 3), (14, 3)]
  | .bswap16Buf | .payloadIn | .hdrParse => [(20, 3), (17, 3)]
  | .alloc => [(23, 3), (20, 3), (17, 3), (14, 3), (13, 1)]
  | .free => [(20, 3)]
  | .csrr => [(23, 3), (10, 4)]

/-- The bits below OPC that a row's mask holds are those of the must-be-0 fields (R66). -/
theorem mask_below_opc : ∀ r ∈ opcodeMap, ∀ i < 26,
    (r.mask.getLsbD i = true ↔ ∃ f ∈ r.op.zeroFields, Within f.1 f.2 i) := by decide +kernel

/-- Every row's mask holds OPC (R67). -/
theorem mask_opc : ∀ r ∈ opcodeMap, ∀ i < 32, 26 ≤ i → r.mask.getLsbD i = true := by decide +kernel

/-- A row's pattern is its OPC and 0 below it (R66). -/
theorem pattern_below_opc : ∀ r ∈ opcodeMap, ∀ i < 26, r.pattern.getLsbD i = false := by decide +kernel

/-- OPC is no must-be-0 field. -/
theorem zeroField_below_opc : ∀ r ∈ opcodeMap, ∀ f ∈ r.op.zeroFields, f.1 + f.2 ≤ 26 := by decide

/-- Every bit outside a row's mask is in a field that the row uses (R66). -/
theorem used_of_unmasked : ∀ r ∈ opcodeMap, ∀ i < 32, r.mask.getLsbD i = false →
    ∃ f ∈ r.op.usedFields, Within f.1 f.2 i := by decide +kernel

/-- No two rows have the same OPC (R67). -/
theorem row_eq_of_opc : ∀ r ∈ opcodeMap, ∀ q ∈ opcodeMap, opcField r.pattern = opcField q.pattern → r = q := by decide

/-- No two rows have the same mnemonic. -/
theorem row_eq_of_op : ∀ r ∈ opcodeMap, ∀ q ∈ opcodeMap, r.op = q.op → r = q := by decide

/-- The OPC values of the rows are the assigned ones (R66). -/
theorem mem_assignedOpcodes_iff : ∀ opc : BitVec 6,
    opc.toNat ∈ Machine.assignedOpcodes ↔ ∃ r ∈ opcodeMap, opc = opcField r.pattern := by decide

section
variable {r : Row} (hr : r ∈ opcodeMap) (w : Word)
include hr

/-- A row covers a word exactly when the word's bits under the mask are the pattern's (R67). -/
theorem Row.covers_iff_bits :
    r.covers w = true ↔ ∀ i < 32, r.mask.getLsbD i = true → w.getLsbD i = r.pattern.getLsbD i := by
  rw [Row.covers, beq_iff_eq]
  constructor
  · intro h i _ hm
    simp [← h, hm]
  · intro h
    refine BitVec.eq_of_getLsbD_eq fun i hi => ?_
    rw [BitVec.getLsbD_and]
    cases hm : r.mask.getLsbD i with
    | true => rw [Bool.and_true, h i hi hm]
    | false =>
      have below : i < 26 := by
        by_contra hopc
        simp [mask_opc r hr i hi (by omega)] at hm
      rw [Bool.and_false, pattern_below_opc r hr i below]

/-- A row covers a word exactly when the word's OPC is the row's and every must-be-0 field is 0 (R66, R67). -/
theorem Row.covers_iff_fields : r.covers w = true ↔
    opcField w = opcField r.pattern ∧ ∀ f ∈ r.op.zeroFields, w.extractLsb' f.1 f.2 = 0 := by
  simp only [Row.covers_iff_bits hr, opcField, field_eq_iff, field_zero_iff]
  constructor
  · refine fun h => ⟨fun i ⟨hlo, hhi⟩ => h i hhi (mask_opc r hr i hhi hlo), fun f hf i hi => ?_⟩
    have below : i < 26 := Nat.lt_of_lt_of_le hi.2 (zeroField_below_opc r hr f hf)
    rw [h i (by omega) ((mask_below_opc r hr i below).mpr ⟨f, hf, hi⟩), pattern_below_opc r hr i below]
  · rintro ⟨hopc, hzero⟩ i hi hm
    rcases Nat.lt_or_ge i 26 with below | above
    · obtain ⟨f, hf, hin⟩ := (mask_below_opc r hr i below).mp hm
      rw [hzero f hf i hin, pattern_below_opc r hr i below]
    · exact hopc i ⟨above, hi⟩

end

/-- At most one row covers a word, because the rows' OPC values differ (R67). -/
theorem Row.eq_of_covers {r q : Row} {w : Word} (hr : r ∈ opcodeMap) (hq : q ∈ opcodeMap) (hrw : r.covers w = true)
    (hqw : q.covers w = true) : r = q :=
  row_eq_of_opc r hr q hq
    (((Row.covers_iff_fields hr w).mp hrw).1.symm.trans ((Row.covers_iff_fields hq w).mp hqw).1)

/-! ## What a row builds -/

/-- The mnemonic of an instruction (R70). -/
def Instr.op : Instr → Op
  | .cvtH2f _ _ => .cvtH2f
  | .cvtF2h _ _ => .cvtF2h
  | .cvtH2fBuf _ _ _ => .cvtH2fBuf
  | .cvtF2hBuf _ _ _ => .cvtF2hBuf
  | .bswap16 _ _ => .bswap16
  | .bswap16Buf _ _ => .bswap16Buf
  | .payloadIn _ _ => .payloadIn
  | .hdrParse _ _ => .hdrParse
  | .alloc _ _ _ _ _ => .alloc
  | .free _ => .free
  | .csrr _ _ => .csrr

@[simp] theorem Op.op_build (op : Op) (w : Word) : (op.build w).op = op := by cases op <;> rfl

theorem rdField_eq_iff (v w : Word) : rdField v = rdField w ↔ v.extractLsb' 23 3 = w.extractLsb' 23 3 :=
  BitVec.toFin_inj

theorem rs1Field_eq_iff (v w : Word) : rs1Field v = rs1Field w ↔ v.extractLsb' 20 3 = w.extractLsb' 20 3 :=
  BitVec.toFin_inj

theorem rs2Field_eq_iff (v w : Word) : rs2Field v = rs2Field w ↔ v.extractLsb' 17 3 = w.extractLsb' 17 3 :=
  BitVec.toFin_inj

theorem rs3Field_eq_iff (v w : Word) : rs3Field v = rs3Field w ↔ v.extractLsb' 14 3 = w.extractLsb' 14 3 :=
  BitVec.toFin_inj

theorem csrField_eq_iff (v w : Word) : csrField v = csrField w ↔ v.extractLsb' 10 4 = w.extractLsb' 10 4 :=
  BitVec.toFin_inj

/-- Words of the same selector S agree in bit [13] (R63). -/
theorem sField_eq_iff (v w : Word) : sField v = sField w ↔ v.extractLsb' 13 1 = w.extractLsb' 13 1 := by
  have bit : v.extractLsb' 13 1 = w.extractLsb' 13 1 ↔ v.getLsbD 13 = w.getLsbD 13 := by
    rw [field_eq_iff]
    exact ⟨fun h => h 13 (by decide), fun h i hi => by
      obtain rfl : i = 13 := by omega
      exact h⟩
  rw [bit, sField, sField]
  cases v.getLsbD 13 <;> cases w.getLsbD 13 <;> decide

/-- A row builds the same instruction of two words exactly when they agree in every field that it uses (R66). -/
theorem Op.build_eq_iff (op : Op) (v w : Word) :
    op.build v = op.build w ↔ ∀ f ∈ op.usedFields, v.extractLsb' f.1 f.2 = w.extractLsb' f.1 f.2 := by
  cases op <;>
    simp [Op.build, Op.usedFields, rdField_eq_iff, rs1Field_eq_iff, rs2Field_eq_iff, rs3Field_eq_iff, csrField_eq_iff,
      sField_eq_iff]

/-- A word is told by the row that covers it and the row's instruction: every bit of it is fixed by the row or in a field
that the row uses. -/
theorem Row.word_eq_of_build_eq {r : Row} {v w : Word} (hr : r ∈ opcodeMap) (hv : r.covers v = true)
    (hw : r.covers w = true) (h : r.op.build v = r.op.build w) : v = w := by
  refine BitVec.eq_of_getLsbD_eq fun i hi => ?_
  cases hm : r.mask.getLsbD i with
  | true => rw [(Row.covers_iff_bits hr v).mp hv i hi hm, (Row.covers_iff_bits hr w).mp hw i hi hm]
  | false =>
    obtain ⟨f, hf, hin⟩ := used_of_unmasked r hr i hi hm
    exact (field_eq_iff v w f.1 f.2).mp ((Op.build_eq_iff r.op v w).mp h f hf) i hin

/-- A row's instruction is well-formed but for a CSRR of a number above 13 (R66). -/
theorem Op.build_wf (op : Op) (w : Word) :
    (op.build w).wf = true ↔ ¬ (op = .csrr ∧ csrLegal (csrField w) = false) := by
  cases op <;> simp [Op.build, Instr.wf]

/-- The CSR numbers that no CSRR may name are those above 13 (R66). -/
theorem csrLegal_csrField_false (w : Word) :
    csrLegal (csrField w) = false ↔ 13 < (w.extractLsb' 10 4).toNat := by
  simp [csrLegal, csrField]

/-! ## The decoder and the encoder -/

/-- The decoder answers the instruction of the row that covers the word, if it is well-formed (R67). -/
theorem decode_legal_iff (w : Word) (i : Instr) :
    decode w = .legal i ↔ ∃ r ∈ opcodeMap, r.covers w = true ∧ i.wf = true ∧ i = r.op.build w := by
  unfold decode
  cases hfind : opcodeMap.find? (·.covers w) with
  | none =>
    have none_covers := List.find?_eq_none.mp hfind
    simp only [reduceCtorEq, false_iff]
    rintro ⟨r, hr, hw, _⟩
    exact none_covers r hr hw
  | some r =>
    have hr := List.mem_of_find?_eq_some hfind
    have hw : r.covers w = true := List.find?_some (p := fun q : Row => q.covers w) hfind
    have wf := r.op.build_wf w
    dsimp only
    constructor
    · intro h
      split at h
      · cases h
      · rename_i hlegal
        cases h
        exact ⟨r, hr, hw, wf.mpr hlegal, rfl⟩
    · rintro ⟨q, hq, hqw, hi, rfl⟩
      obtain rfl := Row.eq_of_covers hr hq hw hqw
      exact if_neg (wf.mp hi)

/-- Some row covers the word of every instruction, and reads the instruction back from it (R66, R70). -/
theorem encode_covered (i : Instr) : Laws.RowCovers.Statement i := by
  cases i with
  | cvtH2f rd rs1 => exact Laws.RowCovers.cvtH2f rd rs1
  | cvtF2h rd rs1 => exact Laws.RowCovers.cvtF2h rd rs1
  | cvtH2fBuf dst src count => exact Laws.RowCovers.cvtH2fBuf dst src count
  | cvtF2hBuf dst src count => exact Laws.RowCovers.cvtF2hBuf dst src count
  | bswap16 rd rs1 => exact Laws.RowCovers.bswap16 rd rs1
  | bswap16Buf addr count => exact Laws.RowCovers.bswap16Buf addr count
  | payloadIn dst count => exact Laws.RowCovers.payloadIn dst count
  | hdrParse base len => exact Laws.RowCovers.hdrParse base len
  | alloc rd width height channels size => exact Laws.RowCovers.alloc rd width height channels size
  | free base => exact Laws.RowCovers.free base
  | csrr rd csr => exact Laws.RowCovers.csrr rd csr

/-- The encoder gives back the word whose fields a covering row read (R70). -/
theorem encode_build {r : Row} {w : Word} (hr : r ∈ opcodeMap) (hw : r.covers w = true) :
    encode (r.op.build w) = w := by
  obtain ⟨q, hq, hqw, hbuild⟩ := encode_covered (r.op.build w)
  obtain rfl := row_eq_of_op q hq r hr (by simpa using congrArg Instr.op hbuild)
  exact Row.word_eq_of_build_eq hr hqw hw hbuild

/-! ## Illegal words -/

/-- The decoder answers ILLEGAL exactly when it answers no instruction (R67). -/
theorem decode_illegal_iff (w : Word) : (∃ why, decode w = .illegal why) ↔ ∀ i, decode w ≠ .legal i := by
  cases decode w <;> simp

/-- `mustBeZeroBroken` speaks of the row's must-be-0 fields (R66). -/
theorem mustBeZeroBroken_iff {r : Row} {w : Word} (hr : r ∈ opcodeMap) (hw : opcField w = opcField r.pattern) :
    Machine.mustBeZeroBroken w ↔ ∃ f ∈ r.op.zeroFields, w.extractLsb' f.1 f.2 ≠ 0 := by
  have opc : (w.extractLsb' 26 6).toNat = (opcField r.pattern).toNat := congrArg BitVec.toNat hw
  simp only [opcodeMap, List.mem_cons, List.not_mem_nil, or_false] at hr
  rcases hr with rfl | rfl | rfl | rfl | rfl | rfl | rfl | rfl | rfl | rfl | rfl <;>
    simp [Machine.mustBeZeroBroken, opc, opcField, Op.zeroFields]

/-- A row is that of CSRR exactly when its OPC is 0x20 (R66). -/
theorem row_csrr_iff : ∀ r ∈ opcodeMap, (r.op = .csrr ↔ (opcField r.pattern).toNat = 0x20) := by decide

/-- A word is legal exactly when its OPC is assigned, every field that must be 0 is 0 and it is no CSRR of CSR 14 or 15
(R68). -/
theorem decode_legal_iff_fields (w : Word) : (∃ i, decode w = .legal i) ↔
    (opcField w).toNat ∈ Machine.assignedOpcodes ∧ ¬ Machine.mustBeZeroBroken w ∧
      ¬ ((opcField w).toNat = 0x20 ∧ 14 ≤ (w.extractLsb' 10 4).toNat) := by
  have row {r : Row} (hr : r ∈ opcodeMap) (hopc : opcField w = opcField r.pattern) :
      (r.covers w = true ↔ ¬ Machine.mustBeZeroBroken w) ∧
        ((r.op.build w).wf = true ↔ ¬ ((opcField w).toNat = 0x20 ∧ 14 ≤ (w.extractLsb' 10 4).toNat)) := by
    rw [Row.covers_iff_fields hr, mustBeZeroBroken_iff hr hopc, Op.build_wf, row_csrr_iff r hr, csrLegal_csrField_false,
      hopc]
    simp [Nat.succ_le_iff]
  simp only [decode_legal_iff, mem_assignedOpcodes_iff]
  constructor
  · rintro ⟨_, r, hr, hw, hwf, rfl⟩
    have hopc := ((Row.covers_iff_fields hr w).mp hw).1
    obtain ⟨hcovers, hlegal⟩ := row hr hopc
    exact ⟨⟨r, hr, hopc⟩, hcovers.mp hw, hlegal.mp hwf⟩
  · rintro ⟨⟨r, hr, hopc⟩, hzero, hcsr⟩
    obtain ⟨hcovers, hlegal⟩ := row hr hopc
    exact ⟨_, r, hr, hcovers.mpr hzero, hlegal.mpr hcsr, rfl⟩

end Sys2Proof

namespace Sys2Proof.Machine

/-- A pending illegal word completes with ILLEGAL_COMMAND (R68, R126). -/
theorem coreStep_illegal {s : State} {w : Word} {why : Illegal} (hp : s.pending = some w)
    (hd : decode w = .illegal why) : coreStep s = .next (s.finish .illegalCommand) := by
  simp [coreStep, hp, hd, raise]

/-- Settles O1: the row that covers an instruction's word reads the instruction back. -/
theorem decodeOfEncodeIsTheCommand : Obligations.DecodeOfEncodeIsTheCommand := by
  intro i hwf
  obtain ⟨r, hr, hcovers, hbuild⟩ := encode_covered i
  exact (decode_legal_iff _ i).mpr ⟨r, hr, hcovers, hwf, hbuild.symm⟩

/-- Settles O2: every bit of a legal word is fixed by its row or in a field that the row uses. -/
theorem encodeOfDecodeIsTheWord : Obligations.EncodeOfDecodeIsTheWord := by
  intro w i h
  obtain ⟨r, hr, hcovers, hwf, rfl⟩ := (decode_legal_iff w i).mp h
  exact ⟨hwf, encode_build hr hcovers⟩

/-- Settles O3: the rows' OPC values differ, so that the row the decoder finds is the one row that matches. -/
theorem decoderFollowsTheOpcodeMap : Obligations.DecoderFollowsTheOpcodeMap := by
  refine ⟨fun w r q hr hq hrw hqw => ?_, fun w i => ?_, decode_illegal_iff⟩
  · exact Row.eq_of_covers hr hq (beq_iff_eq.mpr hrw) (beq_iff_eq.mpr hqw)
  · rw [decode_legal_iff]
    refine exists_congr fun r => and_congr_right fun _ => and_congr beq_iff_eq ?_
    rw [← csrLegal_csrField_false, ← Op.build_wf]
    exact and_congr_left fun e => by rw [e]

/-- Settles O5, by the fields of a legal word and the CORE's move on an illegal one. -/
theorem illegalCommandsOnlyWriteStatus : Obligations.IllegalCommandsOnlyWriteStatus := by
  refine ⟨fun w => ?_, ⟨.reservedOpcode, by decide +kernel⟩, fun s s₀ w why hm hp hd => ?_⟩
  · rw [decode_illegal_iff, ← not_exists, decode_legal_iff_fields]
    simp only [opcField]
    tauto
  · obtain ⟨hst, hpe⟩ := hm.kept
    have tick : s₀.tick = s.tick := by rcases hm with ⟨_, rfl⟩ | ⟨_, _, rfl⟩ <;> rfl
    rw [hm.step_eq, coreStep_illegal (hpe.trans hp) hd, State.finish, Status.complete, hst, tick]
    simp [ResultCode.bits]

/-- Settles O4: each example word is the encoding of its instruction. -/
theorem exampleWordsDecode : Obligations.ExampleWordsDecode :=
  have decodes := decodeOfEncodeIsTheCommand
  ⟨decodes (.cvtH2f 2 1) rfl, decodes (.cvtH2fBuf 1 2 3) rfl, decodes (.cvtF2h 3 2) rfl,
    decodes (.cvtF2hBuf 1 2 3) rfl, decodes (.hdrParse 1 2) rfl, decodes (.bswap16 4 3) rfl,
    decodes (.bswap16Buf 1 2) rfl, decodes (.payloadIn 3 4) rfl, decodes (.alloc 5 1 2 3 .half) rfl,
    decodes (.free 5) rfl, decodes (.csrr 6 4) rfl⟩

end Sys2Proof.Machine
end

section
/-! The family of 40_fp16_to_fp32.md: the fields of h2f's result (R76 to R82), CVT.H2F with the register conversions
beside it (R84), and CVT.H2F.BUF with the element loops beside it (R85). -/
namespace Sys2Proof.Machine

/-! ## The fields of a half and of its float32 (R72, R73) -/

/-- The exponent field of a half. -/
abbrev halfExponent (h : Half) : Nat := (h.extractLsb' 10 5).toNat

/-- The mantissa field of a half. -/
abbrev halfMantissa (h : Half) : Nat := (h.extractLsb' 0 10).toNat

/-- The exponent field of a float32. -/
abbrev floatExponent (f : Word) : Nat := (f.extractLsb' 23 8).toNat

/-- The mantissa field of a float32. -/
abbrev floatMantissa (f : Word) : Nat := (f.extractLsb' 0 23).toNat

/-- A word is its sign bit, its e exponent bits and its m mantissa bits. -/
theorem eq_of_fields (m e : Nat) {x y : BitVec (m + e + 1)} (hs : x.getLsbD (m + e) = y.getLsbD (m + e))
    (he : x.extractLsb' m e = y.extractLsb' m e) (hm : x.extractLsb' 0 m = y.extractLsb' 0 m) : x = y := by
  apply BitVec.eq_of_getLsbD_eq
  intro i hi
  by_cases mantissa : i < m
  · simpa [mantissa] using congrArg (·.getLsbD i) hm
  by_cases exponent : i < m + e
  · have bit := congrArg (·.getLsbD (i - m)) he
    simp only [BitVec.getLsbD_extractLsb', show i - m < e by omega, show m + (i - m) = i by omega] at bit
    simpa using bit
  · rwa [show i = m + e by omega]

/-- A sign, an exponent and a mantissa packed into 32 bits, as a number. -/
theorem packed_eq (sign : Bool) {E M : Nat} (hE : E < 2 ^ 8) (hM : M < 2 ^ 23) :
    (sign.toNat <<< 31) ||| ((E <<< 23) ||| M) = sign.toNat * 2 ^ 31 + (E * 2 ^ 23 + M) := by
  have low : E <<< 23 + M < 2 ^ 31 := by rw [Nat.shiftLeft_eq]; omega
  rw [← Nat.shiftLeft_add_eq_or_of_lt hM, ← Nat.shiftLeft_add_eq_or_of_lt low, Nat.shiftLeft_eq, Nat.shiftLeft_eq]

/-- The fields that a float32 word was packed from. -/
theorem packed_fields (sign : Bool) {E M : Nat} (hE : E < 2 ^ 8) (hM : M < 2 ^ 23) {f : Word}
    (hf : f = BitVec.ofNat 32 ((sign.toNat <<< 31) ||| ((E <<< 23) ||| M))) :
    f.getLsbD 31 = sign ∧ floatExponent f = E ∧ floatMantissa f = M := by
  have hs := sign.toNat_lt
  have hn : f.toNat = sign.toNat * 2 ^ 31 + (E * 2 ^ 23 + M) := by
    rw [hf, packed_eq sign hE hM, BitVec.toNat_ofNat]
    omega
  have msb : f.getLsbD 31 = decide (2 ^ 31 ≤ f.toNat) := f.msb_eq_getLsbD_last.symm.trans f.msb_eq_decide
  simp only [msb, floatExponent, floatMantissa, BitVec.extractLsb'_toNat, Nat.shiftRight_eq_div_pow, hn]
  refine ⟨?_, by omega, by omega⟩
  cases sign
  · exact decide_eq_false (by simp only [Bool.toNat_false]; omega)
  · exact decide_eq_true (by simp only [Bool.toNat_true]; omega)

/-! ## The cases of h2f (R77 to R80) -/

/-- h2f takes the exponent and mantissa fields e, m of a half to the fields E, M of a float32. -/
inductive H2fFields : (e m E M : Nat) → Prop where
  | zero : H2fFields 0 0 0 0
  | denormal {m M : Nat} : m ≠ 0 → m < 2 ^ 10 → 2 ^ 23 + M = m * 2 ^ (23 - m.log2) → H2fFields 0 m (m.log2 + 103) M
  | normal {e m : Nat} : 1 ≤ e → e ≤ 30 → m < 2 ^ 10 → H2fFields e m (e + 112) (m * 2 ^ 13)
  | special {m : Nat} : m < 2 ^ 10 → H2fFields 31 m 255 (m * 2 ^ 13)

/-- The leading bit of a half denormal's mantissa is below bit 10. -/
theorem log2_le_nine {m : Nat} (h0 : m ≠ 0) (hm : m < 2 ^ 10) : m.log2 ≤ 9 :=
  Nat.le_of_lt_succ ((Nat.log2_lt h0).mpr hm)

/-- A half denormal's mantissa, shifted to bring its leading bit to bit 23 (R78). -/
theorem denormal_shifted {m : Nat} (h0 : m ≠ 0) (hm : m < 2 ^ 10) :
    2 ^ 23 ≤ m * 2 ^ (23 - m.log2) ∧ m * 2 ^ (23 - m.log2) < 2 ^ 24 := by
  have hlog := log2_le_nine h0 hm
  constructor
  · calc 2 ^ 23 = 2 ^ m.log2 * 2 ^ (23 - m.log2) := by rw [← Nat.pow_add]; congr 1; omega
      _ ≤ m * 2 ^ (23 - m.log2) := Nat.mul_le_mul_right _ (Nat.log2_self_le h0)
  · calc m * 2 ^ (23 - m.log2) < 2 ^ (m.log2 + 1) * 2 ^ (23 - m.log2) :=
          Nat.mul_lt_mul_of_pos_right Nat.lt_log2_self (Nat.two_pow_pos _)
      _ = 2 ^ 24 := by rw [← Nat.pow_add]; congr 1; omega

section
variable {e m E M : Nat} (h : H2fFields e m E M)
include h

/-- The result's fields fit their 8 and 23 bits. -/
theorem H2fFields.lt : E < 2 ^ 8 ∧ M < 2 ^ 23 := by
  cases h with
  | zero => decide
  | denormal h0 hm hM =>
    have hlog := log2_le_nine h0 hm
    have hlt := (denormal_shifted h0 hm).2
    omega
  | normal _ _ _ | special _ => omega

/-- No case gives a float32 denormal (R82). -/
theorem H2fFields.mantissa_zero (hE : E = 0) : M = 0 := by
  cases h with
  | zero => rfl
  | denormal _ _ _ | normal _ _ _ | special _ => omega

/-- Only an infinity or a NaN gives E = 255. -/
theorem H2fFields.exponent_max (hE : E = 255) : e = 31 := by
  cases h with
  | zero => cases hE
  | denormal h0 hm _ => have := log2_le_nine h0 hm; omega
  | normal _ _ _ => omega
  | special _ => rfl

/-- A half denormal leaves the low 14 bits of the mantissa 0: its 10 bits are shifted left by 14 at least. -/
theorem H2fFields.low14 (he : e = 0) : M % 2 ^ 14 = 0 := by
  cases h with
  | zero => rfl
  | denormal h0 hm hM =>
    have hlog := log2_le_nine h0 hm
    have dvd : 2 ^ 14 ∣ m * 2 ^ (23 - m.log2) := (Nat.pow_dvd_pow 2 (by omega)).mul_left m
    omega
  | normal _ _ _ => omega
  | special _ => cases he

/-- Every half leaves the low 13 bits of the mantissa 0 (R82). -/
theorem H2fFields.low13 : M % 2 ^ 13 = 0 := by
  cases h with
  | zero => rfl
  | denormal h0 hm hM => have := (H2fFields.denormal h0 hm hM).low14 rfl; omega
  | normal _ _ _ | special _ => exact Nat.mul_mod_left _ _

/-- A normal half's exponent is re-biased and its mantissa shifted (R80). -/
theorem H2fFields.of_normal (h1 : 1 ≤ e) (h30 : e ≤ 30) : E = e + 112 ∧ M = m * 2 ^ 13 := by
  cases h with
  | zero | denormal _ _ _ => cases h1
  | normal _ _ _ => exact ⟨rfl, rfl⟩
  | special _ => omega

/-- An infinity's or NaN's mantissa is shifted, its quiet bit with it (R79). -/
theorem H2fFields.of_special (he : e = 31) : E = 255 ∧ M = m * 2 ^ 13 := by
  cases h with
  | zero | denormal _ _ _ => cases he
  | normal _ _ _ => omega
  | special _ => exact ⟨rfl, rfl⟩

/-- The half's fields, computed back from the result's. -/
theorem H2fFields.inverse : e = (if E = 255 then 31 else E - 112) ∧
    m = if E = 0 then 0 else if E ≤ 112 then (2 ^ 23 + M) / 2 ^ (126 - E) else M / 2 ^ 13 := by
  cases h with
  | zero => decide
  | denormal h0 hm hM =>
    have hlog := log2_le_nine h0 hm
    rw [if_neg (by omega), if_neg (by omega), if_pos (by omega), hM,
      show 126 - (m.log2 + 103) = 23 - m.log2 by omega, Nat.mul_div_cancel _ (Nat.two_pow_pos _)]
    omega
  | normal _ _ _ =>
    rw [if_neg (by omega), if_neg (by omega), if_neg (by omega)]
    omega
  | special _ =>
    rw [if_pos rfl, if_neg (by decide), if_neg (by decide)]
    omega

/-- The same real value, for a finite half (R74, R82). -/
theorem H2fFields.exact (he : e ≠ 31) : (if E = 0 then M else (2 ^ 23 + M) * 2 ^ (E - 1)) =
    (if e = 0 then m else (1024 + m) * 2 ^ (e - 1)) * unitsPerHalfUnit := by
  unfold unitsPerHalfUnit
  cases h with
  | zero => rfl
  | denormal h0 hm hM =>
    have hlog := log2_le_nine h0 hm
    rw [if_neg (by omega), if_pos rfl, hM, Nat.mul_assoc, ← Nat.pow_add]
    congr 2
    omega
  | normal h1 _ _ =>
    rw [if_neg (by omega), if_neg (by omega), show e + 112 - 1 = e - 1 + 112 by omega, Nat.pow_add]
    ring
  | special _ => exact absurd rfl he

end

/-- The exponent and mantissa that h2f packs, by the fields of the half. -/
def h2fMagnitude (e m : Nat) : Nat :=
  if e = 0 ∧ m = 0 then 0
  else if e = 0 then ((m.log2 + 103) <<< 23) ||| ((m <<< (23 - m.log2)) &&& 0x7FFFFF)
  else if e = 31 then (0xFF <<< 23) ||| (m <<< 13)
  else ((e + 112) <<< 23) ||| (m <<< 13)

/-- h2f packs the copied sign and the magnitude (R76, R77). -/
theorem h2f_eq (h : Half) :
    h2f h = BitVec.ofNat 32 ((h.msb.toNat <<< 31) ||| h2fMagnitude (halfExponent h) (halfMantissa h)) := rfl

/-- The four cases of h2f (R76). -/
theorem h2fMagnitude_cases {e m : Nat} (he : e < 2 ^ 5) (hm : m < 2 ^ 10) :
    ∃ E M, H2fFields e m E M ∧ h2fMagnitude e m = (E <<< 23) ||| M := by
  unfold h2fMagnitude
  split
  · next hz =>
    obtain ⟨rfl, rfl⟩ := hz
    exact ⟨0, 0, .zero, rfl⟩
  next hz =>
  split
  · next h0 =>
    subst h0
    have hm0 : m ≠ 0 := fun hm0 => hz ⟨rfl, hm0⟩
    have shifted := denormal_shifted hm0 hm
    refine ⟨_, _, .denormal hm0 hm ?_, rfl⟩
    rw [Nat.and_two_pow_sub_one_eq_mod _ 23, Nat.shiftLeft_eq]
    omega
  split
  · next h31 =>
    subst h31
    exact ⟨_, _, .special hm, by rw [Nat.shiftLeft_eq m]⟩
  · exact ⟨_, _, .normal (by omega) (by omega) hm, by rw [Nat.shiftLeft_eq m]⟩

/-- The three fields of h2f's result: the sign is copied, the others are those of the half's case (R77 to R80). -/
theorem h2f_fields (h : Half) : (h2f h).getLsbD 31 = h.getLsbD 15 ∧
    H2fFields (halfExponent h) (halfMantissa h) (floatExponent (h2f h)) (floatMantissa (h2f h)) := by
  obtain ⟨E, M, hcase, hmag⟩ := h2fMagnitude_cases (h.extractLsb' 10 5).isLt (h.extractLsb' 0 10).isLt
  obtain ⟨hE, hM⟩ := hcase.lt
  obtain ⟨hs, rfl, rfl⟩ := packed_fields h.msb hE hM (hmag ▸ h2f_eq h)
  exact ⟨hs, hcase⟩

/-- The low k bits of a float32 are 0 where 2^k divides its mantissa field. -/
theorem low_bits_zero {f : Word} {k : Nat} (hk : k ≤ 23) (h : floatMantissa f % 2 ^ k = 0) :
    f.extractLsb' 0 k = 0 := by
  apply BitVec.eq_of_toNat_eq
  simp only [floatMantissa, BitVec.extractLsb'_toNat, Nat.shiftRight_zero] at h ⊢
  rwa [Nat.mod_mod_of_dvd _ (Nat.pow_dvd_pow 2 hk)] at h

/-- The upper ten bits of a float32's mantissa, where h2f puts the half's (R79). -/
theorem high_mantissa_toNat (f : Word) : (f.extractLsb' 13 10).toNat = floatMantissa f / 2 ^ 13 := by
  simp only [floatMantissa, BitVec.extractLsb'_toNat, Nat.shiftRight_eq_div_pow]
  omega

/-- The infinities (R79). -/
theorem h2f_infinity {h : Half} (he : h.extractLsb' 10 5 = 31) (hm : h.extractLsb' 0 10 = 0) :
    h2f h = if h.getLsbD 15 then 0xFF800000 else 0x7F800000 := by
  obtain ⟨hs, hcase⟩ := h2f_fields h
  obtain ⟨hE, hM⟩ := hcase.of_special (congrArg BitVec.toNat he)
  rw [halfMantissa, hm] at hM
  have word (w : Word) (ws : w.getLsbD 31 = h.getLsbD 15) (we : floatExponent w = 255) (wm : floatMantissa w = 0) :
      h2f h = w :=
    eq_of_fields 23 8 (hs.trans ws.symm) (BitVec.eq_of_toNat_eq (hE.trans we.symm))
      (BitVec.eq_of_toNat_eq (hM.trans wm.symm))
  split
  · next sign => exact word _ sign.symm rfl rfl
  · next sign => exact word _ (Bool.eq_false_iff.mpr sign).symm rfl rfl

/-- Exponent field 31 is left to the infinities and the NaNs (R74). -/
theorem exponent_ne_of_finite {h : Half} (hnan : halfIsNan h = false) (hinf : halfIsInf h = false) :
    halfExponent h ≠ 31 := by
  intro he
  have he' : h.extractLsb' 10 5 = 31 := BitVec.eq_of_toNat_eq he
  simp only [halfIsNan, halfIsInf, he', BEq.rfl, Bool.true_and, bne_eq_false_iff_eq, beq_eq_false_iff_ne] at hnan hinf
  exact hinf hnan

/-! ## The register conversions (R84, R96, R112) -/

/-- A command that writes one register and ends with OK. -/
theorem done_setX (s : State) (rd : XReg) (v : Word) :
    done (s.setX rd v) = .next { finishedOk s with x := s.x.set rd v } := by
  rw [done, State.finish_ok]
  rfl

/-- The half operand is the register's low 16 bits as a number (R65). -/
theorem State.halfX_eq (s : State) (i : XReg) : s.halfX i = BitVec.ofNat 16 (s.x[i].toNat % 2 ^ 16) := by
  apply BitVec.eq_of_toNat_eq
  rw [State.halfX, State.getX_eq, BitVec.extractLsb'_toNat, Nat.shiftRight_zero, BitVec.toNat_ofNat, Nat.mod_mod]

/-- The half that BSWAP16 writes, by the two low bytes of its register (R112). -/
theorem swap16_halfX_toNat (s : State) (i : XReg) :
    (swap16 (s.halfX i)).toNat = s.x[i].toNat % 2 ^ 8 * 2 ^ 8 + s.x[i].toNat / 2 ^ 8 % 2 ^ 8 := by
  simp only [swap16, toNat_append2, BitVec.extractLsb'_toNat, s.halfX_eq i, BitVec.toNat_ofNat,
    Nat.shiftRight_eq_div_pow]
  omega

/-! ## The element loops, element by element (D18) -/

/-- The memories that an ascending loop passes through are a run of its elements. -/
theorem WritesElement.elementByElement {d w n : Nat} {body : Nat → State → State} (h : WritesElement d w body)
    {s : State} {element : Nat → (Nat → Byte) → (Nat → Byte) → Prop}
    (helement : ∀ i < n, ∀ t, SameButMem s t → element i t.byteAt (body i t).byteAt) :
    ElementByElement n element s.byteAt (ascending body n s).byteAt :=
  ⟨fun i => (ascending body i s).byteAt, rfl, rfl, fun i hi => helement i hi _ (h.loop_same i s)⟩

/-- Where the host has touched none of the regions, a loop leaves no race of them to settle (R146 item 1). -/
theorem WritesElement.settle_loop {d w n : Nat} {body : Nat → State → State} (h : WritesElement d w body) {s : State}
    {rs : List Region} (hq : s.Quiet rs) : (ascending body n s).settle rs = ascending body n s :=
  State.settle_quiet _ rs ((h.loop_same n s).quiet hq)

/-- A command reads an element of a quiet source as memory holds it. -/
theorem State.Quiet.get_coreByte {s : State} {a w n : Nat} {rs : List Region} (h : s.Quiet (⟨a, w * n⟩ :: rs))
    {V : Type} {get : (Nat → Byte) → Nat → V}
    (hget : ∀ m m' a, (∀ k < w, m (a + k) = m' (a + k)) → get m a = get m' a) {i : Nat} (hi : i < n) :
    get s.coreByte (a + w * i) = get s.byteAt (a + w * i) := by
  refine hget _ _ _ fun k hk => s.coreByte_quiet _ _ h ((inRegions_iff _ _).mpr ⟨_, List.mem_cons_self, ?_⟩)
  have := element_end_le a w hi
  dsimp only
  omega

section
variable {s : State} {d a n : Nat}

/-- The run of CVT.H2F.BUF (R85). -/
theorem h2fBuf_elementByElement (hq : s.Quiet [⟨a, 2 * n⟩, ⟨d, 4 * n⟩]) :
    ElementByElement n (fun i m m' => StoresFloat s.hostBe m m' (d + 4 * i) (h2f (halfAt s.hostBe m (a + 2 * i))))
      s.byteAt (ascending (h2fSample d a) n s).byteAt := by
  refine (WritesElement.h2fSample d a).elementByElement fun i hi t ht => ?_
  have stores := h2fSample_stores d a i t
  rwa [(ht.quiet hq).get_coreByte (fun m m' c => halfAt_congr_bytes _ m m' c) hi, ht.hostBe] at stores

/-- The run of CVT.F2H.BUF (R97). -/
theorem f2hBuf_elementByElement (hq : s.Quiet [⟨a, 4 * n⟩, ⟨d, 2 * n⟩]) :
    ElementByElement n (fun i m m' => StoresHalf s.hostBe m m' (d + 2 * i) (f2h (floatAt s.hostBe m (a + 4 * i))))
      s.byteAt (ascending (f2hSample d a) n s).byteAt := by
  refine (WritesElement.f2hSample d a).elementByElement fun i hi t ht => ?_
  have stores := f2hSample_stores d a i t
  rwa [(ht.quiet hq).get_coreByte (fun m m' c => floatAt_congr _ m m' c c) hi, ht.hostBe] at stores

/-- The run of PAYLOAD.IN (R114). -/
theorem payloadIn_elementByElement (hq : s.Quiet [⟨a, 2 * n⟩, ⟨d, 2 * n⟩]) :
    ElementByElement n
      (fun i m m' => StoresHalf s.hostBe m m' (d + 2 * i) (halfAt s.hdrInfo.storedBe m (a + 2 * i)))
      s.byteAt (ascending (payloadSample s.swapNeeded d a) n s).byteAt := by
  refine (WritesElement.payloadSample s.swapNeeded d a).elementByElement fun i hi t ht => ?_
  have stores := payloadSample_stores d a i t
  have swap : t.swapNeeded = s.swapNeeded := by rw [State.swapNeeded, ht.hdrInfo, ht.hostBe, State.swapNeeded]
  rwa [(ht.quiet hq).get_coreByte (fun m m' c => halfAt_congr_bytes _ m m' c) hi, swap, ht.hostBe, ht.hdrInfo]
    at stores

end

/-! ## The buffer commands without races (R146) -/

/-- CVT.H2F.BUF whose checks pass ends as its element loop leaves memory (R85). -/
theorem execCvtH2fBuf_quiet {dst src count : XReg} {s : State} (hk : AccessChecked (.cvtH2fBuf dst src count) s)
    (hq : s.Quiet (h2fBufFootprint dst src count s).all) :
    execCvtH2fBuf dst src count s =
      .next ((ascending (h2fSample (s.natX dst) (s.natX src)) (s.natX count) s).finish .ok) := by
  rw [execCvtH2fBuf_eq, if_pos ((h2fBufOk_iff_checked ..).mpr hk), State.afterH2fBuf,
    (WritesElement.h2fSample _ _).settle_loop hq]

/-- CVT.F2H.BUF whose checks pass ends as its element loop leaves memory (R97). -/
theorem execCvtF2hBuf_quiet {dst src count : XReg} {s : State} (hk : AccessChecked (.cvtF2hBuf dst src count) s)
    (hq : s.Quiet (f2hBufFootprint dst src count s).all) :
    execCvtF2hBuf dst src count s =
      .next ((ascending (f2hSample (s.natX dst) (s.natX src)) (s.natX count) s).finish .ok) := by
  rw [execCvtF2hBuf_eq, if_pos ((f2hBufOk_iff_checked ..).mpr hk), State.afterF2hBuf,
    (WritesElement.f2hSample _ _).settle_loop hq]

/-- PAYLOAD.IN whose checks pass ends as its element loop leaves memory (R114). -/
theorem execPayloadIn_quiet {dst count : XReg} {s : State} (hh : s.HdrInv) (hk : AccessChecked (.payloadIn dst count) s)
    (hq : s.Quiet (payloadInFootprint dst count s).all) :
    execPayloadIn dst count s =
      .next ((ascending (payloadSample s.swapNeeded (s.natX dst) s.hdrPbase.toNat) (s.natX count) s).finish .ok) := by
  rw [execPayloadIn_completes hh hk, State.afterPayloadIn, (WritesElement.payloadSample _ _ _).settle_loop hq]

/-! ## The obligations -/

/-- Settles O14, case by case of h2f; it is injective because the result's fields give the half's back. -/
theorem h2fIsExactAndInjective : Obligations.H2fIsExactAndInjective := by
  refine ⟨fun h hnan => ?_, fun h k hhk => ?_, fun h hE => ?_, fun h => ?_, fun h he => ?_⟩
  · obtain ⟨hs, hcase⟩ := h2f_fields h
    refine ⟨hs, fun hinf => ?_, fun hinf => ?_⟩
    · simp only [halfIsInf, Bool.and_eq_true, beq_iff_eq] at hinf
      rw [h2f_infinity hinf.1 hinf.2]
      split <;> rfl
    · have finite := exponent_ne_of_finite hnan hinf
      exact ⟨fun hE => finite (hcase.exponent_max (congrArg BitVec.toNat hE)), hcase.exact finite⟩
  · obtain ⟨hs, hh⟩ := h2f_fields h
    obtain ⟨ks, hk⟩ := h2f_fields k
    rw [← hhk] at hk ks
    exact eq_of_fields 10 5 (hs.symm.trans ks) (BitVec.eq_of_toNat_eq (hh.inverse.1.trans hk.inverse.1.symm))
      (BitVec.eq_of_toNat_eq (hh.inverse.2.trans hk.inverse.2.symm))
  · exact BitVec.eq_of_toNat_eq ((h2f_fields h).2.mantissa_zero (congrArg BitVec.toNat hE))
  · exact low_bits_zero (by decide) (h2f_fields h).2.low13
  · exact low_bits_zero (by decide) ((h2f_fields h).2.low14 (congrArg BitVec.toNat he))

/-- Settles O22: the loop converts each source sample as it is before the command, and nothing races. -/
theorem cvtH2fBufConvertsEverySample : Obligations.CvtH2fBufConvertsEverySample := by
  rintro dst src count s _ _ _ rfl rfl rfl ha hsrc hd hdst hsep hq
  have loop := WritesElement.h2fSample s.x[dst].toNat s.x[src].toNat
  refine ⟨_, execCvtH2fBuf_quiet ⟨ha, hsrc, hd, hdst⟩ hq, (loop.loop_same _ s).finish_ok, fun i hi => ?_,
    fun c hc => loop.loop_frame _ s hc⟩
  exact (h2fBuf_loop hsep i hi).trans
    (congrArg h2f (hq.get_coreByte (fun m m' c => halfAt_congr_bytes _ m m' c) hi))

/-- Settles O26: without races a command ends as its element loop leaves memory, and a loop is a run of its
elements. -/
theorem bufferCommandsRunElementByElement : Obligations.BufferCommandsRunElementByElement := by
  rintro dst src count s _ _ _ rfl rfl rfl hd
  refine ⟨fun ha hsrc hdst hq => ?_, fun ha hsrc hdst hq => ?_, fun p hp hh hv havail hdst hq => ?_⟩
  · exact ⟨_, execCvtH2fBuf_quiet ⟨ha, hsrc, hd, hdst⟩ hq, ((WritesElement.h2fSample _ _).loop_same _ s).finish_ok,
      h2fBuf_elementByElement hq⟩
  · exact ⟨_, execCvtF2hBuf_quiet ⟨ha, hsrc, hd, hdst⟩ hq, ((WritesElement.f2hSample _ _).loop_same _ s).finish_ok,
      f2hBuf_elementByElement hq⟩
  · subst hp
    exact ⟨_, execPayloadIn_quiet hh ⟨hv, hd, hdst, havail⟩ hq,
      ((WritesElement.payloadSample _ _ _).loop_same _ s).finish_ok, payloadIn_elementByElement hq⟩

/-- Settles O8: each command writes its result to x[rd] and completes. -/
theorem registerConversionsComplete : Obligations.RegisterConversionsComplete := by
  refine fun rd rs1 s => ⟨?_, ?_, ?_⟩
  · rw [← s.halfX_eq rs1]
    exact done_setX s rd _
  · rw [BitVec.ofNat_toNat]
    exact done_setX s rd _
  · rw [← swap16_halfX_toNat, BitVec.ofNat_toNat]
    exact done_setX s rd _

/-- Settles O11, by the sign among the fields of h2f's result. -/
theorem h2fCopiesTheSign : Obligations.H2fCopiesTheSign := fun h => (h2f_fields h).1

/-- Settles O12: the result's exponent field is 255 and its mantissa the half's, shifted. -/
theorem h2fOfInfAndNan : Obligations.H2fOfInfAndNan := by
  intro h he
  have hcase := (h2f_fields h).2
  obtain ⟨hE, hM⟩ := hcase.of_special (congrArg BitVec.toNat he)
  have high : (h2f h).extractLsb' 13 10 = h.extractLsb' 0 10 := by
    apply BitVec.eq_of_toNat_eq
    rw [high_mantissa_toNat, hM, Nat.mul_div_cancel _ (by decide)]
  refine ⟨BitVec.eq_of_toNat_eq hE, high, low_bits_zero (by decide) hcase.low13, h2f_infinity he, ?_, fun hm hM0 => ?_⟩
  · simpa [BitVec.getLsbD_extractLsb'] using congrArg (·.getLsbD 9) high
  · rw [floatMantissa, hM0] at hM
    exact hm (BitVec.eq_of_toNat_eq (show halfMantissa h = 0 by simpa using hM))

/-- Settles O13, by the one case of h2f that has such an exponent field. -/
theorem h2fOfNormals : Obligations.H2fOfNormals := fun h h1 h30 => (h2f_fields h).2.of_normal h1 h30

end Sys2Proof.Machine
end

section
/-! The family of 41_fp32_to_fp16.md: the magnitude that f2h packs (R86 to R92), the rounding rule (R93), the round
trip through float32 (R95) and CVT.F2H.BUF (R97). -/
namespace Sys2Proof.Machine

/-! ## The magnitudes of the half patterns (R74) -/

/-- The exponent and mantissa of a half, as one 15-bit number. -/
abbrev halfPattern (h : Half) : Nat := h.toNat % 2 ^ 15

/-- A pattern has 15 bits. -/
theorem halfPattern_lt (h : Half) : halfPattern h < 2 ^ 15 := Nat.mod_lt _ (by decide)

/-- The magnitude of a pattern of exponent and mantissa, in units of 2^-24. -/
def patternUnits (x : Nat) : Nat := if x / 1024 = 0 then x % 1024 else (1024 + x % 1024) * 2 ^ (x / 1024 - 1)

/-- The exponent field of a half is its pattern's upper part. -/
theorem halfExponent_eq (h : Half) : halfExponent h = halfPattern h / 1024 := by
  simp only [halfPattern, halfExponent, BitVec.extractLsb'_toNat, Nat.shiftRight_eq_div_pow]
  omega

/-- The mantissa field of a half is its pattern's lower part. -/
theorem halfMantissa_eq (h : Half) : halfMantissa h = halfPattern h % 1024 := by
  simp only [halfPattern, halfMantissa, BitVec.extractLsb'_toNat, Nat.shiftRight_zero]
  omega

/-- A half's magnitude is its pattern's. -/
theorem halfUnits_eq (h : Half) : halfUnits h = patternUnits (halfPattern h) := by
  rw [patternUnits, ← halfExponent_eq, ← halfMantissa_eq]
  rfl

/-- From 1024 * k on the patterns count in steps of 2^k, up to the next binade's first pattern. -/
theorem patternUnits_binade {k q : Nat} (hk : k = 0 ∨ 1024 ≤ q) (hq : q ≤ 2048) :
    patternUnits (1024 * k + q) = q * 2 ^ k := by
  unfold patternUnits
  rcases Nat.lt_or_ge q 1024 with denormal | normal
  · have h0 : k = 0 := by omega
    subst h0
    rw [if_pos (by omega)]
    omega
  rw [if_neg (by omega)]
  rcases Nat.lt_or_ge q 2048 with inside | next
  · rw [show 1024 + (1024 * k + q) % 1024 = q by omega, show (1024 * k + q) / 1024 - 1 = k by omega]
  · rw [show 1024 + (1024 * k + q) % 1024 = 1024 by omega, show (1024 * k + q) / 1024 - 1 = k + 1 by omega,
      show q = 2048 by omega]
    ring

/-- A larger pattern stands for a larger magnitude. -/
theorem patternUnits_strictMono : StrictMono patternUnits := by
  refine strictMono_nat_of_lt_succ fun x => ?_
  obtain ⟨k, q, rfl, hk, hq⟩ : ∃ k q, x = 1024 * k + q ∧ (k = 0 ∨ 1024 ≤ q) ∧ q < 2048 :=
    ⟨x / 1024 - 1, x - 1024 * (x / 1024 - 1), by omega, by omega, by omega⟩
  rw [Nat.add_assoc, patternUnits_binade hk hq.le, patternUnits_binade (by omega) hq]
  exact Nat.mul_lt_mul_of_pos_right q.lt_succ_self (Nat.two_pow_pos k)

/-! ## The rounding rule (R93) -/

/-- The pattern that the magnitude F, in units of 2^-149, rounds to. In the binade k, F counts 2^(124+k), half the
step of its patterns: an odd count is rounded up. From 2^16 on the pattern is the infinity's. -/
inductive RoundsTo (F : Nat) : (r : Nat) → Prop where
  | binade (k : Nat) : k ≤ 29 → F / 2 ^ (124 + k) < 4096 → (k = 0 ∨ 2048 ≤ F / 2 ^ (124 + k)) →
      RoundsTo F (1024 * k + (F / 2 ^ (124 + k) + 1) / 2)
  | overflow : 2 ^ 165 ≤ F → RoundsTo F 0x7C00

/-- No magnitude rounds past the infinity. -/
theorem RoundsTo.le {F r : Nat} (h : RoundsTo F r) : r ≤ 0x7C00 := by
  cases h with
  | binade k hk hp _ => omega
  | overflow _ => exact le_rfl

/-- The magnitude of the pattern r is nearest to F among the patterns up to the infinity, and of two nearest it is the
larger. -/
def IsNearestPattern (F r : Nat) : Prop :=
  ∀ o ≤ 0x7C00,
    apartBy (patternUnits r * unitsPerHalfUnit) F ≤ apartBy (patternUnits o * unitsPerHalfUnit) F ∧
    (apartBy (patternUnits r * unitsPerHalfUnit) F = apartBy (patternUnits o * unitsPerHalfUnit) F →
      patternUnits o ≤ patternUnits r)

/-- Between two neighbours the nearer one is the nearest of all, and in the middle the upper one. -/
theorem isNearestPattern_of_between {F x r : Nat} (hx : patternUnits x * unitsPerHalfUnit ≤ F)
    (hx' : F < patternUnits (x + 1) * unitsPerHalfUnit)
    (hr : (r = x ∧ 2 * F < patternUnits x * unitsPerHalfUnit + patternUnits (x + 1) * unitsPerHalfUnit) ∨
      (r = x + 1 ∧ patternUnits x * unitsPerHalfUnit + patternUnits (x + 1) * unitsPerHalfUnit ≤ 2 * F)) :
    IsNearestPattern F r := by
  intro o _
  unfold unitsPerHalfUnit apartBy at *
  have outside : patternUnits o ≤ patternUnits x ∨ patternUnits (x + 1) ≤ patternUnits o :=
    (Nat.lt_or_ge x o).symm.imp (patternUnits_strictMono.monotone ·) (patternUnits_strictMono.monotone ·)
  rcases hr with ⟨rfl, _⟩ | ⟨rfl, _⟩ <;> omega

/-- The rounding rule gives the nearest pattern, ties away from zero (R93). -/
theorem RoundsTo.isNearestPattern {F r : Nat} (h : RoundsTo F r) : IsNearestPattern F r := by
  cases h with
  | binade k _ hp hk =>
    have lower : F / 2 ^ (124 + k) * 2 ^ (124 + k) ≤ F := Nat.div_mul_le_self _ _
    have upper : F < (F / 2 ^ (124 + k) + 1) * 2 ^ (124 + k) :=
      Nat.lt_mul_of_div_lt (Nat.lt_succ_self _) (Nat.two_pow_pos _)
    generalize F / 2 ^ (124 + k) = p at *
    have units {q : Nat} (hk : k = 0 ∨ 1024 ≤ q) (hq : q ≤ 2048) :
        patternUnits (1024 * k + q) * unitsPerHalfUnit = 2 * q * 2 ^ (124 + k) := by
      rw [patternUnits_binade hk hq, unitsPerHalfUnit, Nat.pow_add]
      ring
    obtain ⟨q, hq⟩ := p.even_or_odd'
    have below := units (q := q) (by omega) (by omega)
    have above := units (q := q + 1) (by omega) (by omega)
    rw [← Nat.add_assoc] at above
    rcases hq with rfl | rfl
    · exact isNearestPattern_of_between (x := 1024 * k + q) (by linarith) (by linarith)
        (.inl ⟨by omega, by linarith⟩)
    · exact isNearestPattern_of_between (x := 1024 * k + q) (by linarith) (by linarith)
        (.inr ⟨by omega, by linarith⟩)
  | overflow hF =>
    intro o ho
    have := patternUnits_strictMono.monotone ho
    have inf : patternUnits 0x7C00 = 2 ^ 40 := by decide
    unfold unitsPerHalfUnit apartBy
    omega

/-! ## The cases of f2h (R87 to R92) -/

/-- The exponent and mantissa that f2h packs, by the fields of the float32. -/
def f2hMagnitude (e m : Nat) : Nat :=
  let newexp : Int := (e : Int) - 127 + 15
  if e = 0 then 0
  else if e = 255 then (31 <<< 10) ||| (if m ≠ 0 then 0x200 else 0)
  else if 31 ≤ newexp then 31 <<< 10
  else if newexp ≤ 0 then f2hDenormal newexp m
  else f2hNormal newexp m

/-- f2h packs the copied sign and the magnitude (R86, R87). -/
theorem f2h_eq (f : Word) :
    f2h f = BitVec.ofNat 16 ((f.msb.toNat <<< 15) ||| f2hMagnitude (floatExponent f) (floatMantissa f)) := rfl

/-- Exponent field 0 is flushed to zero (R88). -/
theorem f2hMagnitude_zero (m : Nat) : f2hMagnitude 0 m = 0 := rfl

/-- Exponent field 255 gives the infinity or the canonical NaN (R89). -/
theorem f2hMagnitude_special (m : Nat) : f2hMagnitude 255 m = if m = 0 then 0x7C00 else 0x7E00 := by
  by_cases h : m = 0 <;> simp [f2hMagnitude, h]

/-- A magnitude counts as many half steps of its binade as the mantissa shifted right by one bit less than f2h's shift. -/
theorem halfSteps_eq_shifted (M : Nat) {j t n : Nat} (h : n = t + j) : M * 2 ^ j / 2 ^ n = M / 2 ^ t := by
  rw [h, Nat.pow_add, Nat.mul_div_mul_right _ _ (Nat.two_pow_pos j)]

section
variable {e m : Nat} (hm : m < 2 ^ 23)
include hm

/-- The underflow case rounds in the binade of the half denormals (R91). -/
theorem f2hDenormal_roundsTo (h1 : 1 ≤ e) (h112 : e ≤ 112) :
    RoundsTo ((2 ^ 23 + m) * 2 ^ (e - 1)) (f2hDenormal ((e : Int) - 127 + 15) m) := by
  have count : (2 ^ 23 + m) * 2 ^ (e - 1) / 2 ^ (124 + 0) = (2 ^ 23 + m) / 2 ^ (125 - e) :=
    halfSteps_eq_shifted _ (by omega)
  have small : (2 ^ 23 + m) / 2 ^ (125 - e) < 4096 := by
    rw [Nat.div_lt_iff_lt_mul (Nat.two_pow_pos _)]
    have := Nat.pow_le_pow_right (n := 2) (by decide) (show 13 ≤ 125 - e by omega)
    omega
  have rounded := RoundsTo.binade 0 (by decide) (count ▸ small) (.inl rfl)
  rw [count] at rounded
  convert rounded using 1
  have hidden : m ||| 0x800000 = 2 ^ 23 + m :=
    (Nat.or_comm _ _).trans (Nat.shiftLeft_add_eq_or_of_lt hm 1).symm
  simp only [f2hDenormal, hidden]
  split
  · next shift =>
    rw [show (13 - ((e : Int) - 127 + 15)).toNat = 125 - e by omega,
      show (14 - ((e : Int) - 127 + 15)).toNat = 125 - e + 1 by omega, Nat.shiftRight_succ,
      Nat.shiftRight_eq_div_pow, Nat.and_one_is_mod]
    split <;> omega
  · next shift =>
    have := Nat.pow_le_pow_right (n := 2) (by decide) (show 24 ≤ 125 - e by omega)
    have zero : (2 ^ 23 + m) / 2 ^ (125 - e) = 0 := Nat.div_eq_of_lt (by omega)
    omega

/-- The normal case rounds in its exponent's binade (R92). -/
theorem f2hNormal_roundsTo (h113 : 113 ≤ e) (h142 : e ≤ 142) :
    RoundsTo ((2 ^ 23 + m) * 2 ^ (e - 1)) (f2hNormal ((e : Int) - 127 + 15) m) := by
  have count : (2 ^ 23 + m) * 2 ^ (e - 1) / 2 ^ (124 + (e - 113)) = (2 ^ 23 + m) / 2 ^ 12 :=
    halfSteps_eq_shifted _ (by omega)
  have rounded := RoundsTo.binade (F := (2 ^ 23 + m) * 2 ^ (e - 1)) (e - 113) (by omega) (by omega) (by omega)
  rw [count] at rounded
  convert rounded using 1
  rw [f2hNormal, show ((e : Int) - 127 + 15).toNat = e - 112 by omega, Nat.shiftRight_eq_div_pow,
    ← Nat.shiftLeft_add_eq_or_of_lt (by omega), Nat.shiftLeft_eq, Nat.testBit_eq_decide_div_mod_eq]
  simp only [decide_eq_true_eq]
  split <;> omega

end

/-- f2h rounds the magnitude of every finite float32 (R88, R90 to R92). -/
theorem f2hMagnitude_roundsTo {f : Word} (h255 : floatExponent f ≠ 255) :
    RoundsTo (floatUnits f) (f2hMagnitude (floatExponent f) (floatMantissa f)) := by
  have hm : floatMantissa f < 2 ^ 23 := BitVec.isLt _
  change RoundsTo
    (if floatExponent f = 0 then floatMantissa f else (2 ^ 23 + floatMantissa f) * 2 ^ (floatExponent f - 1)) _
  generalize floatExponent f = e at *
  generalize floatMantissa f = m at *
  simp only [f2hMagnitude, if_neg h255]
  split
  · have tiny : m / 2 ^ (124 + 0) = 0 := Nat.div_eq_of_lt (by omega)
    have rounded := RoundsTo.binade (F := m) 0 (by decide) (by omega) (.inl rfl)
    rwa [tiny] at rounded
  split
  · refine .overflow ?_
    calc 2 ^ 165 = 2 ^ 23 * 2 ^ 142 := by decide
      _ ≤ (2 ^ 23 + m) * 2 ^ (e - 1) :=
        Nat.mul_le_mul (Nat.le_add_right _ _) (Nat.pow_le_pow_right (by decide) (by omega))
  split
  · exact f2hDenormal_roundsTo hm (by omega) (by omega)
  · exact f2hNormal_roundsTo hm (by omega) (by omega)

/-- The packed exponent and mantissa are at most the canonical NaN's (R87). -/
theorem f2hMagnitude_le (f : Word) : f2hMagnitude (floatExponent f) (floatMantissa f) ≤ 0x7E00 := by
  by_cases h255 : floatExponent f = 255
  · rw [h255, f2hMagnitude_special]
    split <;> decide
  · exact (f2hMagnitude_roundsTo h255).le.trans (by decide)

/-! ## The sign and the pattern of the result (R87) -/

/-- The sign of a half is the bit of 2^15. -/
theorem half_sign (h : Half) : h.getLsbD 15 = decide (2 ^ 15 ≤ h.toNat) :=
  h.msb_eq_getLsbD_last.symm.trans h.msb_eq_decide

/-- Halves of one sign and one pattern are equal. -/
theorem eq_of_sign_of_pattern {h k : Half} (hs : h.getLsbD 15 = k.getLsbD 15) (hp : halfPattern h = halfPattern k) :
    h = k := by
  rw [half_sign, half_sign, decide_eq_decide] at hs
  unfold halfPattern at hp
  exact BitVec.eq_of_toNat_eq (by omega)

/-- f2h copies the sign beside the magnitude (R87). -/
theorem f2h_sign_pattern (f : Word) : (f2h f).getLsbD 15 = f.getLsbD 31 ∧
    halfPattern (f2h f) = f2hMagnitude (floatExponent f) (floatMantissa f) := by
  have hle := f2hMagnitude_le f
  have hs := f.msb.toNat_lt
  have hn : (f2h f).toNat = f.msb.toNat * 2 ^ 15 + f2hMagnitude (floatExponent f) (floatMantissa f) := by
    rw [f2h_eq, ← Nat.shiftLeft_add_eq_or_of_lt (by omega), Nat.shiftLeft_eq, BitVec.toNat_ofNat]
    omega
  rw [half_sign, halfPattern, hn, ← show f.msb = f.getLsbD 31 from f.msb_eq_getLsbD_last]
  refine ⟨?_, by omega⟩
  cases f.msb
  · exact decide_eq_false (by simp only [Bool.toNat_false]; omega)
  · exact decide_eq_true (by simp only [Bool.toNat_true]; omega)

/-- Clearing the sign keeps the pattern. -/
theorem halfPattern_and (h : Half) : halfPattern (h &&& 0x7FFF) = halfPattern h := by
  rw [halfPattern, BitVec.toNat_and, show (0x7FFF : Half).toNat = 2 ^ 15 - 1 from rfl,
    Nat.and_two_pow_sub_one_eq_mod, Nat.mod_mod]

/-- f2h's result with the sign of its argument. -/
theorem f2h_of_magnitude {f : Word} {o : Nat} (h : f2hMagnitude (floatExponent f) (floatMantissa f) = o) :
    f2h f = if f.getLsbD 31 then BitVec.ofNat 16 ((1 <<< 15) ||| o) else BitVec.ofNat 16 o := by
  rw [f2h_eq, h, f.msb_eq_getLsbD_last]
  cases f.getLsbD (32 - 1) <;> simp

/-- f2h's result is the half nearest to a finite float32, ties away from zero (R93). -/
theorem f2h_isNearestPattern {f : Word} (h255 : floatExponent f ≠ 255) :
    IsNearestPattern (floatUnits f) (halfPattern (f2h f)) :=
  (f2h_sign_pattern f).2 ▸ (f2hMagnitude_roundsTo h255).isNearestPattern

/-! ## The round trip (R95) -/

/-- A NaN by the fields as numbers (R74). -/
theorem halfIsNan_iff (h : Half) : halfIsNan h = true ↔ halfExponent h = 31 ∧ halfMantissa h ≠ 0 := by
  rw [halfIsNan, Bool.and_eq_true, beq_iff_eq, bne_iff_ne, ← BitVec.toNat_inj, Ne, ← BitVec.toNat_inj]
  rfl

/-- A finite half is the half nearest to its own value. -/
theorem halfPattern_roundTrip {h : Half} (hfin : halfExponent h ≠ 31) : halfPattern (f2h (h2f h)) = halfPattern h := by
  have hcase := (h2f_fields h).2
  have value : floatUnits (h2f h) = patternUnits (halfPattern h) * unitsPerHalfUnit :=
    (hcase.exact hfin).trans (congrArg (· * unitsPerHalfUnit) (halfUnits_eq h))
  have hle : halfPattern h ≤ 0x7C00 := by
    have := halfPattern_lt h
    rw [halfExponent_eq] at hfin
    omega
  have near := (f2h_isNearestPattern (mt hcase.exponent_max hfin) _ hle).1
  rw [value] at near
  unfold apartBy unitsPerHalfUnit at near
  exact patternUnits_strictMono.injective (by omega)

/-- An infinity comes back as infinity, a NaN as the canonical NaN. -/
theorem f2hMagnitude_roundTrip_special {h : Half} (he : halfExponent h = 31) :
    f2hMagnitude (floatExponent (h2f h)) (floatMantissa (h2f h)) = if halfMantissa h = 0 then 0x7C00 else 0x7E00 := by
  obtain ⟨hE, hM⟩ := (h2f_fields h).2.of_special he
  rw [hE, hM, f2hMagnitude_special]
  exact if_congr (by omega) rfl rfl

/-! ## The obligations -/

/-- Settles O15: the magnitude beside the copied sign is at most 0x7E00. -/
theorem f2hCopiesTheSign : Obligations.F2hCopiesTheSign := by
  refine fun f => ⟨(f2h_sign_pattern f).1, ?_⟩
  have hp := (f2h_sign_pattern f).2
  rw [BitVec.extractLsb'_toNat, Nat.shiftRight_zero]
  exact hp.trans_le (f2hMagnitude_le f)

/-- Settles O16, by the magnitudes of the exponent fields 0 and 255. -/
theorem f2hOfZeroInfAndNan : Obligations.F2hOfZeroInfAndNan := by
  refine fun f => ⟨fun he => ?_, fun he hm => ?_, fun he hm => ?_⟩
  · exact f2h_of_magnitude (o := 0) (by rw [floatExponent, he]; exact f2hMagnitude_zero _)
  · exact f2h_of_magnitude (o := 0x7C00) (by rw [floatExponent, he, floatMantissa, hm]; exact f2hMagnitude_special 0)
  · have hM : floatMantissa f ≠ 0 := fun h0 => hm (BitVec.eq_of_toNat_eq h0)
    exact f2h_of_magnitude (o := 0x7E00) (by rw [floatExponent, he]; exact (f2hMagnitude_special _).trans (if_neg hM))

/-- Settles O17: f2h rounds to the nearest pattern, and the four words are computed. -/
theorem f2hRoundsToNearestTiesAway : Obligations.F2hRoundsToNearestTiesAway := by
  refine ⟨?_, by decide, by decide, by decide, by decide⟩
  rintro f o h255 ho _ rfl
  have nearest := f2h_isNearestPattern (f := f) fun he => h255 (BitVec.eq_of_toNat_eq he)
  rw [halfUnits_eq, halfUnits_eq o, halfPattern_and]
  exact nearest (halfPattern o) ((Nat.mod_le _ _).trans ho)

/-- Settles O18: a finite half is nearest to its own value; the infinities and the NaNs keep their class and sign. -/
theorem halfSurvivesTheRoundTrip : Obligations.HalfSurvivesTheRoundTrip := by
  intro h
  have sign := (h2f_fields h).1
  refine ⟨fun hnan => ?_, fun hnan => ?_⟩
  · refine eq_of_sign_of_pattern ((f2h_sign_pattern _).1.trans sign) ?_
    by_cases he : halfExponent h = 31
    · have hm : halfMantissa h = 0 := by
        by_contra hm
        exact Bool.false_ne_true (hnan.symm.trans ((halfIsNan_iff h).mpr ⟨he, hm⟩))
      rw [(f2h_sign_pattern _).2, f2hMagnitude_roundTrip_special he, if_pos hm]
      rw [halfExponent_eq] at he
      rw [halfMantissa_eq] at hm
      omega
    · exact halfPattern_roundTrip he
  · obtain ⟨he, hm⟩ := (halfIsNan_iff h).mp hnan
    rw [f2h_of_magnitude ((f2hMagnitude_roundTrip_special he).trans (if_neg hm)), sign]
    rfl

/-- Settles O23: the loop packs each source sample as it is before the command, and nothing races. -/
theorem cvtF2hBufPacksInPlace : Obligations.CvtF2hBufPacksInPlace := by
  rintro dst src count s _ _ _ rfl rfl rfl ha hsrc hd hdst hsep hq
  have loop := WritesElement.f2hSample s.x[dst].toNat s.x[src].toNat
  refine ⟨_, execCvtF2hBuf_quiet ⟨ha, hsrc, hd, hdst⟩ hq, (loop.loop_same _ s).finish_ok, fun i hi => ?_,
    fun c hc => loop.loop_frame _ s hc⟩
  exact (f2hBuf_loop hsep i hi).trans
    (congrArg f2h (hq.get_coreByte (fun m m' c => floatAt_congr _ m m' c c) hi))

end Sys2Proof.Machine
end

section
/-! The family of 42_header_parser.md: what HDR.PARSE makes of an image and which bytes of it it reads (R98, R99, R107),
the registers it leaves (R108, R109), and the header invariant that every move keeps (R109, R114). -/
namespace Sys2Proof.Machine

/-! ## What the parser makes of a list of bytes (R98, R99) -/

/-- The parser reads the first byte of every image that has one: no failure comes before it. -/
theorem bytesRead_pos {l : List Byte} (h : l ≠ []) : 0 < bytesRead l := by
  obtain ⟨p, rest, rfl, ⟨v, hv⟩ | he⟩ := Reader.header l
  · obtain ⟨text, ht, himg, _⟩ := header_ok (hv rest rfl)
    rw [himg, bytesRead_header ht]
    have := HeaderText.nine_le_length ht
    omega
  · have hl := List.length_pos_iff.mpr h
    rw [List.length_append] at hl
    simp only [bytesRead, he rest rfl, readAtFailure, List.length_append, List.length_tail]
    omega

/-- An image that begins with a header text keeps it, whatever its unread bytes. -/
theorem header_ok_congr {l l' payload : List Byte} {hd : Header} (hlen : l'.length = l.length)
    (htake : l'.take (bytesRead l) = l.take (bytesRead l)) (h : header l = .ok (hd, payload)) :
    ∃ payload', header l' = .ok (hd, payload') ∧ payload'.length = payload.length := by
  obtain ⟨text, ht, rfl, rfl⟩ := header_ok h
  rw [bytesRead_header ht, List.take_left] at htake
  have hl' := List.take_append_drop text.bytes.length l'
  rw [htake] at hl'
  refine ⟨l'.drop text.bytes.length, by rw [← header_run ht, hl'], ?_⟩
  rw [List.length_drop, hlen, List.length_append, Nat.add_sub_cancel_left]

/-- The first bytes of an image are those that the command reads there. -/
theorem State.image_take_congr {s t : State} {a n k : Nat} (hk : k ≤ n)
    (h : ∀ c, Within a k c → t.coreByte c = s.coreByte c) : (t.image a n).take k = (s.image a n).take k := by
  rw [State.image_eq, State.image_eq, ← List.map_take, ← List.map_take, List.take_range, Nat.min_eq_left hk]
  refine List.map_congr_left fun i hi => h _ ⟨Nat.le_add_right a i, ?_⟩
  have := List.mem_range.mp hi
  omega

/-- The parser reads no more bytes than its image has (R98). -/
theorem State.bytesRead_image_le (s : State) (a n : Nat) : bytesRead (s.image a n) ≤ n :=
  (bytesRead_le _).trans_eq (s.image_length a n)

/-! ## HDR.PARSE as a function of the bytes it reads (R107) -/

/-- What HDR.PARSE makes of the n bytes from a on: a header and its length, or the code that it raises. -/
def State.parse (s : State) (a n : Nat) : Except ResultCode (Header × Nat) :=
  if s.regionOk a n then
    match header (s.image a n) with
    | .error _ => .error .formatError
    | .ok (h, payload) => .ok (h, n - payload.length)
  else .error .invalidArgument

/-- The HDR_* registers after HDR.PARSE of the n bytes from a on: all of them on success, VALID alone on failure (R107,
R108). -/
def State.writeParse (s : State) (a n : Nat) : Except ResultCode (Header × Nat) → State
  | .error _ => s.invalidate
  | .ok (h, k) => s.setHeader h a n k

theorem State.writeParse_kept (s : State) (a n : Nat) (r : Except ResultCode (Header × Nat)) :
    Kept s (s.writeParse a n r) := by
  cases r with
  | error _ => exact .invalidate s
  | ok x => exact .setHeader s _ _ _ _

@[simp] theorem State.writeParse_params (s : State) (a n : Nat) (r : Except ResultCode (Header × Nat)) :
    (s.writeParse a n r).params = s.params := (s.writeParse_kept a n r).params

@[simp] theorem State.writeParse_mem (s : State) (a n : Nat) (r : Except ResultCode (Header × Nat)) :
    (s.writeParse a n r).mem = s.mem := by cases r <;> rfl

@[simp] theorem State.writeParse_x (s : State) (a n : Nat) (r : Except ResultCode (Header × Nat)) :
    (s.writeParse a n r).x = s.x := by cases r <;> rfl

/-- The code that HDR.PARSE completes with (R107). -/
def parseCode : Except ResultCode (Header × Nat) → ResultCode
  | .error code => code
  | .ok _ => .ok

section
variable {s : State} {a n : Nat}

theorem State.parse_of_badRegion (hk : s.regionOk a n = false) : s.parse a n = .error .invalidArgument := by
  simp [State.parse, hk]

theorem State.parse_of_error {l : List Byte} (hk : s.regionOk a n = true) (hl : header (s.image a n) = .error l) :
    s.parse a n = .error .formatError := by
  simp [State.parse, hk, hl]

theorem State.parse_of_ok {h : Header} {payload : List Byte} (hk : s.regionOk a n = true)
    (hl : header (s.image a n) = .ok (h, payload)) : s.parse a n = .ok (h, n - payload.length) := by
  simp [State.parse, hk, hl]

/-- HDR.PARSE raises no OK (R107). -/
theorem State.parse_error_ne_ok {code : ResultCode} (h : s.parse a n = .error code) : code ≠ .ok := by
  rintro rfl
  unfold State.parse at h
  split at h
  · split at h <;> cases h
  · cases h

end

/-- HDR.PARSE writes the registers of what it makes of its image, settles the races of the bytes it has read, and
completes (R107, R56). -/
theorem execHdrParse_of_parse {base len : XReg} {s : State} {r : Except ResultCode (Header × Nat)}
    (hr : s.parse (s.natX base) (s.natX len) = r) : execHdrParse base len s =
      .next (((s.writeParse (s.natX base) (s.natX len) r).settle (footprint (.hdrParse base len) s).all).finish
        (parseCode r)) := by
  subst hr
  rcases execHdrParse_cases base len s with ⟨hk, e⟩ | ⟨hk, l, hl, e⟩ | ⟨hk, hd, p, hl, e⟩
  · have hf : footprint (.hdrParse base len) s = .empty := if_neg (Bool.eq_false_iff.mp hk)
    rw [e, State.parse_of_badRegion hk, hf]
    exact congrArg (fun u : State => Host.Outcome.next (u.finish _)) s.invalidate.settle_nil.symm
  · have hf : footprint (.hdrParse base len) s = hdrParseFootprint base len s := if_pos hk
    rw [e, State.parse_of_error hk hl, hf]
    rfl
  · have hf : footprint (.hdrParse base len) s = hdrParseFootprint base len s := if_pos hk
    rw [e, State.parse_of_ok hk hl, hf]
    rfl

/-- HDR.PARSE makes the same of an image in any two states that agree on the bytes it reads (R98, R107). -/
theorem State.parse_congr {s t : State} {a n : Nat} (hp : t.params = s.params)
    (h : ∀ c, Within a (bytesRead (s.image a n)) c → t.coreByte c = s.coreByte c) : t.parse a n = s.parse a n := by
  have hlen : (t.image a n).length = (s.image a n).length := by rw [State.image_length, State.image_length]
  have htake := State.image_take_congr (s.bytesRead_image_le a n) h
  have hk : t.regionOk a n = s.regionOk a n := by simp only [State.regionOk, State.memBytes_congr hp]
  cases hr : s.regionOk a n with
  | false => rw [State.parse_of_badRegion (hk.trans hr), State.parse_of_badRegion hr]
  | true =>
    have hr' := hk.trans hr
    cases hs : header (s.image a n) with
    | ok x =>
      obtain ⟨payload, ht, hpay⟩ := header_ok_congr hlen htake hs
      rw [State.parse_of_ok hr' ht, State.parse_of_ok hr hs, hpay]
    | error l =>
      cases ht : header (t.image a n) with
      | error l' => rw [State.parse_of_error hr' ht, State.parse_of_error hr hs]
      | ok x =>
        obtain ⟨payload, hs', _⟩ := header_ok_congr hlen.symm (by rw [bytesRead_congr hlen htake, htake]) ht
        cases hs.symm.trans hs'

/-- HDR.PARSE makes the same of two images of the same bytes that the host has not touched (R107). -/
theorem State.parse_congr_quiet {s t : State} {a n : Nat} (hp : t.params = s.params) (hs : s.Quiet [⟨a, n⟩])
    (ht : t.Quiet [⟨a, n⟩]) (h : ∀ c, a ≤ c → c < a + n → t.byteAt c = s.byteAt c) : t.parse a n = s.parse a n := by
  refine State.parse_congr hp fun c hc => ?_
  obtain ⟨hlo, hread⟩ := hc
  have hhi : c < a + n := by
    have := s.bytesRead_image_le a n
    omega
  have hin := (inRegions_singleton a n c).mpr ⟨hlo, hhi⟩
  rw [s.coreByte_quiet _ c hs hin, t.coreByte_quiet _ c ht hin, h c hlo hhi]

/-! ## A part of the machine the same (R39) -/

section
variable {s t : State} (h : SameButMem s t)
include h

theorem SameButMem.symm : SameButMem t s := by
  unfold SameButMem at *
  rw [h]

theorem SameButMem.finish (c : ResultCode) : SameButMem (s.finish c) (t.finish c) := by
  unfold SameButMem at *
  rw [h]
  rfl

theorem SameButMem.writeParse (a n : Nat) (r : Except ResultCode (Header × Nat)) :
    SameButMem (s.writeParse a n r) (t.writeParse a n r) := by
  unfold SameButMem at *
  rw [h]
  rcases r with _ | ⟨_, _⟩ <;> rfl

theorem SameButMem.sameHeader : SameHeader s t :=
  ⟨h.hdrWidth, h.hdrHeight, h.hdrChannels, h.hdrInfo, h.hdrLen, h.hdrPbase, h.hdrPavail⟩

end

/-! ## The end of HDR.PARSE (R107, R108) -/

/-- HDR.PARSE reads no byte outside its image (R98). -/
theorem State.Quiet.hdrParseFootprint {s : State} {base len : XReg} (hq : s.Quiet [⟨s.natX base, s.natX len⟩]) :
    s.Quiet (hdrParseFootprint base len s).all := hq.shorter (s.bytesRead_image_le _ _)

theorem State.Quiet.hdrParse {s : State} {base len : XReg} (hq : s.Quiet [⟨s.natX base, s.natX len⟩]) :
    s.Quiet (footprint (.hdrParse base len) s).all := by
  by_cases hk : AccessChecked (.hdrParse base len) s
  · rw [footprint_of_checked hk]
    exact hq.hdrParseFootprint
  · rw [footprint_of_not_checked hk]
    exact fun _ _ => rfl

/-- HDR.PARSE of an image that the host has not touched. -/
theorem execHdrParse_quiet {base len : XReg} {s : State} {r : Except ResultCode (Header × Nat)}
    (hq : s.Quiet [⟨s.natX base, s.natX len⟩]) (hr : s.parse (s.natX base) (s.natX len) = r) :
    execHdrParse base len s = .next ((s.writeParse (s.natX base) (s.natX len) r).finish (parseCode r)) := by
  rw [execHdrParse_of_parse hr, State.settle_quiet]
  rw [State.Quiet, (State.writeParse_kept s _ _ r).touched]
  exact hq.hdrParse

/-- Writing the registers of one parse again and completing again changes nothing but the counter (R107, R130; log
entry 13). -/
theorem State.writeParse_finish_twice (s : State) (a n : Nat) (r : Except ResultCode (Header × Nat)) (c : ResultCode) :
    (((s.writeParse a n r).finish c).writeParse a n r).finish c =
      { (s.writeParse a n r).finish c with tick := ((s.writeParse a n r).finish c).tick + 1 } := by
  have hst (st : Status) : (st.complete c).complete c = st.complete c := by simp [Status.complete]
  rcases r with _ | ⟨_, _⟩ <;> simp only [State.finish, State.writeParse, State.invalidate, State.setHeader, hst]

/-- A second HDR.PARSE right after a first changes nothing but the counter (R107; log entry 13). -/
theorem execHdrParse_again {base len : XReg} {s t : State} (hq : s.Quiet [⟨s.natX base, s.natX len⟩])
    (h : execHdrParse base len s = .next t) : execHdrParse base len t = .next { t with tick := t.tick + 1 } := by
  generalize hr : s.parse (s.natX base) (s.natX len) = r
  have ht : t = (s.writeParse (s.natX base) (s.natX len) r).finish (parseCode r) :=
    (Host.Outcome.next.inj ((execHdrParse_quiet hq hr).symm.trans h)).symm
  have hx (i : XReg) : t.natX i = s.natX i := by simp [ht, State.natX, State.getX]
  have hquiet (rs : List Region) : t.Quiet rs := by simp [ht, State.Quiet]
  have hparse : t.parse (s.natX base) (s.natX len) = s.parse (s.natX base) (s.natX len) :=
    State.parse_congr_quiet (by simp [ht]) hq (hquiet _) fun c _ _ => State.byteAt_congr (by simp [ht]) c
  rw [execHdrParse_quiet (hquiet _) (by rw [hx, hx, hparse, hr]), hx, hx, ht, State.writeParse_finish_twice]

/-- HDR.PARSE does the same on any memory that holds the same bytes where it reads (R98). -/
theorem execHdrParse_sameButMem {base len : XReg} {s t u : State} (h : SameButMem s t)
    (hbytes : ∀ c, Within (s.natX base) (bytesRead (s.image (s.natX base) (s.natX len))) c → t.byteAt c = s.byteAt c)
    (hu : execHdrParse base len s = .next u) : ∃ v, execHdrParse base len t = .next v ∧ SameButMem u v := by
  have hx (i : XReg) : t.natX i = s.natX i := congrArg BitVec.toNat (h.getX i)
  have hparse : t.parse (s.natX base) (s.natX len) = s.parse (s.natX base) (s.natX len) :=
    State.parse_congr h.params fun c hc => h.coreByte c (hbytes c hc)
  cases (execHdrParse_of_parse rfl).symm.trans hu
  refine ⟨_, execHdrParse_of_parse (by rw [hx, hx, hparse]), ?_⟩
  rw [hx, hx]
  exact (((SameButMem.settle _ _).symm.trans (h.writeParse _ _ _)).trans (.settle _ _)).finish _

/-- A failing HDR.PARSE clears VALID and, but for bytes that raced, changes nothing else before it completes (R108). -/
theorem execHdrParse_failure {base len : XReg} {s t : State} (h : execHdrParse base len s = .next t)
    (hc : t.status.lastcode ≠ 0) : ∃ u c, t = u.finish c ∧ SameButMem s.invalidate u := by
  cases (execHdrParse_of_parse rfl).symm.trans h
  generalize s.parse (s.natX base) (s.natX len) = r at hc
  cases r with
  | error code => exact ⟨_, code, rfl, .settle _ _⟩
  | ok x => exact absurd rfl hc

/-! ## The registers of a parsed header (R109) -/

/-- HDR_PBASE is the address of the payload, where that fits the register (R28; log entry 10). -/
theorem pbaseOf_toNat {a k : Nat} (h : a + k < 2 ^ 32) : (pbaseOf a k).toNat = a + k := by
  rw [pbaseOf, if_pos h, BitVec.toNat_ofNat, Nat.mod_eq_of_lt h]

/-- The HDR_* registers of t are those of a header in the n bytes from a on (R107, R109). -/
structure Parsed (a n : Nat) (t : State) : Prop where
  channels : t.hdrChannels = 1 ∨ t.hdrChannels = 3
  width    : 1 ≤ t.hdrWidth.toNat ∧ t.hdrWidth.toNat ≤ 2 ^ 31 - 1
  height   : 1 ≤ t.hdrHeight.toNat ∧ t.hdrHeight.toNat ≤ 2 ^ 31 - 1
  length   : 9 ≤ t.hdrLen.toNat ∧ t.hdrLen.toNat ≤ n
  pbase    : t.hdrPbase = pbaseOf a t.hdrLen.toNat
  pavail   : t.hdrPavail.toNat = n - t.hdrLen.toNat

theorem Parsed.setHeader (s : State) {text : HeaderText} (ht : text.ok = true) (a : Nat) {n k : Nat} (h9 : 9 ≤ k)
    (hk : k ≤ n) (hn : n < 2 ^ 32) : Parsed a n (s.setHeader text.meaning a n k) := by
  obtain ⟨_, hwidth, hheight⟩ := HeaderText.meaning_bounds ht
  obtain ⟨hw, hh, hc, hl, hp⟩ := setHeader_meaning s ht a hk hn
  refine ⟨?_, by rwa [hw], by rwa [hh], by omega, by rw [hl]; rfl, by rw [hp, hl]⟩
  rw [hc]
  cases text.rgb
  · exact .inl rfl
  · exact .inr rfl

theorem Parsed.congr {a n : Nat} {s t : State} (h : Parsed a n s) (hs : SameHeader s t) : Parsed a n t := by
  obtain ⟨hw, hh, hc, _, hl, hb, hv⟩ := hs
  constructor
  · rw [hc]; exact h.channels
  · rw [hw]; exact h.width
  · rw [hh]; exact h.height
  · rw [hl]; exact h.length
  · rw [hb, hl]; exact h.pbase
  · rw [hv, hl]; exact h.pavail

section
variable {a n : Nat} {t : State} (h : Parsed a n t)
include h

/-- The payload ends where the image does, where HDR_PBASE fits its register (R109; log entry 10). -/
theorem Parsed.payload_end (hfit : a + t.hdrLen.toNat < 2 ^ 32) : t.hdrPbase.toNat + t.hdrPavail.toNat = a + n := by
  have hle := h.length
  rw [h.pavail, h.pbase, pbaseOf_toNat hfit]
  omega

/-- A header that was parsed in an image inside memory meets the invariant: where HDR_PBASE does not fit, the header
ends at the last byte of memory and the payload is empty (log entry 10). -/
theorem Parsed.hdrInv (hmem : a + n ≤ t.memBytes) : t.HdrInv := by
  refine ⟨fun _ => h.channels, fun _ => h.width, fun _ => h.height, fun _ => h.length.1, fun _ => ?_⟩
  by_cases hfit : a + t.hdrLen.toNat < 2 ^ 32
  · rwa [h.payload_end hfit]
  · have hbytes : t.memBytes ≤ 2 ^ 32 := t.params.memLast.isLt
    have hle := h.length
    have havail := h.pavail
    have hbase := t.hdrPbase.isLt
    omega

end

/-- A successful HDR.PARSE leaves the registers of a header (R109). -/
theorem execHdrParse_parsed {base len : XReg} {s t : State} (h : execHdrParse base len s = .next t)
    (hc : t.status.lastcode = 0) : Parsed (s.natX base) (s.natX len) t ∧ s.natX base + s.natX len ≤ t.memBytes := by
  obtain ⟨text, k, ht, h9, hk, _, hmem, rfl⟩ := execHdrParse_success h hc
  have same := SameButMem.settle (s.setHeader text.meaning (s.natX base) (s.natX len) k)
    (hdrParseFootprint base len s).all
  exact ⟨(Parsed.setHeader s ht _ h9 hk (s.getX len).isLt).congr same.sameHeader, by
    rwa [State.finish_memBytes, same.memBytes]⟩

/-! ## Every move keeps the header invariant -/

/-- A state with no valid header meets the invariant. -/
theorem State.HdrInv.of_invalid {s : State} (h : s.hdrInfo.valid = false) : s.HdrInv := by
  constructor <;> simp [h]

/-- The invariant speaks of the HDR_* registers and the size of memory only. -/
theorem State.HdrInv.congr {s t : State} (hi : s.HdrInv) (h : SameHeader s t) (hp : t.params = s.params) :
    t.HdrInv := by
  obtain ⟨hw, hh, hc, hv, hl, hb, ha⟩ := h
  constructor
  · rw [hv, hc]; exact hi.channels
  · rw [hv, hw]; exact hi.width
  · rw [hv, hh]; exact hi.height
  · rw [hv, hl]; exact hi.length
  · rw [hv, hb, ha, State.memBytes_congr hp]; exact hi.payload

theorem execHdrParse_hdrInv {base len : XReg} {s t : State} (h : execHdrParse base len s = .next t) : t.HdrInv := by
  by_cases hc : t.status.lastcode = 0
  · obtain ⟨hparsed, hmem⟩ := execHdrParse_parsed h hc
    exact hparsed.hdrInv hmem
  · obtain ⟨u, c, rfl, hu⟩ := execHdrParse_failure h hc
    exact .of_invalid (congrArg (·.valid) hu.hdrInfo)

/-- HDR.PARSE establishes the invariant, and no other command writes HDR_* (R14). -/
theorem exec_hdrInv {i : Instr} {s t : State} (hi : s.HdrInv) (h : exec i s = .next t) : t.HdrInv := by
  obtain ⟨u, c, rfl, k, _⟩ := exec_finish h
  cases i with
  | hdrParse base len => exact execHdrParse_hdrInv h
  | _ => exact hi.congr ((exec_writesOnly h).header nofun) k.params

/-- An MMIO write leaves the HDR_* registers (R124). -/
theorem State.mmioWrite_sameHeader (s : State) (off : Nat) (v : Word) : SameHeader s (s.mmioWrite off v) := by
  rcases s.mmioWrite_cases off v with ⟨e, _⟩ | ⟨_, e⟩ | ⟨_, _, e⟩ | ⟨_, _, e⟩ | ⟨_, _, e⟩ | ⟨_, _, _, _, e⟩ <;>
    rw [e] <;> exact .refl s

/-- Every move keeps the header invariant: a command by `exec_hdrInv`, a reset clears VALID, and no other move reaches
the HDR_* registers. -/
theorem act_hdrInv {e : Event} {s t : State} (hi : s.HdrInv) (h : act e s = .next t) : t.HdrInv := by
  obtain ⟨hp, _⟩ := act_kept h
  cases e with
  | core =>
    rcases coreStep_cases s with ⟨_, k⟩ | ⟨_, _, _, _, k⟩ | ⟨_, i, _, _, k⟩
    · cases k.symm.trans h
      exact hi
    · cases k.symm.trans h
      exact hi.congr (.refl s) hp
    · exact exec_hdrInv hi (k.symm.trans h)
  | mmioRead off width =>
    obtain ⟨_, _, rfl⟩ := hostMmioRead_next h
    exact hi.congr (.refl s) hp
  | mmioWrite off width v =>
    obtain ⟨_, _, rfl⟩ := hostMmioWrite_next h
    exact hi.congr (s.mmioWrite_sameHeader _ v) hp
  | memRead addr =>
    obtain ⟨_, ⟨_, rfl⟩ | ⟨_, rfl⟩⟩ := hostMemRead_next h <;> exact hi.congr (.refl s) hp
  | memWrite addr b =>
    obtain ⟨_, ⟨_, rfl⟩ | ⟨_, rfl⟩⟩ := hostMemWrite_next h <;> exact hi.congr (.refl s) hp
  | reserve _ | unreserve _ | answer _ =>
    cases h
    exact hi.congr (.refl s) hp
  | release addr =>
    obtain ⟨_, rfl⟩ := hostRelease_next h
    exact hi.congr (.refl s) hp
  | reset took =>
    rw [hostReset_registers h]
    exact .of_invalid rfl

/-! ## A header text in the image (R98) -/

/-- The bytes of a header text that the host has not written are what the command reads, whatever follows it. -/
theorem State.image_of_text {s : State} {a n : Nat} {text : HeaderText} {payload : List Byte}
    (himg : (List.range n).map (fun k => s.byteAt (a + k)) = text.bytes ++ payload)
    (hw : ∀ u ∈ s.touched, u.wrote = true → u.addr < a ∨ a + text.bytes.length ≤ u.addr) :
    ∃ rest, s.image a n = text.bytes ++ rest := by
  have stands : State.image { s with touched := [] } a n = text.bytes ++ payload :=
    (State.image_quiet { s with touched := [] } a n nofun).trans himg
  have hlen := congrArg List.length stands
  rw [State.image_length, List.length_append] at hlen
  have htake : (s.image a n).take text.bytes.length = text.bytes := by
    rw [State.image_take_congr (s := { s with touched := [] }) (by omega), stands, List.take_left]
    intro c hc
    have hno : s.hostWrote c = false := by
      simp only [State.hostWrote, List.any_eq_false, Bool.and_eq_true, decide_eq_true_eq]
      rintro u hu ⟨hwr, rfl⟩
      have := hw u hu hwr
      unfold Within at hc
      omega
    rw [State.coreByte_untouched { s with touched := [] } c rfl, State.coreByte, if_neg (by simp [hno])]
    rfl
  exact ⟨_, by conv_lhs => rw [← List.take_append_drop text.bytes.length (s.image a n), htake]⟩

/-- On an image that begins with a header text of which the host writes no byte, HDR.PARSE reads exactly its bytes. -/
theorem footprint_hdrParse_of_text {base len : XReg} {s : State} {text : HeaderText} {payload : List Byte}
    (hk : AccessChecked (.hdrParse base len) s) (ht : text.ok = true)
    (himg : (List.range (s.natX len)).map (fun k => s.byteAt (s.natX base + k)) = text.bytes ++ payload)
    (hw : ∀ u ∈ s.touched, u.wrote = true → u.addr < s.natX base ∨ s.natX base + text.bytes.length ≤ u.addr)
    (c : Nat) :
    inRegions (footprint (.hdrParse base len) s).all c = true ↔ Within (s.natX base) text.bytes.length c := by
  obtain ⟨rest, hrest⟩ := State.image_of_text himg hw
  rw [footprint_of_checked hk, ← bytesRead_header ht rest, ← hrest]
  exact inRegions_singleton _ _ c

/-! ## The obligations -/

/-- Settles O49, move by move: HDR.PARSE establishes the invariant, a reset clears VALID, nothing else writes HDR_*. -/
theorem stepKeepsHeaderInvariant : Obligations.StepKeepsHeaderInvariant := by
  intro s t hi h
  rcases step_cases s with ⟨hstep, _⟩ | ⟨e, rest, _, hstep⟩
  · exact act_hdrInv (e := .core) hi (hstep.symm.trans h)
  · exact act_hdrInv (s := { s with schedule := rest }) (hi.congr (.refl s) rfl) (hstep.symm.trans h)

/-- Settles O29: the parser accepts the text with its meaning, and nothing races. -/
theorem hdrParseAcceptsTheGrammar : Obligations.HdrParseAcceptsTheGrammar := by
  rintro base len s a n text payload (rfl : a = s.natX base) (rfl : n = s.natX len) ha hfit hq ht himg
  have hlen := congrArg List.length himg
  simp only [List.length_map, List.length_range, List.length_append] at hlen
  have accepts := execHdrParse_accepts ⟨ha, hfit⟩ ht ((s.image_quiet _ _ hq).trans himg)
  rw [State.settle_quiet (s.setHeader _ _ _ _) _ hq.hdrParseFootprint, State.finish_ok] at accepts
  refine ⟨pbaseOf (s.natX base) text.bytes.length, pbaseOf_toNat, accepts.trans ?_⟩
  rw [show payload.length = s.natX len - text.bytes.length by omega]
  unfold State.setHeader HeaderText.meaning
  cases text.rgb <;> rfl

/-- Settles O30: only a header of the grammar is accepted, and nothing races. -/
theorem hdrParseRejectsAllElse : Obligations.HdrParseRejectsAllElse := by
  rintro base len s a n (rfl : a = s.natX base) (rfl : n = s.natX len) ha hfit hq hno
  have rejects := execHdrParse_rejects ⟨ha, hfit⟩ (by rwa [s.image_quiet _ _ hq])
  rw [State.settle_quiet s.invalidate _ hq.hdrParseFootprint, State.finish_error _ _ (by decide)] at rejects
  exact rejects

/-- Settles O31, by the registers that a parse leaves. -/
theorem successfulParseInvariants : Obligations.SuccessfulParseInvariants := by
  intro base len s t h hc
  obtain ⟨hp, _⟩ := execHdrParse_parsed h hc
  exact ⟨hp.channels, hp.width.1, hp.width.2, hp.height.1, hp.height.2, hp.length.1, hp.length.2, hp.payload_end⟩

/-- Settles O32: a failure clears VALID, which PAYLOAD.IN checks first. -/
theorem failedParseBlocksPayloadIn : Obligations.FailedParseBlocksPayloadIn := by
  intro base len dst count s t h hc
  obtain ⟨u, c, rfl, hu⟩ := execHdrParse_failure h hc
  have invalid : (u.finish c).hdrInfo.valid = false := congrArg (·.valid) hu.hdrInfo
  refine ⟨hu.hdrWidth, hu.hdrHeight, hu.hdrChannels, congrArg (·.storedBe) hu.hdrInfo, hu.hdrLen, hu.hdrPbase,
    hu.hdrPavail, invalid, ?_⟩
  rw [← State.finish_invalidArgument]
  exact execPayloadIn_raises (if_pos invalid)

/-- Settles O33: HDR.PARSE is a function of the bytes it reads, which are those of a header text where there is one. -/
theorem hdrParseReadsOnlyTheHeader : Obligations.HdrParseReadsOnlyTheHeader := by
  rintro base len s a n (rfl : a = s.natX base) (rfl : n = s.natX len) ha hfit
  have hk : AccessChecked (.hdrParse base len) s := ⟨ha, hfit⟩
  have hreads (c : Nat) : inRegions (footprint (.hdrParse base len) s).all c = true ↔
      Within (s.natX base) (bytesRead (s.image (s.natX base) (s.natX len))) c := by
    rw [footprint_of_checked hk]
    exact inRegions_singleton _ _ c
  refine ⟨⟨_, s.bytesRead_image_le _ _, fun hn => bytesRead_pos ?_, hreads⟩, ?_, ?_⟩
  · rw [← List.length_pos_iff, State.image_length]
    exact hn
  · rintro t m rfl hsame u hu
    exact execHdrParse_sameButMem (t := { s with mem := m }) rfl (fun c hc => hsame c ((hreads c).mpr hc)) hu
  · intro text payload ht himg hw
    have quiet := fun v hv => hw v (List.mem_append_right _ hv)
    refine ⟨footprint_hdrParse_of_text hk ht himg quiet, fun w hp hd => ?_⟩
    have hraces (c : Nat) : s.races c = true ↔ Within (s.natX base) text.bytes.length c := by
      rw [State.races_legal hp hd]
      exact footprint_hdrParse_of_text (s := s.foreseen) hk ht himg hw c
    refine ⟨hraces, fun addr b hmem hpast => ?_⟩
    have noRace : s.races addr.toNat = false := by
      rw [Bool.eq_false_iff, ne_eq, hraces]
      exact fun hin => absurd hin.2 (by omega)
    exact ⟨hostMemRead_exact hmem noRace, _, hostMemWrite_exact hmem noRace b, rfl, s.byteAt_writeByte_same _ b,
      fun c hc => s.byteAt_writeByte_other _ c b hc⟩

/-- Settles O34: HDR.PARSE is a function of its image, which it leaves as it is. -/
theorem hdrParseTwiceGivesTheSame : Obligations.HdrParseTwiceGivesTheSame := by
  refine ⟨?_, fun base len s t hq h => ?_⟩
  · rintro base len base' len' s t u a n (rfl : a = s.natX base) (rfl : n = s.natX len) hbase hlen hparams hqs hqt
      hbytes hu
    have hb : t.natX base' = s.natX base := congrArg BitVec.toNat hbase
    have hl : t.natX len' = s.natX len := congrArg BitVec.toNat hlen
    have hparse : t.parse (s.natX base) (s.natX len) = s.parse (s.natX base) (s.natX len) :=
      State.parse_congr_quiet hparams hqs hqt hbytes
    cases (execHdrParse_quiet hqs rfl).symm.trans hu
    refine ⟨_, execHdrParse_quiet (base := base') (len := len') (by rwa [hb, hl]) (by rw [hb, hl, hparse]), rfl,
      fun hc => ?_⟩
    rw [hb, hl]
    cases hr : s.parse (s.natX base) (s.natX len) with
    | error code =>
      rw [hr] at hc
      exact absurd ((ResultCode.bits_eq_zero code).mp hc) (State.parse_error_ne_ok hr)
    | ok x => exact ⟨rfl, rfl, rfl, rfl, rfl, rfl, rfl⟩
  · exact execHdrParse_again hq h

end Sys2Proof.Machine
end

section
/-! The family of 43_endian_swap.md: the byte swap (R111), BSWAP16.BUF as an exchange that is its own inverse (R113),
and the logical samples of PAYLOAD.IN (R114, R115). -/
namespace Sys2Proof.Machine

/-! ## The byte swap (R111) -/

theorem swap16_highByte (v : Half) : (swap16 v).extractLsb' 8 8 = v.extractLsb' 0 8 := BitVec.extractLsb'_append_eq_left

theorem swap16_lowByte (v : Half) : (swap16 v).extractLsb' 0 8 = v.extractLsb' 8 8 := BitVec.extractLsb'_append_eq_right

theorem swap16_swap16 (v : Half) : swap16 (swap16 v) = v := by
  rw [swap16, swap16_lowByte, swap16_highByte]
  exact BitVec.extractLsb'_append_extractLsb'

/-! ## BSWAP16.BUF without races (R113, R146) -/

/-- The bytes of m' are those of m with the two bytes of each of the n samples from a on exchanged. -/
structure ExchangesPairs (a n : Nat) (m m' : Nat → Byte) : Prop where
  even  : ∀ i < n, m' (a + 2 * i) = m (a + 2 * i + 1)
  odd   : ∀ i < n, m' (a + 2 * i + 1) = m (a + 2 * i)
  frame : ∀ c, c < a ∨ a + 2 * n ≤ c → m' c = m c

/-- An address lies outside n samples from a on, or is the first or the second byte of one of them. -/
theorem sampleByte_cases (a n c : Nat) :
    (c < a ∨ a + 2 * n ≤ c) ∨ (∃ i < n, c = a + 2 * i) ∨ (∃ i < n, c = a + 2 * i + 1) := by
  by_cases outside : c < a ∨ a + 2 * n ≤ c
  · exact .inl outside
  · rcases Nat.mod_two_eq_zero_or_one (c - a) with parity | parity
    · exact .inr (.inl ⟨(c - a) / 2, by omega, by omega⟩)
    · exact .inr (.inr ⟨(c - a) / 2, by omega, by omega⟩)

/-- Exchanging the same pairs again restores every byte. -/
theorem ExchangesPairs.restores {a n : Nat} {m m' m'' : Nat → Byte} (h : ExchangesPairs a n m m')
    (k : ExchangesPairs a n m' m'') (c : Nat) : m'' c = m c := by
  rcases sampleByte_cases a n c with outside | ⟨i, hi, rfl⟩ | ⟨i, hi, rfl⟩
  · exact (k.frame c outside).trans (h.frame c outside)
  · exact (k.even i hi).trans (h.odd i hi)
  · exact (k.odd i hi).trans (h.even i hi)

/-- The loop of BSWAP16.BUF over a quiet region exchanges its pairs (R113). -/
theorem bswapBuf_exchanges {s : State} {a n : Nat} (hq : s.Quiet [⟨a, 2 * n⟩]) :
    ExchangesPairs a n s.byteAt (ascending (bswapSample a) n s).byteAt where
  even i hi := (bswapBuf_loop i hi).1.trans
    (hq.get_coreByte (get := fun m c => m (c + 1)) (fun _ _ _ hm => hm 1 (by decide)) hi)
  odd i hi := (bswapBuf_loop i hi).2.trans
    (hq.get_coreByte (get := fun m c => m c) (fun _ _ _ hm => hm 0 (by decide)) hi)
  frame _ hc := (WritesElement.bswapSample a).loop_frame n s hc

/-- BSWAP16.BUF whose check passes, over a quiet region, completes with its pairs exchanged (R113). -/
theorem execBswap16Buf_exchanges {addr count : XReg} {s : State} (hk : AccessChecked (.bswap16Buf addr count) s)
    (hq : s.Quiet [⟨s.natX addr, 2 * s.natX count⟩]) :
    ∃ t, execBswap16Buf addr count s = .next t ∧ WroteMemoryOnly s t ∧
      ExchangesPairs (s.natX addr) (s.natX count) s.byteAt t.byteAt := by
  have loop := WritesElement.bswapSample (s.natX addr)
  have quiet : s.Quiet (bswapBufFootprint addr count s).all := fun u hu =>
    (inRegions_append _ _ _).trans (by rw [bswapBufFootprint, hq u hu, Bool.or_self])
  refine ⟨_, ?_, (loop.loop_same (s.natX count) s).finish_ok, bswapBuf_exchanges hq⟩
  rw [execBswap16Buf_eq, if_pos ((bswapBufOk_iff ..).mpr hk), State.afterBswapBuf, loop.settle_loop quiet]

section
variable {s t : State} (h : WroteMemoryOnly s t)
include h

theorem WroteMemoryOnly.x : t.x = s.x := by rw [h]; rfl
theorem WroteMemoryOnly.params : t.params = s.params := by rw [h]; rfl
theorem WroteMemoryOnly.touched : t.touched = [] := by rw [h]; rfl

end

/-! ## The obligations -/

/-- Settles O24: the command exchanges the pairs, and run again on the same region it exchanges them back. -/
theorem bswap16BufSwapsEveryPair : Obligations.Bswap16BufSwapsEveryPair := by
  rintro addr count s _ _ rfl rfl ha hfit hq
  obtain ⟨t, ht, hst, first⟩ := execBswap16Buf_exchanges (addr := addr) (count := count) ⟨ha, hfit⟩ hq
  have checked : AccessChecked (.bswap16Buf addr count) t := by
    rw [AccessChecked, hst.x, State.memBytes_congr hst.params]
    exact ⟨ha, hfit⟩
  have untouched (rs : List Region) : t.Quiet rs := by
    rw [State.Quiet, hst.touched]
    exact fun u hu => absurd hu List.not_mem_nil
  obtain ⟨u, hu, _, second⟩ := execBswap16Buf_exchanges checked (untouched _)
  rw [State.natX_eq, State.natX_eq, hst.x] at second
  exact ⟨t, ht, hst, fun i hi => ⟨first.even i hi, first.odd i hi⟩, first.frame, u, hu, first.restores second⟩

/-- Settles O25: the loop gives each sample's logical value as it is before the command, and nothing races. -/
theorem payloadInGivesLogicalSamples : Obligations.PayloadInGivesLogicalSamples := by
  rintro dst count s _ _ _ rfl rfl rfl hh hv hd hdst havail hsep hq
  have loop := WritesElement.payloadSample s.swapNeeded s.x[dst].toNat s.hdrPbase.toNat
  refine ⟨_, execPayloadIn_quiet hh ⟨hv, hd, hdst, havail⟩ hq, (loop.loop_same _ s).finish_ok, fun i hi => ?_,
    fun c hc => loop.loop_frame _ s hc⟩
  exact (payloadIn_loop hsep i hi).trans (hq.get_coreByte (fun m m' c => halfAt_congr_bytes _ m m' c) hi)

/-- Settles O19, by the two bytes of the swapped value. -/
theorem swapExchangesTheBytes : Obligations.SwapExchangesTheBytes :=
  fun v => ⟨swap16_swap16 v, swap16_highByte v, swap16_lowByte v⟩

end Sys2Proof.Machine
end

section
/-! The family of 44_pixel_buffer_allocator.md: ALLOC's geometry and sizes (R117, R118), the buffer it grants (R119),
and the release of a live base, by FREE (R120) or by the host (R53). -/
namespace Sys2Proof.Machine

/-! ## The geometry and the sizes (R117, R118) -/

/-- The registers hold a geometry that R117 admits, read as unsigned integers. -/
structure GeometryIn (rw rh rc : XReg) (s : State) : Prop where
  width    : 1 ≤ s.natX rw ∧ s.natX rw < 2 ^ 31
  height   : 1 ≤ s.natX rh ∧ s.natX rh < 2 ^ 31
  channels : s.natX rc = 1 ∨ s.natX rc = 3

/-- `count` of R118: w·h·c. -/
def State.sampleCount (s : State) (rw rh rc : XReg) : Nat := s.natX rw * s.natX rh * s.natX rc

/-- The state after ALLOC grants [b, b + bytes), with `rest` the answers left (R119). -/
def State.withBuffer (s : State) (rd : XReg) (b : Word) (count bytes : Nat) (rest : List AllocAnswer) : State :=
  { finishedOk s with
    x := s.x.set rd b
    allocBase := b
    allocCount := BitVec.ofNat 32 count
    allocBytes := BitVec.ofNat 32 bytes
    live := ⟨b.toNat, bytes⟩ :: s.live
    answers := rest }

section
variable {rd rw rh rc : XReg} {size : SampleSize} {s t : State}

/-- ALLOC's first check fails exactly on an invalid geometry (R117). -/
theorem allocSize_validationError_iff : allocSize rw rh rc size s = .error .validationError ↔
    ¬ (0 < s.x[rw].toInt ∧ 0 < s.x[rh].toInt ∧ (s.x[rc].toInt = 1 ∨ s.x[rc].toInt = 3)) := by
  rw [← s.intX_eq rw, ← s.intX_eq rh, ← s.intX_eq rc, ← geometryOk_iff]
  rcases allocSize_cases rw rh rc size s with ⟨hg, k⟩ | ⟨hg, _, k⟩ | ⟨hg, _, k⟩
  · simp [hg, k]
  · simp [hg, k]
  · simp [hg, k]

/-- A valid geometry reads the same signed and unsigned, so that its size is the exact product (R118). -/
theorem GeometryIn.allocSize_eq (h : GeometryIn rw rh rc s) (size : SampleSize) : allocSize rw rh rc size s =
    if 2 ^ 32 - 1 < s.sampleCount rw rh rc * sampleBytes size then .error .allocFailure
    else .ok (s.sampleCount rw rh rc, s.sampleCount rw rh rc * sampleBytes size) := by
  obtain ⟨⟨hw, hw'⟩, ⟨hh, hh'⟩, hc⟩ := h
  have signedW := s.intX_of_lt rw hw'
  have signedH := s.intX_of_lt rh hh'
  have signedC := s.intX_of_lt rc (by omega)
  have geometry : geometryOk (s.intX rw) (s.intX rh) (s.intX rc) = true := (geometryOk_iff ..).mpr (by omega)
  have count : (s.intX rw * s.intX rh * s.intX rc).toNat = s.sampleCount rw rh rc := by
    rw [signedW, signedH, signedC, ← Int.natCast_mul, ← Int.natCast_mul, Int.toNat_natCast, State.sampleCount]
  rcases allocSize_cases rw rh rc size s with ⟨bad, _⟩ | ⟨_, large, k⟩ | ⟨_, fits, k⟩
  · cases geometry.symm.trans bad
  · rw [k, if_pos (count ▸ large)]
  · rw [k, count, if_neg (by rw [← count]; omega)]

/-- The sizes of a valid geometry that pass the checks are the exact products (R118). -/
theorem GeometryIn.sizes (h : GeometryIn rw rh rc s) {count bytes : Nat}
    (hsz : allocSize rw rh rc size s = .ok (count, bytes)) :
    count = s.sampleCount rw rh rc ∧ bytes = s.sampleCount rw rh rc * sampleBytes size := by
  rw [h.allocSize_eq size] at hsz
  split at hsz
  · cases hsz
  · cases hsz
    exact ⟨rfl, rfl⟩

/-- Sizes that pass the checks fit in ALLOC_COUNT and ALLOC_BYTES (R118). -/
theorem allocSize_fits {count bytes : Nat} (h : allocSize rw rh rc size s = .ok (count, bytes)) :
    (BitVec.ofNat 32 count).toNat = count ∧ (BitVec.ofNat 32 bytes).toNat = bytes := by
  have sample : 0 < sampleBytes size := by cases size <;> decide
  rcases allocSize_cases rw rh rc size s with ⟨_, k⟩ | ⟨_, _, k⟩ | ⟨_, fits, k⟩ <;> cases k.symm.trans h
  have count_le := Nat.le_mul_of_pos_right (s.intX rw * s.intX rh * s.intX rc).toNat sample
  constructor <;> rw [BitVec.toNat_ofNat, Nat.mod_eq_of_lt (by omega)]

/-! ## ALLOC (R119) -/

/-- A failed check ends ALLOC before any request: no answer is used up (R119). -/
theorem execAlloc_raises {code : ResultCode} (h : allocSize rw rh rc size s = .error code) (hc : code ≠ .ok) :
    execAlloc rd rw rh rc size s = .next (failedWith code.bits s) := by
  rw [← s.finish_error code hc, execAlloc, h]
  rfl

/-- A stated answer within the contract is the buffer that ALLOC grants. -/
theorem execAlloc_grants {count bytes : Nat} {b : Word} {rest : List AllocAnswer}
    (hsz : allocSize rw rh rc size s = .ok (count, bytes)) (hans : s.answers = .ok b :: rest)
    (hc : s.contractOk b bytes = true) :
    execAlloc rd rw rh rc size s = .next (s.withBuffer rd b count bytes rest) := by
  simp only [execAlloc, hsz, s.allocRequest_stated_ok bytes b rest hans hc, done, State.finish_ok]
  rfl

/-- An ALLOC that completes: VALIDATION_ERROR, ALLOC_FAILURE, or a buffer within the contract. -/
theorem execAlloc_next (h : execAlloc rd rw rh rc size s = .next t) :
    (allocSize rw rh rc size s = .error .validationError ∧ t.status.lastcode = 4) ∨
    t.status.lastcode = 7 ∨
    ∃ count bytes b, allocSize rw rh rc size s = .ok (count, bytes) ∧ s.contractOk b bytes = true ∧
      t = s.withBuffer rd b count bytes s.answers.tail := by
  rcases execAlloc_cases rd rw rh rc size s with
    ⟨_, hsz, e⟩ | ⟨_, _, _, _, e⟩ | ⟨count, bytes, b, hsz, hc, _, e⟩ | ⟨_, _, _, _, _, _, _, e⟩ <;>
    cases e.symm.trans h
  · rcases allocSize_cases rw rh rc size s with ⟨_, k⟩ | ⟨_, _, k⟩ | ⟨_, _, k⟩ <;> cases k.symm.trans hsz
    · exact .inl ⟨k, rfl⟩
    · exact .inr (.inl rfl)
  · exact .inr (.inl rfl)
  · exact .inr (.inr ⟨count, bytes, b, hsz, hc, by rw [State.finish_ok]; rfl⟩)

end

/-- A base of the contract is at least 4, so that the buffer and 4 bytes before it fit in memory (R51). -/
theorem State.contractOk_fits {s : State} {b : Word} {n : Nat} (h : s.contractOk b n = true) : n + 4 ≤ s.memBytes := by
  obtain ⟨nonzero, aligned, fits, _⟩ := (s.contractOk_iff b n).mp h
  omega

/-! ## Releases (R52) -/

/-- The release of a live base takes the allocations of that base, and no other, off the live set. -/
theorem State.allocRelease_live {s : State} {a : Nat} {r : Region} (hr : r ∈ s.live) (ha : r.base = a) :
    ∃ live', s.allocRelease a = some { s with live := live' } ∧
      ∀ q : Region, q ∈ live' ↔ q ∈ s.live ∧ q.base ≠ a :=
  ⟨_, if_pos ((s.isLive_iff a).mpr ⟨r, hr, ha⟩), fun q => by simp⟩

theorem State.allocRelease_notLive {s : State} {a : Nat} (h : ∀ r ∈ s.live, r.base ≠ a) : s.allocRelease a = none :=
  if_neg fun hl => by
    obtain ⟨r, hr, ha⟩ := (s.isLive_iff a).mp hl
    exact h r hr ha

/-- FREE of 0 sends no release (R120). -/
theorem execFree_zero {base : XReg} {s : State} (h : s.natX base = 0) :
    execFree base s = .next (failedWith 1 s) := by
  rw [execFree, if_pos h, ← State.finish_invalidArgument]
  rfl

/-- FREE of an address other than 0 is the release of that address (R120). -/
theorem execFree_releases {base : XReg} {s t : State} (h : s.natX base ≠ 0)
    (released : s.allocRelease (s.natX base) = some t) : execFree base s = .next (finishedOk t) := by
  rw [execFree, if_neg h, released, ← State.finish_ok]
  rfl

theorem execFree_faults {base : XReg} {s : State} (h : s.natX base ≠ 0)
    (notLive : s.allocRelease (s.natX base) = none) : execFree base s = .fault .badRelease := by
  rw [execFree, if_neg h, notLive]

/-! ## The obligations -/

/-- Settles O35: the geometry gives the exact sizes, and the stated answer keeps the contract. -/
theorem allocGrantsTheBuffer : Obligations.AllocGrantsTheBuffer := by
  rintro rd rw rh rc size s b rest _ _ _ sz rfl rfl rfl hsz hw hw' hh hh' hc hfit hans hnz hal hmem hapart
  obtain rfl : sz = sampleBytes size := by cases size <;> exact hsz
  change s.sampleCount rw rh rc * sampleBytes size ≤ _ at hfit
  have geometry : GeometryIn rw rh rc s := ⟨⟨hw, hw'⟩, ⟨hh, hh'⟩, hc⟩
  have contract : s.contractOk b (s.sampleCount rw rh rc * sampleBytes size) = true :=
    (s.contractOk_iff b _).mpr ⟨hnz, hal, hmem, fun r hr => Region.disjoint_of_le _ r (hapart r hr).symm⟩
  have sizes := (geometry.allocSize_eq size).trans (if_neg (by omega))
  exact ⟨execAlloc_grants sizes hans contract, allocSize_fits sizes⟩

/-- Settles O36: the geometry is the only check that raises VALIDATION_ERROR, and it comes first. -/
theorem allocValidatesTheGeometry : Obligations.AllocValidatesTheGeometry := by
  intro rd rw rh rc size s
  refine ⟨fun invalid => ?_, fun t h hcode => ?_⟩
  · exact execAlloc_raises (code := .validationError) (allocSize_validationError_iff.mpr invalid) (by decide)
  · rcases execAlloc_next h with ⟨hsz, _⟩ | failed | ⟨_, _, _, _, _, rfl⟩
    · exact allocSize_validationError_iff.mp hsz
    · cases failed.symm.trans hcode
    · cases hcode

/-- Settles O37: a size that does not fit is raised before the request, and a granted buffer has the exact sizes. -/
theorem allocSizesAreExact : Obligations.AllocSizesAreExact := by
  rintro rd rw rh rc size s _ _ _ sz rfl rfl rfl hsz hw hw' hh hh' hc
  obtain rfl : sz = sampleBytes size := by cases size <;> exact hsz
  have geometry : GeometryIn rw rh rc s := ⟨⟨hw, hw'⟩, ⟨hh, hh'⟩, hc⟩
  refine ⟨fun large => ?_, fun t h hcode => ?_⟩
  · exact execAlloc_raises (code := .allocFailure) ((geometry.allocSize_eq size).trans (if_pos large)) (by decide)
  · rcases execAlloc_next h with ⟨_, failed⟩ | failed | ⟨count, bytes, b, hsz, contract, rfl⟩
    · cases failed.symm.trans hcode
    · cases failed.symm.trans hcode
    · obtain ⟨exactCount, exactBytes⟩ := allocSize_fits hsz
      obtain ⟨rfl, rfl⟩ := geometry.sizes hsz
      exact ⟨exactCount, exactBytes, (s.getX_setX_same rd b).symm, State.contractOk_fits contract⟩

/-- Settles O39: FREE and the host's release are the one release of the allocator, which FREE of 0 does not reach. -/
theorem freeReleasesTheBuffer : Obligations.FreeReleasesTheBuffer := by
  intro base s
  refine ⟨fun r hr hbase hnz => ?_, fun hz => ?_, fun hnz hno => ?_, fun addr => ⟨fun r hr hbase => ?_, fun hno => ?_⟩⟩
  · obtain ⟨live', released, hlive⟩ := State.allocRelease_live hr hbase
    exact ⟨_, execFree_releases (fun zero => hnz (hbase.trans zero)) released, rfl, hlive⟩
  · exact execFree_zero (congrArg BitVec.toNat hz)
  · exact execFree_faults (fun zero => hnz (BitVec.eq_of_toNat_eq zero)) (State.allocRelease_notLive hno)
  · obtain ⟨live', released, hlive⟩ := State.allocRelease_live hr hbase
    exact ⟨_, by rw [hostRelease, released], rfl, hlive⟩
  · rw [hostRelease, State.allocRelease_notLive hno]

end Sys2Proof.Machine
end

section
/-! The family of 45_register_access.md: CSRR (R122), the host's MMIO reads and writes (R123, R124, R127), the step that
runs the pending command (R126), and that no command hangs (R149). -/
namespace Sys2Proof.Machine

/-! ## The step that runs the pending command (R126) -/

/-- A pending legal word runs as its instruction (R126). -/
theorem coreStep_legal {s : State} {w : Word} {i : Instr} (hp : s.pending = some w) (hd : decode w = .legal i) :
    coreStep s = exec i s := by
  simp [coreStep, hp, hd]

/-- A table word decodes as the command word that `withFetchWord` issues. -/
theorem decodeTableWord_eq_some {nbits w : Nat} {i : Instr} :
    decodeTableWord nbits w = some i ↔ decode (tableWord nbits w) = .legal i := by
  unfold decodeTableWord
  cases decode (tableWord nbits w) <;> simp

/-- After `withFetchWord` the CORE moves next, in the state that has accepted the word (log entry 18). -/
theorem coreMoves_withFetchWord (s : State) (nbits w : Nat) :
    CoreMoves (s.withFetchWord nbits w) (s.accept (tableWord nbits w)) := .inr ⟨s.schedule, rfl, rfl⟩

/-! ## No command hangs (R149) -/

/-- A run ends the pending command: no command is pending after it, or the machine has stopped by name. -/
def EndsPending (o : Host.Outcome State Fault Refusal) : Prop :=
  (∃ t, o = .next t ∧ t.pending = none) ∨ (∃ f, o = .fault f) ∨ ∃ r, o = .refused r

/-- A step that stops the machine ends the pending command, so an ending step need only be told of its next states. -/
theorem EndsPending.of_next {o : Host.Outcome State Fault Refusal} (h : ∀ t, o = .next t → t.pending = none) :
    EndsPending o := by
  cases o with
  | next t => exact .inl ⟨t, rfl, h t rfl⟩
  | fault f => exact .inr (.inl ⟨f, rfl⟩)
  | refused r => exact .inr (.inr ⟨r, rfl⟩)

/-- Whatever was pending, nothing is after the CORE's move (R126). -/
theorem coreStep_pending {s t : State} (h : coreStep s = .next t) : t.pending = none := by
  rcases coreStep_finish h with ⟨rfl, idle⟩ | ⟨_, u, c, rfl, _, _⟩
  · exact idle
  · rfl

/-- A run of one step is the step. -/
theorem run_one (M : Host.Core) (s : M.State) : M.run 1 s = M.step s := by
  rw [Host.Core.run]
  cases M.step s <;> rfl

/-- A run goes on from the state that its first step answers. -/
theorem run_of_next {M : Host.Core} {s t : M.State} (h : M.step s = .next t) (k : Nat) :
    M.run (k + 1) s = M.run k t := by
  rw [Host.Core.run, h]

/-- Every step takes one move off the schedule, and past its last move the CORE completes what is pending. -/
theorem endsPending_within (moves : List Event) {s : State} (hs : s.schedule = moves) :
    ∃ k ≤ moves.length + 1, EndsPending (Sys2Proof.core.run k s) := by
  induction moves generalizing s with
  | nil =>
    refine ⟨1, le_refl 1, .of_next fun t h => ?_⟩
    rw [run_one Sys2Proof.core s] at h
    exact coreStep_pending ((step_nil hs).symm.trans h)
  | cons e rest ih =>
    cases hstep : step s with
    | next t =>
      rw [step_cons hs] at hstep
      obtain ⟨k, hk, ends⟩ := ih (act_kept hstep).2
      exact ⟨k + 1, Nat.succ_le_succ hk, by rwa [run_of_next (M := Sys2Proof.core) ((step_cons hs).trans hstep) k]⟩
    | fault f => exact ⟨1, by simp, .inr (.inl ⟨f, (run_one Sys2Proof.core s).trans hstep⟩)⟩
    | refused r => exact ⟨1, by simp, .inr (.inr ⟨r, (run_one Sys2Proof.core s).trans hstep⟩)⟩

/-! ## CSRR (R122) -/

/-- CSRR of a legal number writes the register's value to x[rd] and completes. -/
theorem exec_csrr_legal (rd : XReg) {csr : Fin 16} (s : State) (h : csr.val ≤ 13) :
    exec (.csrr rd csr) s = .next { finishedOk s with x := s.x.set rd (s.csr csr.val) } := by
  have legal : csrLegal csr = true := decide_eq_true h
  change execCsrr rd csr s = _
  rw [execCsrr, if_pos legal, done_setX]

/-- The fields of STATUS at their bits (R15). -/
theorem Status.word_fields (st : Status) :
    st.word.getLsbD 0 = st.busy ∧ st.word.getLsbD 1 = st.err ∧ st.word.getLsbD 2 = st.cmdovr ∧
      st.word.extractLsb' 8 4 = st.lastcode := by
  obtain ⟨b, e, c, l⟩ := st
  cases b <;> cases e <;> cases c <;> (revert l; decide)

/-! ## The host's MMIO writes (R124) -/

section
variable {s : State} {off : Nat} (v : Word)

/-- A write of an offset that BUSY does not guard, other than STATUS, is ignored. -/
theorem State.mmioWrite_ignored (hg : ¬ guardedOffset off) (h4 : off ≠ 0x04) : s.mmioWrite off v = s := by
  obtain ⟨h8, hC, hX⟩ : off ≠ 0x08 ∧ off ≠ 0x0C ∧ ¬ (0x40 ≤ off ∧ (off - 0x40) / 4 < 8) := by
    simpa [guardedOffset, not_or] using hg
  rw [State.mmioWrite, if_neg h4, if_neg h8, if_neg hC, dif_neg hX]

/-- While BUSY = 0 a guarded write has its effect. -/
theorem State.guarded_idle (effect : State → State) (hb : s.status.busy = false) : s.guarded effect = effect s := by
  simp [State.guarded, hb]

/-- While BUSY = 0 a write of CONFIG takes bit 0. -/
theorem State.mmioWrite_config (hb : s.status.busy = false) :
    s.mmioWrite 0x08 v = { s with hostBe := v.getLsbD 0 } := by
  rw [State.mmioWrite, if_neg (by decide), if_pos rfl, State.guarded_idle _ hb]

/-- While BUSY = 0 a write of CMD issues the word (R125). -/
theorem State.mmioWrite_cmd (hb : s.status.busy = false) : s.mmioWrite 0x0C v = s.accept v := by
  rw [State.mmioWrite, if_neg (by decide), if_neg (by decide), if_pos rfl, State.guarded_idle _ hb]

/-- While BUSY = 0 a write at the offset of Xi writes the register. -/
theorem State.mmioWrite_x (i : XReg) (hb : s.status.busy = false) : s.mmioWrite (0x40 + 4 * i.val) v = s.setX i v := by
  have index : (0x40 + 4 * i.val - 0x40) / 4 = i.val := by omega
  have offset : 0x40 ≤ 0x40 + 4 * i.val ∧ (0x40 + 4 * i.val - 0x40) / 4 < 8 := by omega
  rw [State.mmioWrite, if_neg (by omega), if_neg (by omega), if_neg (by omega), dif_pos offset, State.guarded_idle _ hb]
  exact congrArg (s.setX · v) (Fin.ext index)

end

/-- The write-one-to-clear bits of STATUS: a one clears the flag, a zero leaves it (R15). -/
theorem Status.hostWrite_eq (st : Status) (v : Word) : st.hostWrite v =
    { busy := st.busy
      err := if v.getLsbD 1 then false else st.err
      cmdovr := if v.getLsbD 2 then false else st.cmdovr
      lastcode := st.lastcode } := by
  unfold Status.hostWrite
  cases v.getLsbD 1 <;> cases v.getLsbD 2 <;> simp

/-- The offset of Xi as a byte. -/
theorem xOffset_toNat (i : XReg) : (BitVec.ofNat 8 (0x40 + 4 * i.val)).toNat = 0x40 + 4 * i.val := by
  rw [BitVec.toNat_ofNat, Nat.mod_eq_of_lt (by omega)]

/-! ## The host's MMIO reads (R123) -/

/-- The word that a host read at a word-aligned offset returns: a free value while BUSY = 1, but for ID and STATUS. -/
def State.mmioAnswer (s : State) (off : Nat) : Word :=
  if s.status.busy && !exactWhileBusy off then Config.busyReadWord s.reads else s.mmioReg off

/-- An aligned 32-bit MMIO read returns the answer and changes nothing but the host's register and the counter of free
values. -/
theorem hostMmioRead_word {off : BitVec 8} (s : State) (h : off.toNat % 4 = 0) :
    ∃ t, hostMmioRead off .word s = .next t ∧ t = { s with hostRx := s.mmioAnswer off.toNat, reads := t.reads } := by
  have legal : mmioLegal off .word = true := by simp [mmioLegal, h]
  rw [hostMmioRead, if_neg (by simp [legal]), State.mmioAnswer]
  split <;> exact ⟨_, rfl, rfl⟩

/-- A read of ID or STATUS is exact, busy or not. -/
theorem State.mmioAnswer_exact (s : State) {off : Nat} (h : exactWhileBusy off = true) :
    s.mmioAnswer off = s.mmioReg off := by
  simp [State.mmioAnswer, h]

/-- While BUSY = 0 every read is exact. -/
theorem State.mmioAnswer_idle {s : State} (off : Nat) (hb : s.status.busy = false) :
    s.mmioAnswer off = s.mmioReg off := by
  simp [State.mmioAnswer, hb]

/-- While BUSY = 1 a read of anything but ID and STATUS returns a free value (U2). -/
theorem State.mmioAnswer_busy {s : State} {off : Nat} (hb : s.status.busy = true) (h0 : off ≠ 0x00) (h4 : off ≠ 0x04) :
    s.mmioAnswer off = Config.busyReadWord s.reads := by
  simp [State.mmioAnswer, exactWhileBusy, hb, h0, h4]

/-- The register at the offset of Xi (R33). -/
theorem State.mmioReg_x (s : State) (i : XReg) : s.mmioReg (0x40 + 4 * i.val) = s.x[i] := by
  have index : (0x40 + 4 * i.val - 0x40) / 4 = i.val := by omega
  rw [State.mmioReg, if_neg (by omega), dif_pos (by omega), ← s.getX_eq]
  exact congrArg s.getX (Fin.ext index)

/-- The offsets past the X registers read 0 (R33). -/
theorem State.mmioReg_past_x (s : State) {off : Nat} (h : 0x60 ≤ off) : s.mmioReg off = 0 := by
  rw [State.mmioReg, if_neg (by omega), dif_neg (by omega)]

/-- An access that is not an aligned 32-bit one has no meaning (R127). -/
theorem mmioLegal_eq_false {off : BitVec 8} {width : AccessWidth} :
    mmioLegal off width = false ↔ width ≠ .word ∨ off.toNat % 4 ≠ 0 := by
  simp [mmioLegal, ← Decidable.not_and_iff_or_not]

/-! ## The obligations -/

/-- Settles O7, by induction on the moves to come. -/
theorem pendingCommandCompletes : Obligations.PendingCommandCompletes :=
  fun s _ _ => endsPending_within s.schedule rfl

/-- Settles O10: the register is the word of STATUS as it is while the CSRR runs, and BUSY agrees with PENDING. -/
theorem csrrOfStatusSeesItselfBusy : Obligations.CsrrOfStatusSeesItselfBusy := by
  intro s s₀ w rd hinv hm hp hd
  obtain ⟨hst, hpe⟩ := hm.kept
  have busy : s.status.busy = true := by rw [hinv, hp]; rfl
  obtain ⟨t, ht, value⟩ : ∃ t, step s = .next t ∧ t.x[rd] = s.status.word :=
    ⟨_, (hm.step_eq.trans (coreStep_legal (hpe.trans hp) hd)).trans (exec_csrr_legal rd s₀ (by decide)),
      (s₀.getX_setX_same rd _).trans (congrArg Status.word hst)⟩
  obtain ⟨hbusy, herr, hcmdovr, hcode⟩ := s.status.word_fields
  refine ⟨t, ht, ?_⟩
  rw [value]
  exact ⟨hbusy.trans busy, herr, hcmdovr, hcode⟩

/-- Settles O55, row by row of the table. -/
theorem hostWriteTable : Obligations.HostWriteTable := by
  refine fun s v => ⟨fun off ha hoff => ?_, ?_, fun hb => ⟨?_, ?_, fun i => ?_⟩, fun hb off ha hoff => ?_⟩
  · have hnat : off.toNat = 0 ∨ (0x10 ≤ off.toNat ∧ off.toNat < 0x40) ∨ 0x60 ≤ off.toNat :=
      hoff.imp_left (congrArg BitVec.toNat)
    rw [hostMmioWrite_word v s ha, State.mmioWrite_ignored v (by unfold guardedOffset; omega) (by omega)]
  · rw [hostMmioWrite_status, Status.hostWrite_eq]
  · exact (hostMmioWrite_word v s rfl).trans (congrArg _ (State.mmioWrite_config v hb))
  · exact (hostMmioWrite_word v s rfl).trans (congrArg _ (State.mmioWrite_cmd v hb))
  · rw [hostMmioWrite_word v s (by rw [xOffset_toNat]; omega), xOffset_toNat, State.mmioWrite_x v i hb]
    rfl
  · rw [hostMmioWrite_word v s ha, State.mmioWrite_dropped v ((guardedOffset_iff off).mpr hoff) hb]
    rfl

/-- Settles O56, offset by offset of the register map. -/
theorem hostReadTable : Obligations.HostReadTable := by
  intro s off ha
  refine ⟨_, hostMmioRead_word s ha, ?_, ?_, fun hb h0 h4 => ?_, fun hb => ?_⟩
  · rintro rfl
    exact s.mmioAnswer_exact rfl
  · rintro rfl
    exact (congrArg BitVec.toNat (s.mmioAnswer_exact rfl)).trans s.status.word_toNat
  · have ne_toNat {o : BitVec 8} (h : off ≠ o) : off.toNat ≠ o.toNat := fun e => h (BitVec.eq_of_toNat_eq e)
    exact State.mmioAnswer_busy hb (ne_toNat h0) (ne_toNat h4)
  · rw [State.mmioAnswer_idle off.toNat hb]
    refine ⟨?config, ?cmd, ?width, ?height, ?channels, ?info, ?length, ?pbase, ?pavail, ?base, ?count, ?bytes,
      fun i hi => ?x, ?reserved⟩
    case config => rintro rfl; exact configWord_toNat s.hostBe
    case info => rintro rfl; exact s.hdrInfo.word_toNat
    case x => rw [hi, s.mmioReg_x i]
    case reserved =>
      rintro (rfl | rfl | hpast)
      · rfl
      · rfl
      · exact s.mmioReg_past_x hpast
    all_goals rintro rfl; rfl

/-- Settles O6: the CORE's move on a legal pending word is `exec` of its instruction. -/
theorem stepRunsThePendingCommand : Obligations.StepRunsThePendingCommand := by
  refine ⟨fun s w i hs hp hd => ?_, fun s rest w i hs hp hd => ?_, fun s hs hp => ?_, fun s e rest hs => step_cons hs,
    fun s nbits w i hd => ?_⟩
  · exact (step_nil hs).trans (coreStep_legal hp hd)
  · exact (step_cons hs).trans (coreStep_legal hp hd)
  · rw [step_nil hs, coreStep, hp]
  · rw [(coreMoves_withFetchWord s nbits w).step_eq]
    exact coreStep_legal rfl (decodeTableWord_eq_some.mp hd)

/-- Settles O9: the value is the CSR's, and STATUS, CONFIG and HDR_INFO are words of their fields. -/
theorem csrrCopiesTheRegister : Obligations.CsrrCopiesTheRegister := by
  intro rd csr s h
  refine ⟨_, exec_csrr_legal rd s h, ?id, ?status, ?config, ?cmd, ?width, ?height, ?channels, ?info, ?length,
    ?pbase, ?pavail, ?base, ?count, ?bytes⟩
  case status => rintro rfl; exact s.status.word_toNat
  case config => rintro rfl; exact configWord_toNat s.hostBe
  case info => rintro rfl; exact s.hdrInfo.word_toNat
  all_goals rintro rfl; rfl

/-- Settles O57: such an access is not legal, and both accesses check that first. -/
theorem mmioRefusesOtherWidths : Obligations.MmioRefusesOtherWidths := fun _ _ _ _ h =>
  ⟨if_pos (mmioLegal_eq_false.mpr h), if_pos (mmioLegal_eq_false.mpr h)⟩

end Sys2Proof.Machine
end

section
/-! The family of 60_exceptions.md: the codes a command reports (R128, R132), STATUS at its completion (R130), what a
command that reports an error leaves (R129), the order of checks (R131), and the stops (R141). -/
namespace Sys2Proof.Machine

/-! ## STATUS and its codes (R130, R132) -/

/-- Only a completing command writes LASTCODE a code other than OK, and it writes one that it may report (R132). -/
theorem StatusMove.keeps_code {st st' : Status} {p p' : Option Word} {e : Event} (h : StatusMove st p st' p' e)
    (hi : reportedCode st.lastcode = true) : reportedCode st'.lastcode = true := by
  cases h with
  | kept _ hst _ => rwa [hst]
  | completed c hc _ hst _ => rwa [hst]
  | cleared v hst _ => rwa [hst]
  | dropped off v _ _ hst _ => rwa [hst]
  | accepted v _ hst _ => rwa [hst]
  | reset took hst _ => rw [hst]; decide

/-- STATUS after a command completes, by the number of its code (R130). -/
theorem Status.complete_flags (st : Status) (c : ResultCode) :
    (st.complete c).busy = false ∧ (st.complete c).cmdovr = st.cmdovr ∧
      (st.complete c).err = (st.err || (st.complete c).lastcode != 0) := by
  have bne : (c != .ok) = (c.bits != 0) := by rw [Bool.eq_iff_iff, bne_iff_ne, bne_iff_ne, ne_eq, ne_eq, c.bits_eq_zero]
  exact ⟨rfl, rfl, congrArg (st.err || ·) bne⟩

/-! ## The errors of each command (R129, R131) -/

/-- The codes other than OK that a command may report (R131). -/
def errorsOf : Instr → List ResultCode
  | .cvtH2f _ _ | .cvtF2h _ _ | .bswap16 _ _ => []
  | .cvtH2fBuf _ _ _ | .cvtF2hBuf _ _ _ | .bswap16Buf _ _ | .free _ => [.invalidArgument]
  | .payloadIn _ _ => [.invalidArgument, .truncationError]
  | .hdrParse _ _ => [.invalidArgument, .formatError]
  | .alloc _ _ _ _ _ => [.validationError, .allocFailure]
  | .csrr _ _ => [.illegalCommand]

/-- u is what a command that reports an error has made of s before it completes: HDR.PARSE clears VALID (R108) and
settles the bytes that raced (R56), ALLOC may have used up a stated answer (log entry 6), the others do nothing (R129). -/
def ErrorFrame (i : Instr) (s u : State) : Prop :=
  match i with
  | .hdrParse _ _ => SameButMem s.invalidate u
  | .alloc _ _ _ _ _ => u = s ∨ u = { s with answers := s.answers.tail }
  | .cvtH2f _ _ | .cvtF2h _ _ | .bswap16 _ _ | .cvtH2fBuf _ _ _ | .cvtF2hBuf _ _ _ | .bswap16Buf _ _
  | .payloadIn _ _ | .free _ | .csrr _ _ => u = s

/-- A command ends with OK, or with one of its errors and nothing written but what `ErrorFrame` says. -/
def EndsProperly (i : Instr) (s t : State) : Prop :=
  t.status.lastcode = 0 ∨ ∃ u, ∃ c ∈ errorsOf i, t = u.finish c ∧ ErrorFrame i s u

theorem EndsProperly.ok {i : Instr} {s u : State} : EndsProperly i s (u.finish .ok) := .inl rfl

theorem EndsProperly.error {i : Instr} {s u : State} {c : ResultCode} (hc : c ∈ errorsOf i) (hu : ErrorFrame i s u) :
    EndsProperly i s (u.finish c) := .inr ⟨u, c, hc, rfl, hu⟩

/-- A command with one check ends with OK where it passes and raises where it does not. -/
theorem EndsProperly.ofCheck {i : Instr} {s u : State} {c : ResultCode} {p : Prop} [Decidable p]
    (hc : c ∈ errorsOf i) (hs : ErrorFrame i s s) : EndsProperly i s (if p then u.finish .ok else s.finish c) := by
  split
  · exact .ok
  · exact .error hc hs

/-- The errors of ALLOC's checks (R117, R118). -/
theorem allocSize_error {rd rw rh rc : XReg} {size : SampleSize} {s : State} {c : ResultCode}
    (h : allocSize rw rh rc size s = .error c) : c ∈ errorsOf (.alloc rd rw rh rc size) := by
  rcases allocSize_cases rw rh rc size s with ⟨_, k⟩ | ⟨_, _, k⟩ | ⟨_, _, k⟩ <;> cases k.symm.trans h <;>
    simp [errorsOf]

/-- Every command that answers a next state ends so, by its checks. -/
theorem exec_endsProperly {i : Instr} {s t : State} (h : exec i s = .next t) : EndsProperly i s t := by
  cases i with
  | cvtH2f _ _ | cvtF2h _ _ | bswap16 _ _ =>
    rw [← Host.Outcome.next.inj h]
    exact .ok
  | cvtH2fBuf dst src count =>
    rw [← Host.Outcome.next.inj ((execCvtH2fBuf_eq dst src count s).symm.trans h)]
    exact .ofCheck (List.mem_singleton_self _) rfl
  | cvtF2hBuf dst src count =>
    rw [← Host.Outcome.next.inj ((execCvtF2hBuf_eq dst src count s).symm.trans h)]
    exact .ofCheck (List.mem_singleton_self _) rfl
  | bswap16Buf addr count =>
    rw [← Host.Outcome.next.inj ((execBswap16Buf_eq addr count s).symm.trans h)]
    exact .ofCheck (List.mem_singleton_self _) rfl
  | csrr rd csr =>
    rw [← Host.Outcome.next.inj ((execCsrr_eq rd csr s).symm.trans h)]
    exact .ofCheck (List.mem_singleton_self _) rfl
  | payloadIn dst count =>
    rcases execPayloadIn_cases dst count s with ⟨c, hc, e⟩ | ⟨_, _, e⟩ | ⟨_, _, e⟩ <;> cases e.symm.trans h
    · exact .error (by simpa [errorsOf] using payloadInCheck_some dst count s c hc) rfl
    · exact .ok
  | hdrParse base len =>
    rcases execHdrParse_cases base len s with ⟨_, e⟩ | ⟨_, _, _, e⟩ | ⟨_, _, _, _, e⟩ <;> cases e.symm.trans h
    · exact .error (by simp [errorsOf]) (.refl _)
    · exact .error (by simp [errorsOf]) (.settle _ _)
    · exact .ok
  | alloc rd rw rh rc size =>
    rcases execAlloc_cases rd rw rh rc size s with
      ⟨c, hsz, e⟩ | ⟨_, _, _, _, e⟩ | ⟨_, _, _, _, _, _, e⟩ | ⟨_, _, _, _, _, _, _, e⟩ <;> cases e.symm.trans h
    · exact .error (allocSize_error hsz) (.inl rfl)
    · exact .error (by simp [errorsOf]) (.inr rfl)
    · exact .ok
  | free base =>
    rcases execFree_cases base s with ⟨_, e⟩ | ⟨_, _, e⟩ | ⟨_, _, e⟩ <;> cases e.symm.trans h
    · exact .error (List.mem_singleton_self _) rfl
    · exact .ok

/-- A command that reports an error, by its end. -/
theorem exec_error {i : Instr} {s t : State} (h : exec i s = .next t) (hc : t.status.lastcode ≠ 0) :
    ∃ u, ∃ c ≠ .ok, t = u.finish c ∧ ErrorFrame i s u := by
  rcases exec_endsProperly h with hz | ⟨u, c, _, rfl, hu⟩
  · exact absurd hz hc
  · exact ⟨u, c, fun ok => hc (c.bits_eq_zero.mpr ok), rfl, hu⟩

/-- Only HDR.PARSE and ALLOC leave a trace of an error beside STATUS. -/
theorem ErrorFrame.eq_or_drawn {i : Instr} {s u : State} (h : ErrorFrame i s u)
    (hi : ∀ base len, i ≠ .hdrParse base len) : u = s ∨ u = { s with answers := s.answers.tail } := by
  cases i with
  | hdrParse base len => exact absurd rfl (hi base len)
  | alloc _ _ _ _ _ => exact h
  | _ => exact .inl h

/-- A command that has no error but INVALID_ARGUMENT. -/
theorem exec_lastcode_le_one {i : Instr} {s t : State} (hi : errorsOf i ⊆ [.invalidArgument])
    (h : exec i s = .next t) : t.status.lastcode = 0 ∨ t.status.lastcode = 1 := by
  rcases exec_endsProperly h with hz | ⟨u, c, hc, rfl, _⟩
  · exact .inl hz
  · rw [List.mem_singleton.mp (hi hc)]
    exact .inr rfl

/-- A command that has no error. -/
theorem exec_lastcode_zero {i : Instr} {s t : State} (hi : errorsOf i = []) (h : exec i s = .next t) :
    t.status.lastcode = 0 := by
  rcases exec_endsProperly h with hz | ⟨u, c, hc, _⟩
  · exact hz
  · simp [hi] at hc

/-! ## The order of checks (R131) -/

/-- A valid header and a good region leave PAYLOAD.IN the check of the payload's length (R114). -/
theorem payloadInCheck_short {dst count : XReg} {s : State} (hv : s.hdrInfo.valid = true)
    (hr : s.regionOk (s.natX dst) (2 * s.natX count) = true) (hn : s.hdrPavail.toNat < 2 * s.natX count) :
    payloadInCheck dst count s = some .truncationError := by
  rw [payloadInCheck, if_neg (by simp [hv]), if_neg (by simp [hr]), if_pos hn]

/-- The size of a valid geometry in bytes, as an integer (R118). -/
theorem geometry_bytes {w h c : Int} (hg : geometryOk w h c = true) (n : Nat) :
    (((w * h * c).toNat * n : Nat) : Int) = w * h * c * n := by
  obtain ⟨hw, hh, hc⟩ := (geometryOk_iff w h c).mp hg
  have positive : 0 < w * h * c := mul_pos (mul_pos hw hh) (by omega)
  rw [Int.natCast_mul, Int.toNat_of_nonneg positive.le]

section
variable {rd rw rh rc : XReg} {size : SampleSize} {s t : State}

/-- Sizes that pass ALLOC's checks are those of a valid geometry (R117, R118). -/
theorem allocSize_ok {count bytes : Nat} (h : allocSize rw rh rc size s = .ok (count, bytes)) :
    geometryOk (s.intX rw) (s.intX rh) (s.intX rc) = true ∧
      (bytes : Int) = s.intX rw * s.intX rh * s.intX rc * sampleBytes size := by
  rcases allocSize_cases rw rh rc size s with ⟨_, k⟩ | ⟨_, _, k⟩ | ⟨hg, _, k⟩ <;> cases k.symm.trans h
  exact ⟨hg, geometry_bytes hg _⟩

/-- A size that does not fit is ALLOC_FAILURE (R118). -/
theorem allocSize_tooLarge (hg : geometryOk (s.intX rw) (s.intX rh) (s.intX rc) = true)
    (large : 2 ^ 32 - 1 < (s.intX rw * s.intX rh * s.intX rc).toNat * sampleBytes size) :
    allocSize rw rh rc size s = .error .allocFailure := by
  rcases allocSize_cases rw rh rc size s with ⟨bad, _⟩ | ⟨_, _, k⟩ | ⟨_, fits, _⟩
  · cases hg.symm.trans bad
  · exact k
  · omega

/-- With a valid geometry, a size that does not fit and a stated Fail are both ALLOC_FAILURE (R118, R119). -/
theorem execAlloc_allocFailure (h : execAlloc rd rw rh rc size s = .next t)
    (hg : geometryOk (s.intX rw) (s.intX rh) (s.intX rc) = true)
    (hf : 2 ^ 32 - 1 < s.intX rw * s.intX rh * s.intX rc * sampleBytes size ∨ s.answers.head? = some .fail) :
    t.status.lastcode = 7 := by
  by_cases large : 2 ^ 32 - 1 < (s.intX rw * s.intX rh * s.intX rc).toNat * sampleBytes size
  · cases (execAlloc_raises (rd := rd) (allocSize_tooLarge hg large) (by decide)).symm.trans h
    rfl
  · have bytes := geometry_bytes hg (sampleBytes size)
    obtain ⟨rest, hans⟩ := List.head?_eq_some_iff.mp (hf.resolve_left (by omega))
    cases (execAlloc_statedFail rd hans hg (by omega)).symm.trans h
    rfl

end

/-! ## The stops (R141) -/

/-- While the header invariant holds, PAYLOAD.IN completes or raises (log entry 11). -/
theorem execPayloadIn_answers {s : State} (hh : s.HdrInv) (dst count : XReg) :
    ∃ t, execPayloadIn dst count s = .next t := by
  cases hk : payloadInCheck dst count s with
  | some c => exact ⟨_, execPayloadIn_raises hk⟩
  | none => exact ⟨_, execPayloadIn_completes hh ((payloadInCheck_iff_checked dst count s).mp hk)⟩

/-! ## The obligations -/

/-- Settles O47: no move writes LASTCODE but a completion, which writes a code that it may report, and reset. -/
theorem stepReportsOnlyReportedCodes : Obligations.StepReportsOnlyReportedCodes := by
  intro s t hi h
  obtain ⟨_, _, hm⟩ := step_statusMove h
  exact hm.keeps_code hi

/-- Settles O40: every command ends in a completion, and so does the CORE's move on a pending word. -/
theorem everyCommandWritesStatus : Obligations.EveryCommandWritesStatus := by
  refine ⟨fun i s t h => ?_, fun s s₀ t w hm hp h => ?_⟩
  · obtain ⟨u, c, rfl, k, _⟩ := exec_finish h
    rw [State.finish_status, k.status]
    obtain ⟨hbusy, hcmdovr, herr⟩ := s.status.complete_flags c
    exact ⟨hbusy, hcmdovr, herr, rfl⟩
  · obtain ⟨c, _, hst, hpend⟩ := hm.completes hp h
    rw [hst]
    obtain ⟨hbusy, hcmdovr, herr⟩ := s.status.complete_flags c
    exact ⟨hbusy, hcmdovr, herr, hpend⟩

/-- Settles O41, by what a command that reports an error has done before it completes. -/
theorem failingCommandsChangeOnlyStatus : Obligations.FailingCommandsChangeOnlyStatus := by
  intro i s t h hcode
  obtain ⟨u, c, hc, rfl, hu⟩ := exec_error h hcode
  refine ⟨fun hi => ?_, ?_⟩
  · rcases hu.eq_or_drawn hi with rfl | rfl
    · exact ⟨State.finish_error _ c hc, .inl rfl⟩
    · exact ⟨State.finish_error _ c hc, .inr rfl⟩
  · rintro ⟨base, len, rfl⟩
    have same : SameButMem (failedWith c.bits s.invalidate) (u.finish c) := by
      rw [← State.finish_error _ c hc]
      exact SameButMem.finish hu c
    refine ⟨same, fun a untouched => exec_byteAt h ?_ fun _ => untouched⟩
    exact Bool.eq_false_iff.mpr fun written => ((footprint_bytes _ s a).1.mp written).2

/-- Settles O42: the checks of PAYLOAD.IN, HDR.PARSE and ALLOC in their order, and the errors of the other commands. -/
theorem firstErrorIsReported : Obligations.FirstErrorIsReported := by
  refine ⟨fun s s₀ w why hm hp hd => ?illegal, fun dst count s => ?payloadIn, fun base len s t h => ?hdrParse,
    fun rd rw rh rc size s t h => ?alloc, fun dst src count s t h => ?oneError, fun rd rs1 csr s t hcsr h => ?noError⟩
  case illegal =>
    rw [hm.step_eq, coreStep_illegal (hm.kept.2.trans hp) hd, State.finish_error _ _ (by decide)]
    rfl
  case payloadIn =>
    refine ⟨fun hv => ?_, fun _ hr => ?_, fun hv hr hn => ?_⟩
    · rw [← State.finish_invalidArgument]
      exact execPayloadIn_raises (if_pos hv)
    · rw [← State.finish_invalidArgument]
      exact execPayloadIn_raises (payloadInCheck_badRegion hr)
    · exact (execPayloadIn_raises (payloadInCheck_short hv hr hn)).trans
        (congrArg _ (s.finish_error .truncationError (by decide)))
  case hdrParse =>
    rcases execHdrParse_cases base len s with ⟨hk, e⟩ | ⟨hk, _, _, e⟩ | ⟨hk, _, _, _, e⟩ <;> cases e.symm.trans h
    · exact ⟨iff_of_true hk rfl, .inr (.inl rfl)⟩
    · exact ⟨iff_of_false (ne_false_of_eq_true hk) (by decide : (3 : BitVec 4) ≠ 1), .inr (.inr rfl)⟩
    · exact ⟨iff_of_false (ne_false_of_eq_true hk) (by decide : (0 : BitVec 4) ≠ 1), .inl rfl⟩
  case alloc =>
    refine ⟨fun invalid => ?_, fun hw hh hc hf => ?_⟩
    · cases (execAlloc_raises (allocSize_validationError_iff.mpr invalid) (by decide)).symm.trans h
      rfl
    · exact execAlloc_allocFailure h ((geometryOk_iff _ _ _).mpr ⟨hw, hh, hc⟩) (by cases size <;> exact hf)
  case oneError =>
    rcases h with h | h | h | h <;> exact exec_lastcode_le_one (List.Subset.refl _) h
  case noError =>
    rcases h with h | h | h | h
    · exact exec_lastcode_zero rfl h
    · exact exec_lastcode_zero rfl h
    · exact exec_lastcode_zero rfl h
    · cases (exec_csrr_legal rd s hcsr).symm.trans h
      rfl

/-- Settles O45, command by command: FREE and ALLOC are the two that may stop. -/
theorem commandsFaultOnlyOnBadRelease : Obligations.CommandsFaultOnlyOnBadRelease := by
  intro i s hh
  cases i with
  | cvtH2f _ _ | cvtF2h _ _ | bswap16 _ _ => exact .inl ⟨_, rfl⟩
  | cvtH2fBuf dst src count => exact .inl ⟨_, execCvtH2fBuf_eq dst src count s⟩
  | cvtF2hBuf dst src count => exact .inl ⟨_, execCvtF2hBuf_eq dst src count s⟩
  | bswap16Buf addr count => exact .inl ⟨_, execBswap16Buf_eq addr count s⟩
  | csrr rd csr => exact .inl ⟨_, execCsrr_eq rd csr s⟩
  | hdrParse base len => exact .inl ⟨_, execHdrParse_of_parse rfl⟩
  | payloadIn dst count => exact .inl (execPayloadIn_answers hh dst count)
  | free base =>
    rcases execFree_cases base s with ⟨_, e⟩ | ⟨_, _, e⟩ | ⟨nonzero, notLive, e⟩
    · exact .inl ⟨_, e⟩
    · exact .inl ⟨_, e⟩
    · refine .inr (.inl ⟨base, rfl, e, fun zero => nonzero (congrArg BitVec.toNat zero), fun r hr hbase => ?_⟩)
      exact Bool.eq_false_iff.mp notLive ((s.isLive_iff _).mpr ⟨r, hr, hbase⟩)
  | alloc rd rw rh rc size =>
    rcases execAlloc_cases rd rw rh rc size s with
      ⟨_, _, e⟩ | ⟨_, _, _, _, e⟩ | ⟨_, _, _, _, _, _, e⟩ | ⟨_, bytes, b, rest, hsz, hans, breaks, e⟩
    · exact .inl ⟨_, e⟩
    · exact .inl ⟨_, e⟩
    · exact .inl ⟨_, e⟩
    · obtain ⟨hg, hbytes⟩ := allocSize_ok hsz
      obtain ⟨hw, hhgt, hc⟩ := (geometryOk_iff _ _ _).mp hg
      exact .inr (.inr ⟨rd, rw, rh, rc, size, b, rest, bytes, rfl, e, hans, hw, hhgt, hc,
        by cases size <;> exact hbytes, breaks⟩)

end Sys2Proof.Machine
end

section
/-! The family of 70_reset_and_hazards.md: the state after power-up (R142), reset of an idle CORE (R142, R143), and what
a reset leaves of the command it abandons (R144). -/
namespace Sys2Proof.Machine

/-! ## What reset finds pending -/

theorem State.pendingInstr_idle {s : State} (h : s.pending = none) : s.pendingInstr = none := by
  simp [State.pendingInstr, h]

theorem State.pendingInstr_illegal {s : State} {w : Word} {why : Illegal} (h : s.pending = some w)
    (hd : decode w = .illegal why) : s.pendingInstr = none := by
  simp [State.pendingInstr, h, hd]

theorem State.pendingInstr_legal {s : State} {w : Word} {i : Instr} (h : s.pending = some w)
    (hd : decode w = .legal i) : s.pendingInstr = some i := by
  simp [State.pendingInstr, h, hd]

/-- With no instruction pending there is nothing to abandon: reset writes the registers only (R142). -/
theorem hostReset_noInstr {s : State} (h : s.pendingInstr = none) (took : Bool) :
    hostReset took s = .next s.resetRegisters := by
  rw [hostReset, h]

/-- A reset succeeds where abandoning the pending instruction does (R144). -/
theorem hostReset_abandons {i : Instr} {took : Bool} {s u : State} (h : s.pendingInstr = some i)
    (ha : abandon i took s = .next u) : hostReset took s = .next u.resetRegisters := by
  rw [hostReset, h]
  simp only [ha]

/-- A reset that finds a legal command pending has abandoned it (R144). -/
theorem hostReset_legal {i : Instr} {took : Bool} {s t : State} {w : Word} (hp : s.pending = some w)
    (hd : decode w = .legal i) (h : hostReset took s = .next t) :
    ∃ u, abandon i took s = .next u ∧ t = u.resetRegisters := by
  have found := State.pendingInstr_legal hp hd
  rcases hostReset_next h with ⟨hn, _⟩ | ⟨j, u, hj, ha, ht⟩
  · cases hn.symm.trans found
  · cases hj.symm.trans found
    exact ⟨u, ha, ht⟩

/-! ## What an abandoned command leaves (R144) -/

/-- Where an ALLOC or FREE took no effect, abandoning a command cannot stop. -/
theorem abandon_withoutEffect (i : Instr) (s : State) : ∃ u, abandon i false s = .next u := by
  cases i <;> exact ⟨_, rfl⟩

/-- Every byte that the command would have written holds a free value, every other byte is unchanged. -/
theorem abandon_byteAt {i : Instr} {took : Bool} {s u : State} (h : abandon i took s = .next u) (c : Nat) :
    u.byteAt c = if inRegions (footprint i s).writes c then Config.resetLeftByte s.tick c else s.byteAt c := by
  rcases abandon_next h with rfl | ⟨_, hw, _, _, _, _, _, _, rfl | ⟨_, _, _, _, rfl⟩⟩ | ⟨_, hw, _, _, rfl⟩
  · exact s.byteAt_scrambleAll _ c
  · rw [hw]; rfl
  · rw [hw]; rfl
  · rw [hw]; rfl

/-- An abandoned ALLOC that took effect may have been granted the bytes it asks for, within the contract (R51, U9). -/
theorem abandon_alloc_live {rd rw rh rc : XReg} {size : SampleSize} {s u : State}
    (h : abandon (.alloc rd rw rh rc size) true s = .next u) :
    u.live = s.live ∨ ∃ count bytes b, allocSize rw rh rc size s = .ok (count, bytes) ∧
      s.contractOk b bytes = true ∧ u.live = ⟨b.toNat, bytes⟩ :: s.live := by
  simp only [abandon] at h
  cases hsz : allocSize rw rh rc size s with
  | error code =>
    rw [hsz] at h
    cases h
    exact .inl rfl
  | ok sizes =>
    obtain ⟨count, bytes⟩ := sizes
    rw [hsz] at h
    rcases s.allocRequest_cases bytes with e | ⟨b, hc, e⟩ | ⟨_, _, _, _, e⟩ <;> simp only [e] at h <;> cases h
    · exact .inl rfl
    · exact .inr ⟨count, bytes, b, rfl, hc, rfl⟩

/-- Only an abandoned FREE or ALLOC that took effect has changed the live set. -/
theorem abandon_live {i : Instr} {took : Bool} {s u : State} (h : abandon i took s = .next u) :
    u.live = s.live ∨
    (took = true ∧ ∃ base, i = .free base ∧ u.live = s.live.filter (fun r => decide (r.base ≠ s.natX base))) ∨
    (took = true ∧ ∃ rd rw rh rc size, i = .alloc rd rw rh rc size ∧ ∃ count bytes b,
      allocSize rw rh rc size s = .ok (count, bytes) ∧ s.contractOk b bytes = true ∧
        u.live = ⟨b.toNat, bytes⟩ :: s.live) := by
  rcases abandon_next h with rfl | ⟨rfl, _, rd, rw, rh, rc, size, rfl, _⟩ | ⟨rfl, _, base, rfl, rfl⟩
  · exact .inl (SameButMem.scrambleAll s _).live
  · exact (abandon_alloc_live h).imp_right fun granted => .inr ⟨rfl, rd, rw, rh, rc, size, rfl, granted⟩
  · exact .inr (.inl ⟨rfl, base, rfl, rfl⟩)

/-! ## With no valid header, as after reset -/

/-- PAYLOAD.IN without a valid header raises INVALID_ARGUMENT (R114). -/
theorem exec_payloadIn_noHeader {s : State} (h : s.hdrInfo.valid = false) (dst count : XReg) :
    ∃ u, exec (.payloadIn dst count) s = .next u ∧ u.status.lastcode = 1 :=
  have raises : execPayloadIn dst count s = .next (s.finish .invalidArgument) := execPayloadIn_raises (if_pos h)
  ⟨_, raises, rfl⟩

/-! ## The obligations -/

/-- Settles O59: what a reset changes beside the registers is memory and the allocator, and of an idle CORE not even
those; the cleared VALID stops PAYLOAD.IN at its first check. -/
theorem resetValues : Obligations.ResetValues := by
  refine fun s took => ⟨fun t h => ?_, fun idle => ?_⟩
  · obtain ⟨_, _, _, rfl⟩ : ∃ m l a, t = { s.resetRegisters with mem := m, live := l, answers := a } :=
      ⟨_, _, _, hostReset_registers h⟩
    exact ⟨rfl, rfl, rfl, rfl, rfl, exec_payloadIn_noHeader rfl⟩
  · exact ⟨_, hostReset_noInstr (State.pendingInstr_idle idle) took, rfl, rfl, rfl⟩

/-- Settles O60, by what the abandoned command leaves in memory and in the allocator; reset keeps both. -/
theorem resetAbandonsThePendingCommand : Obligations.ResetAbandonsThePendingCommand := by
  refine ⟨fun s w hp => ⟨?succeeds, fun why took hd => ?illegal⟩, fun s t took w i hp hd h => ?legal⟩
  case succeeds =>
    cases hi : s.pendingInstr with
    | none => exact ⟨_, hostReset_noInstr hi false⟩
    | some i =>
      obtain ⟨u, hu⟩ := abandon_withoutEffect i s
      exact ⟨_, hostReset_abandons hi hu⟩
  case illegal => exact ⟨_, hostReset_noInstr (State.pendingInstr_illegal hp hd) took, rfl, rfl, rfl, rfl⟩
  case legal =>
    obtain ⟨u, hu, rfl⟩ := hostReset_legal hp hd h
    refine ⟨rfl, rfl, fun c => (u.resetRegisters_byteAt c).trans (abandon_byteAt hu c), ?_⟩
    rcases abandon_live hu with kept | ⟨htook, base, rfl, released⟩ |
      ⟨htook, rd, rw, rh, rc, size, rfl, count, bytes, b, hsz, hc, granted⟩
    · exact .inl kept
    · refine .inr (.inl ⟨htook, base, rfl, fun q => ?_⟩)
      rw [State.resetRegisters_live, released, List.mem_filter, decide_eq_true_eq]
      rfl
    · obtain ⟨hg, hbytes⟩ := allocSize_ok hsz
      obtain ⟨hw, hh, hchan⟩ := (geometryOk_iff _ _ _).mp hg
      have word : bytes < 2 ^ 32 := (allocSize_fits hsz).2 ▸ (BitVec.ofNat 32 bytes).isLt
      exact .inr (.inr ⟨htook, rd, rw, rh, rc, size, rfl, hw, hh, hchan, b, bytes,
        by cases size <;> exact hbytes, Nat.le_pred_of_lt word, hc, granted⟩)

/-- Settles O52: after power-up nothing is pending, written, parsed, live or raced. -/
theorem resetMeetsEveryInvariant : Obligations.ResetMeetsEveryInvariant := by
  exact ⟨rfl, rfl, ⟨rfl, nofun⟩, .of_invalid rfl, ⟨nofun, nofun, List.Pairwise.nil⟩, nofun⟩

end Sys2Proof.Machine
end
